-- ==== Sys2Proof/Word.lean ====
section
/-! DEFINITION. The word types of the block: 32-bit registers (R9), 8-bit IMEM bytes (R60), and rows of bytes (R120). -/

namespace Sys2Proof

/-- A register of the host interface: 32 bits (R9). -/
abbrev Word := BitVec 32

/-- One byte of IMEM or of a row buffer (R60, R140). -/
abbrev Byte := BitVec 8

/-- A row: a byte list in ascending address order (R12, R120). -/
abbrev Row := List Byte

/-- A 3×3 structuring element: bit `3r + c` is position `(r, c)` (R31, R45). -/
abbrev Mask := BitVec 9

end Sys2Proof
end

