-- ==== Sys2Proof/Syntax.lean ====
section
/-! DEFINITION. The commands of the block (R84) and the fields of a command word (R80). -/

namespace Sys2Proof

/-- The commands: one constructor per row of spec/opcode_table.json. A command word carries no operand (R81). -/
inductive Instr where
  /-- `NOP` (R110). -/
  | nop
  /-- `SHL`, shift a row left by one pixel (R126). -/
  | shl
  /-- `SHR`, shift a row right by one pixel (R127). -/
  | shr
  /-- `ERODE4`, one 4-connected pass (R166). -/
  | erode4
  /-- `ERODE8`, one 8-connected pass (R167). -/
  | erode8
  /-- `ERODEM`, one pass with the element in `SE_MASK` (R168). -/
  | erodem
  /-- `ERODE_ISO`, isotropic erosion (R180). -/
  | erodeIso
deriving DecidableEq, Repr

/-- The three fields of a command word (R80). -/
structure CmdFields where
  /-- `OP`, bits 3:0. -/
  op : BitVec 4
  /-- `SE`, bits 5:4. -/
  se : BitVec 2
  /-- `RSV`, bits 31:6. -/
  rsv : BitVec 26
deriving DecidableEq, Repr

end Sys2Proof
end

