-- ==== Sys2Proof/WellFormed.lean ====
section
/-! DEFINITION. Which fields make a command word that means a command: the conditions of R80, R82 and R83, one check each. -/

namespace Sys2Proof

/-- `RSV` must be 0 (R80). -/
def CmdFields.reservedClear (f : CmdFields) : Bool := f.rsv == 0#26

/-- `OP` is one of 0x0 to 0x4 (R82: 0x5 to 0xF are reserved). -/
def CmdFields.opDefined (f : CmdFields) : Bool := decide (f.op.toNat ≤ 4)

/-- With `OP = 0x3`, `SE` is not the reserved 0b11 (R83). -/
def CmdFields.elementDefined (f : CmdFields) : Bool := !(f.op == 3#4 && f.se == 3#2)

/-- With any other `OP`, `SE` must be 0b00 (R83). -/
def CmdFields.elementOnlyForErode (f : CmdFields) : Bool := f.op == 3#4 || f.se == 0#2

/-- The fields of a command word that is one of the seven commands (R84). -/
def CmdFields.wellFormed (f : CmdFields) : Bool :=
  f.reservedClear && f.opDefined && f.elementDefined && f.elementOnlyForErode

end Sys2Proof
end

