-- ==== Sys2Proof/Decode.lean ====
section
/-! DEFINITION. The decoder of R84, total on every 32-bit word and rejecting by name, and the encoder, written from the same
table (R80, R82, R83). -/

namespace Sys2Proof

/-- The fields of a command word (R80). -/
def CmdFields.ofWord (w : Word) : CmdFields :=
  { op := w.extractLsb' 0 4, se := w.extractLsb' 4 2, rsv := w.extractLsb' 6 26 }

/-- The command word with these fields (R80). -/
def CmdFields.toWord (f : CmdFields) : Word := f.rsv ++ f.se ++ f.op

/-- Why a word is an illegal command (R85). -/
inductive IllegalWord where
  /-- A bit of 31:6 is not 0. -/
  | reservedBits
  /-- `OP = 0x3` with the reserved `SE = 0b11`. -/
  | reservedElement
  /-- A nonzero `SE` with an `OP` other than 0x3. -/
  | elementWithoutErode
  /-- `OP` is 0x5 to 0xF. -/
  | reservedOp
deriving DecidableEq, Repr

/-- What a 32-bit word decodes to: a command, or ILLEGAL with the reason (R84). -/
inductive Decoded where
  /-- One of the seven commands. -/
  | legal (i : Instr)
  /-- `ILLEGAL`. -/
  | illegal (why : IllegalWord)
deriving DecidableEq, Repr

/-- The command that `OP` and `SE` select once `RSV` is 0 (R82, R83), in the order of R84. -/
def decodeFields (op : BitVec 4) (se : BitVec 2) : Decoded :=
  if op = 3#4 then
    if se = 0#2 then .legal .erode4
    else if se = 1#2 then .legal .erode8
    else if se = 2#2 then .legal .erodem
    else .illegal .reservedElement
  else if se ≠ 0#2 then .illegal .elementWithoutErode
  else if op = 0#4 then .legal .nop
  else if op = 1#4 then .legal .shl
  else if op = 2#4 then .legal .shr
  else if op = 4#4 then .legal .erodeIso
  else .illegal .reservedOp

/-- `decode(w)` (R84). -/
def decode (w : Word) : Decoded :=
  let f := CmdFields.ofWord w
  if f.rsv ≠ 0#26 then .illegal .reservedBits else decodeFields f.op f.se

/-- The fields of each command (R82, R83). -/
def Instr.fields : Instr → CmdFields
  | .nop => { op := 0x0, se := 0b00, rsv := 0 }
  | .shl => { op := 0x1, se := 0b00, rsv := 0 }
  | .shr => { op := 0x2, se := 0b00, rsv := 0 }
  | .erode4 => { op := 0x3, se := 0b00, rsv := 0 }
  | .erode8 => { op := 0x3, se := 0b01, rsv := 0 }
  | .erodem => { op := 0x3, se := 0b10, rsv := 0 }
  | .erodeIso => { op := 0x4, se := 0b00, rsv := 0 }

/-- A command is well formed when the fields of its word are. -/
def Instr.wellFormed (i : Instr) : Bool := i.fields.wellFormed

/-- The command word of a command. -/
def encode (i : Instr) : Word := i.fields.toWord

/-- What the decoder reads from the table's row bits `w` (`nbits` of them, bit 0 the least significant, the bits above 0). A
command is one 32-bit value written to `CMD` (R86), so the bits are that value. -/
def decodeTableWord (nbits w : Nat) : Option Instr :=
  match decode (BitVec.ofNat 32 (w % 2 ^ nbits)) with
  | .legal i => some i
  | .illegal _ => none

end Sys2Proof
end

