-- ==== Sys2Proof/Config.lean ====
section
/-! DEFINITION. What an implementation fixes (the parameters of R8), the constants of the block, and the free values. -/

namespace Sys2Proof.Config

/-- The OPEN implementation parameters of R8. They stand in State (`State.cfg`), because two of them are readable registers
(R39, R40), so that a statement about every state is a statement about every implementation (assumption 1). -/
structure Params where
  /-- `IMEM_BYTES`, the size of IMEM. -/
  imemBytes : Nat
  /-- `MAX_STRIDE`, the capacity of each neighbourhood-cache buffer. -/
  maxStride : Nat
  /-- `REG_BASE`, where the platform places the register block. -/
  regBase : Nat
  /-- `IMEM_HOST_BASE`, where the platform places the host's byte window onto IMEM. -/
  imemHostBase : Nat
deriving DecidableEq, Repr

/-- The constraints R8 puts on the parameters. -/
abbrev Params.wellFormed (p : Params) : Prop :=
  p.imemBytes % 8 = 0 ∧ 24 ≤ p.imemBytes ∧ p.imemBytes ≤ 2 ^ 31 ∧
  p.maxStride % 8 = 0 ∧ 8 ≤ p.maxStride ∧ p.maxStride ≤ 2 ^ 16 ∧ 3 * p.maxStride ≤ p.imemBytes

/-- The parameters of `State.reset`: the test-vector values of R8. DESIGN CHOICE (assumption 1): R8 leaves them OPEN. -/
def resetParams : Params := { imemBytes := 4096, maxStride := 64, regBase := 0, imemHostBase := 4096 }

/-- The constant of the `ID` register (R22). -/
def idValue : Word := 0x4D4F5250#32

/-- `DIAG_STEP`, the stepper's diagonal credit (R181): fixed, not programmable. -/
def diagStep : Nat := 2

/-- FREE VALUE (assumptions 4 and 5): the `n`-th byte drawn by a read where the spec leaves a byte of IMEM unspecified (R231, R232,
R234).
It has no body, so nothing can be proved of its value. -/
opaque freeByte : Nat → Byte

end Sys2Proof.Config
end

