-- ==== Sys2Proof/Machine/State.lean ====
section
/-! DEFINITION. The state of the block (R20), as plain data, its value after reset (R231), and the reasons a step can stop. -/

namespace Sys2Proof.Machine

/-- Why the machine stops. No run from a state that meets the invariant `Inv` of Safety.lean raises any of them: the hardware
never hangs and never traps (R15, R205). They stand for states that no rule describes. All three are SAFE: the model stops. -/
inductive Fault where
  /-- R101's table has no row for this engine state: `SHIFT` with a command that is no shift, or `E_ROW` with `ROW_CURSOR`
  beyond `IMG_HEIGHT - 2`. Raised by the engine's micro-step (assumption 10). Safe. -/
  | noMicroStep
  /-- A `MemRead` or `MemWrite` of the engine reaches an address at or above `IMEM_BYTES` (R11). Raised by `SHIFT`, `E_INIT` and
  `E_ROW` (assumption 11). Safe. -/
  | imemRange
  /-- A row is longer than a neighbourhood-cache buffer (R140). Raised by `SHIFT`, `E_INIT` and `E_ROW` (assumption 11). Safe. -/
  | cacheRange
deriving DecidableEq, Repr

/-- Why an instruction has no meaning. -/
inductive Refusal where
  /-- The instruction of that mnemonic has no meaning in `exec` yet. Raised by no arm: every command has its meaning. Safe. -/
  | notModelled (mnemonic : String)
deriving DecidableEq, Repr

/-- The command error codes of R200. Codes 8 to 15 are never reported and have no constructor (assumption 13). -/
inductive ErrCode where
  /-- 0, success. -/
  | ok
  /-- 1, `E_CMD`: the word decodes to ILLEGAL. -/
  | cmd
  /-- 2, `E_MASK`: `SE_MASK[8:0] = 0`. -/
  | mask
  /-- 3, `E_STRIDE`: `IMG_STRIDE` is 0 or no multiple of 8. -/
  | stride
  /-- 4, `E_HEIGHT`: `IMG_HEIGHT` is 0. -/
  | height
  /-- 5, `E_WIDTH`: `IMG_WIDTH` is 0 or above `8 * IMG_STRIDE`. -/
  | width
  /-- 6, `E_CAPACITY`: the row is longer than `MAX_STRIDE`. -/
  | capacity
  /-- 7, `E_RANGE`: the bytes do not all lie below `IMEM_BYTES`. -/
  | range
deriving DecidableEq, Repr

/-- `ENG_STATE`, the engine's control state (R44). -/
inductive EngState where
  | idle
  | validate
  | shift
  | eInit
  | eRow
  | iSelect
deriving DecidableEq, Repr

/-- The fields of `CTRL` (R23). -/
structure Ctrl where
  /-- Bit 0, `IE_DONE`. -/
  ieDone : Bool
  /-- Bit 1, `IE_HERR`. -/
  ieHerr : Bool
deriving DecidableEq, Repr

/-- The stored fields of `STATUS` (R24). `BUSY` is a function of `ENG_STATE` (R44). -/
structure Status where
  /-- Bit 1, `DONE`. -/
  done : Bool
  /-- Bit 2, `ERR`. -/
  err : Bool
  /-- Bit 3, `HERR`. -/
  herr : Bool
  /-- Bits 11:8, `ERRCODE`. -/
  errCode : ErrCode
deriving DecidableEq, Repr

/-- The operand registers (R26 to R34, R43). -/
structure Operands where
  /-- `IMG_BASE` (R26). -/
  imgBase : Word
  /-- `IMG_WIDTH` (R27). -/
  imgWidth : Word
  /-- `IMG_HEIGHT` (R28). -/
  imgHeight : Word
  /-- `IMG_STRIDE` (R29). -/
  imgStride : Word
  /-- `ISO_STEPS` (R30). -/
  isoSteps : Word
  /-- `SE_MASK` bits 8:0 (R31). -/
  seMask : Mask
  /-- `SHF_SRC` (R32). -/
  shfSrc : Word
  /-- `SHF_DST` (R33). -/
  shfDst : Word
  /-- `SHF_LEN` (R34). -/
  shfLen : Word
deriving DecidableEq, Repr

/-- The stepper's registers (R47). -/
structure Stepper where
  /-- `ISO_INDEX`, the step index (R35). -/
  index : Word
  /-- `ISO_DIAG`, the accumulator (R36). -/
  diag : Word
  /-- `ISO_SEQ`, the last 32 choices (R37). -/
  seq : Word
deriving DecidableEq, Repr

/-- The neighbourhood cache (R46, R140): nine row buffers and the group pointer. -/
structure Cache where
  /-- `NBC_BUF[0]` to `NBC_BUF[8]`. -/
  bufs : Vector Row 9
  /-- `NBC_TOP`. -/
  top : Fin 3
deriving DecidableEq, Repr

/-- IMEM (R60): the bytes that hold a value, as (address, byte) pairs in the canonical form `Memory.wf`. An address that is not
listed holds no value (R231, R232, R234); what a read of it gives is `readByte` (Machine/Ops.lean). -/
abbrev Memory := List Host.Cell

/-- A host transaction (R42, R64, R87). `bits` is the width of a register access; only 32 is defined (R42). -/
inductive HostTx where
  /-- A register write of `v` at an offset of the register block. -/
  | regWrite (off : BitVec 8) (bits : Nat) (v : Word)
  /-- A register read at an offset of the register block. -/
  | regRead (off : BitVec 8) (bits : Nat)
  /-- `HostWriteByte(a, v)`. -/
  | imemWrite (a : Nat) (v : Byte)
  /-- `HostReadByte(a)`. -/
  | imemRead (a : Nat)
deriving DecidableEq, Repr

/-- What happens next: the interleaving of R13 as data (assumption 6). -/
inductive Event where
  /-- The host performs a transaction. -/
  | host (t : HostTx)
  /-- The engine takes its enabled micro-step. -/
  | engine
  /-- The reset input is asserted (R230). -/
  | reset
deriving DecidableEq, Repr

/-- The architectural state of R20, and three fields of the model's own: `draws`, `rdata` and `inputs`. -/
structure State where
  /-- The implementation parameters (R8), readable in `CFG_MAXSTRIDE` and `CFG_IMEMBYTES` (R39, R40). Nothing writes them. -/
  cfg : Config.Params
  /-- `CTRL` (R23). -/
  ctrl : Ctrl
  /-- `STATUS` (R24). -/
  status : Status
  /-- `CMD`, the last accepted command word (R25). -/
  cmd : Word
  /-- The operand registers (R26 to R34). -/
  ops : Operands
  /-- `ISO_INDEX`, `ISO_DIAG`, `ISO_SEQ` (R35 to R37). -/
  iso : Stepper
  /-- `ROW_CURSOR` (R38). -/
  rowCursor : Word
  /-- `ENG_STATE` (R44). -/
  engState : EngState
  /-- `PASS_MASK` (R45). -/
  passMask : Mask
  /-- `NBC_BUF` and `NBC_TOP` (R46). -/
  cache : Cache
  /-- IMEM (R60). -/
  imem : Memory
  /-- MODEL: how many free bytes have been drawn (assumption 4). -/
  draws : Nat
  /-- MODEL: the value the latest host read returned (assumption 8). -/
  rdata : Word
  /-- MODEL: what happens next; when empty, the engine moves (assumption 6). -/
  inputs : List Event
deriving DecidableEq, Repr

/-- `STATUS.BUSY`: 1 exactly when `ENG_STATE` is not `IDLE` (R44). -/
def State.busy (s : State) : Bool := s.engState != .idle

/-- The state after power-up (R231). `cfg`, `passMask`, the bytes of `cache.bufs`, `draws`, `rdata` and `inputs` are DESIGN
CHOICES (assumptions 1, 2, 3, 4, 6, 8). -/
def State.reset : State where
  cfg := Config.resetParams
  ctrl := { ieDone := false, ieHerr := false }
  status := { done := false, err := false, herr := false, errCode := .ok }
  cmd := 0
  ops :=
    { imgBase := 0, imgWidth := 0, imgHeight := 0, imgStride := 0, isoSteps := 0, seMask := 0, shfSrc := 0, shfDst := 0,
      shfLen := 0 }
  iso := { index := 0, diag := 0, seq := 0 }
  rowCursor := 0
  engState := .idle
  passMask := 0
  cache := { bufs := Vector.replicate 9 (List.replicate Config.resetParams.maxStride 0), top := 0 }
  imem := []
  draws := 0
  rdata := 0
  inputs := []

end Sys2Proof.Machine
end

