-- ==== Sys2Proof/Machine/Operands.lean ====
section
/-! DEFINITION. What the engine reads and computes without changing state: the operand registers as numbers (R81), row addresses
(R62), pixels (R61), the row shifts (R121 to R125), the structuring elements (R83) and the AND over the active buffers (R160). -/

namespace Sys2Proof.Machine

/-! ## Operand registers as unbounded integers (R11, R81) -/

/-- `H = IMG_HEIGHT`. -/
def State.height (s : State) : Nat := s.ops.imgHeight.toNat

/-- `S = IMG_STRIDE`. -/
def State.stride (s : State) : Nat := s.ops.imgStride.toNat

/-- The IMEM address of row `y` of the image: `IMG_BASE + y * IMG_STRIDE` (R62). -/
def State.rowAddr (s : State) (y : Nat) : Nat := s.ops.imgBase.toNat + y * s.stride

/-- `L = SHF_LEN`. -/
def State.shiftLen (s : State) : Nat := s.ops.shfLen.toNat

/-- The source address of a shift, `SHF_SRC`. -/
def State.shiftSrc (s : State) : Nat := s.ops.shfSrc.toNat

/-- The destination address of a shift, `SHF_DST`. -/
def State.shiftDst (s : State) : Nat := s.ops.shfDst.toNat

/-- `c = decode(CMD)` (R101). -/
def State.command (s : State) : Decoded := decode s.cmd

/-! ## Pixels and rows -/

/-- `pix(bs, p)`: bit `7 - p mod 8` of byte `p div 8` (R11, R61). A pixel outside the row is background. -/
def pix (bs : Row) (p : Nat) : Bool := (bs.getD (p / 8) 0).getLsbD (7 - p % 8)

/-- `ShiftL(bs)` in the byte form of R123: the top bit of the next byte enters each byte at the bottom. -/
def shiftL : Row → Row
  | [] => []
  | b :: rest => ((b <<< 1) ||| (rest.headD 0 >>> 7)) :: shiftL rest

/-- The right shift of a row whose left neighbour byte is `prev` (R123): its low bit enters at the top. -/
def shiftRFrom (prev : Byte) : Row → Row
  | [] => []
  | b :: rest => ((b >>> 1) ||| ((prev &&& 1) <<< 7)) :: shiftRFrom b rest

/-- `ShiftR(bs)` in the byte form of R123. -/
def shiftR (bs : Row) : Row := shiftRFrom 0 bs

/-- The row read as one big-endian unsigned integer of `8L` bits (R125). For 8 bytes it is the logical big-endian word of R63. -/
def rowToNat (bs : Row) : Nat := bs.foldl (fun acc b => acc * 256 + b.toNat) 0

/-- The logical big-endian 64-bit word of bytes `8j .. 8j+7` of a row (R63, R124). -/
def wordAt (bs : Row) (j : Nat) : BitVec 64 := BitVec.ofNat 64 (rowToNat ((bs.drop (8 * j)).take 8))

/-- `V(row, s)`: variant 0 left-shifted, 1 unshifted, 2 right-shifted (R141, R160). -/
def variant (row : Row) (v : Fin 3) : Row :=
  match v with
  | 0 => shiftL row
  | 1 => row
  | 2 => shiftR row

/-- Byte-wise bitwise AND of byte lists of equal length (R11). -/
def andRow (a b : Row) : Row := List.zipWith (· &&& ·) a b

/-! ## Structuring elements -/

/-- The 4-neighbour element, positions 1, 3, 4, 5, 7 (R83, R166). -/
def mask4 : Mask := 0x0BA#9

/-- The 8-neighbour element, all nine positions (R83, R167). -/
def mask8 : Mask := 0x1FF#9

/-- Whether position `(r, c)` is active: bit `3r + c` (R31). -/
def maskBit (m : Mask) (r c : Fin 3) : Bool := m.getLsbD (3 * r.val + c.val)

/-- The nine positions `(r, c)` in the order `k = 3r + c` of R163. -/
def positions : List (Fin 3 × Fin 3) := [(0, 0), (0, 1), (0, 2), (1, 0), (1, 1), (1, 2), (2, 0), (2, 1), (2, 2)]

/-- The loop of R163: all ones, ANDed with the buffer of every active position. -/
def andActive (m : Mask) (len : Nat) (buf : Fin 3 → Fin 3 → Row) : Row :=
  positions.foldl (fun acc p => if maskBit m p.1 p.2 then andRow acc (buf p.1 p.2) else acc) (List.replicate len 0xFF#8)

/-- The output row of R160 for the original rows above, at and below it. -/
def erodeRow (m : Mask) (above cur below : Row) : Row :=
  andActive m cur.length (fun r c => variant (match r with | 0 => above | 1 => cur | 2 => below) c)

/-! ## The cache -/

/-- `NBC_BUF[k]` (R140). -/
def Cache.buf (c : Cache) (k : Fin 9) : Row := c.bufs[k]

/-- The buffer of variant `v` in row group `g`: `3g + v` (R140). -/
def slotIndex (g v : Fin 3) : Fin 9 := ⟨3 * g.val + v.val, by omega⟩

/-- `slot(lr, s) = 3 * ((NBC_TOP + lr) mod 3) + s` (R141). Addition on `Fin 3` is modulo 3. -/
def Cache.slot (c : Cache) (lr v : Fin 3) : Fin 9 := slotIndex (c.top + lr) v

/-! ## The stepper -/

/-- The greedy choice of R183: an 8-connected step exactly when `d + 2 <= i`, on unbounded integers (R184). -/
def sel8 (iso : Stepper) : Bool := decide (iso.diag.toNat + Config.diagStep ≤ iso.index.toNat)

/-! ## Register accesses -/

/-- A register access is 32 bits wide at an offset that is a multiple of 4 (R42). -/
def regAccessOk (off : BitVec 8) (bits : Nat) : Bool := bits == 32 && off.toNat % 4 == 0

/-- A host IMEM access that takes effect: not while `BUSY = 1`, and below `IMEM_BYTES` (R65). -/
def imemAccessOk (s : State) (a : Nat) : Bool := !s.busy && decide (a < s.cfg.imemBytes)

end Sys2Proof.Machine
end

