-- ==== Sys2Proof/Machine/Flags.lean ====
section
/-! DEFINITION. The flags of the block, all of them in `STATUS` (R48): the word software reads (R24), who sets and clears each
bit, completion (R106) and acceptance (R100), and the interrupt output (R204). -/

namespace Sys2Proof.Machine

/-- The four bits of `STATUS.ERRCODE` for a code (R200). -/
def ErrCode.toBits : ErrCode → BitVec 4
  | .ok => 0
  | .cmd => 1
  | .mask => 2
  | .stride => 3
  | .height => 4
  | .width => 5
  | .capacity => 6
  | .range => 7

/-- `STATUS` as read: BUSY bit 0, DONE bit 1, ERR bit 2, HERR bit 3, ERRCODE bits 11:8, all others 0 (R24). -/
def statusWord (s : State) : Word :=
  0#20 ++ s.status.errCode.toBits ++ 0#4 ++ BitVec.ofBool s.status.herr ++ BitVec.ofBool s.status.err ++
    BitVec.ofBool s.status.done ++ BitVec.ofBool s.busy

/-- `CTRL` as read: IE_DONE bit 0, IE_HERR bit 1, all others 0 (R23). -/
def ctrlWord (c : Ctrl) : Word := 0#30 ++ BitVec.ofBool c.ieHerr ++ BitVec.ofBool c.ieDone

/-- What a write of `v` to `CTRL` stores (R23). -/
def ctrlOfWord (v : Word) : Ctrl := { ieDone := v.getLsbD 0, ieHerr := v.getLsbD 1 }

/-- What a write of `v` to `STATUS` leaves: write 1 to clear, `ERRCODE` with `ERR` (R24). -/
def Status.clearedBy (st : Status) (v : Word) : Status :=
  { done := st.done && !v.getLsbD 1
    err := st.err && !v.getLsbD 2
    herr := st.herr && !v.getLsbD 3
    errCode := if v.getLsbD 2 then .ok else st.errCode }

/-- The interrupt output: `(IE_DONE and DONE) or (IE_HERR and HERR)` (R204). -/
def State.irq (s : State) : Bool := (s.ctrl.ieDone && s.status.done) || (s.ctrl.ieHerr && s.status.herr)

/-- A host protocol error: `STATUS.HERR <- 1`, nothing else (R203). -/
def hostError (s : State) : State := { s with status := { s.status with herr := true } }

/-- `STATUS` at acceptance: DONE, ERR and ERRCODE cleared, HERR kept (R100). -/
def Status.accepted (st : Status) : Status := { st with done := false, err := false, errCode := .ok }

/-- `STATUS` at completion: DONE set; with a nonzero code also ERR and ERRCODE (R106). -/
def Status.completed (st : Status) (code : ErrCode) : Status :=
  match code with
  | .ok => { st with done := true }
  | e => { st with done := true, err := true, errCode := e }

/-- Acceptance of a command word (R100). -/
def accept (w : Word) (s : State) : State := { s with cmd := w, status := s.status.accepted, engState := .validate }

/-- `complete(code)`: the last action of a command's last micro-step (R106). An error is `complete` with a nonzero code: it
transfers no control and saves nothing but the code (R11, R205). -/
def complete (code : ErrCode) (s : State) : State := { s with status := s.status.completed code, engState := .idle }

end Sys2Proof.Machine
end

