-- ==== Sys2Proof/Machine/Ops.lean ====
section
/-! DEFINITION. The named operations over memory, the cache and the engine that the meanings are built from: IMEM access
(R11, R60), the neighbourhood cache (R142 to R144), validation (R104) and the engine's micro-steps (R101). -/

namespace Sys2Proof.Machine

/-! ## IMEM -/

/-- The canonical form of IMEM: addresses strictly rising. No byte equals what an unlisted address holds, because an unlisted
address holds no value. -/
abbrev Memory.wf (m : Memory) : Prop := m.Pairwise (fun x y => x.1 < y.1)

/-- The byte an address holds, none where nothing has written it since power-up (R234), or since a reset abandoned a command that
could write it (R232, assumption 5). -/
def Memory.get? : Memory → Nat → Option Byte
  | [], _ => none
  | (k, b) :: m, a => if k = a then some b else Memory.get? m a

/-- Store one byte, keeping the addresses rising. -/
def Memory.set : Memory → Nat → Byte → Memory
  | [], a, v => [(a, v)]
  | (k, b) :: m, a, v =>
    if a < k then (a, v) :: (k, b) :: m else if a = k then (a, v) :: m else (k, b) :: Memory.set m a v

/-- `MemWrite(a, n, bs)`: byte `bs[k]` to address `a + k` (R11). -/
def Memory.writeRow (m : Memory) (a : Nat) : Row → Memory
  | [] => m
  | b :: bs => Memory.writeRow (Memory.set m a b) (a + 1) bs

/-- The `n` bytes at `a` hold no value any more (R232, assumption 5). -/
def Memory.erase (m : Memory) (a n : Nat) : Memory := m.filter (fun c => decide (c.1 < a) || decide (a + n ≤ c.1))

/-- What a read of address `a` gives when the next free byte is number `d`: the byte it holds, else a free value, a new one at
every read (R234; S3 of 93_implementation_defined.md; assumption 4). -/
def Memory.readByte (m : Memory) (a d : Nat) : Byte := (m.get? a).getD (Config.freeByte d)

/-- `MemRead(a, n)` (R11): byte `k` of the read is number `k` of the draws it may need. -/
def Memory.readRow (m : Memory) (d a n : Nat) : Row := (List.range n).map (fun k => m.readByte (a + k) (d + k))

/-- The bytes `MemRead(a, n)` gives in `s` (R11). -/
def memRead (s : State) (a n : Nat) : Row := s.imem.readRow s.draws a n

/-- Count the draws of a read of `n` bytes: no later read draws the same free byte (assumption 4). -/
def drew (n : Nat) (s : State) : State := { s with draws := s.draws + n }

/-- `MemWrite(a, n, bs)` in `s` (R11). -/
def memWrite (a : Nat) (bs : Row) (s : State) : State := { s with imem := s.imem.writeRow a bs }

/-! ## The neighbourhood cache -/

/-- `NBC_BUF[k][0 .. L-1] <- bs`: the bytes after them keep their values (R140). -/
def Cache.write (c : Cache) (k : Fin 9) (bs : Row) : Cache :=
  { c with bufs := c.bufs.set k (bs ++ (c.buf k).drop bs.length) }

/-- Put a row into row group `g` in its three variants (R142). -/
def Cache.load (c : Cache) (g : Fin 3) (row : Row) : Cache :=
  ((c.write (slotIndex g 0) (shiftL row)).write (slotIndex g 1) row).write (slotIndex g 2) (shiftR row)

/-- `LoadGroup(g, n)` (R142). -/
def loadGroup (g : Fin 3) (n : Nat) (s : State) : State :=
  drew s.stride { s with cache := s.cache.load g (memRead s (s.rowAddr n) s.stride) }

/-- `NBCInit()` (R143): image rows 0, 1, 2 into groups 0, 1, 2. -/
def nbcInit (s : State) : State :=
  let s3 := loadGroup 2 2 (loadGroup 1 1 (loadGroup 0 0 s))
  { s3 with cache := { s3.cache with top := 0 } }

/-- `NBCAdvance(n)` (R144): row `n` into the group of the oldest row, then the window moves. -/
def nbcAdvance (n : Nat) (s : State) : State :=
  let s1 := loadGroup s.cache.top n s
  { s1 with cache := { s1.cache with top := s.cache.top + 1 } }

/-! ## Validation -/

/-- The checks of a shift, in order (R104). -/
def validateShift (s : State) : ErrCode :=
  if s.shiftLen > s.cfg.maxStride then .capacity
  else if s.shiftSrc + s.shiftLen > s.cfg.imemBytes ∨ s.shiftDst + s.shiftLen > s.cfg.imemBytes then .range
  else .ok

/-- The image checks of the erosion commands, in order (R104). -/
def validateImage (s : State) : ErrCode :=
  if s.stride = 0 ∨ s.stride % 8 ≠ 0 then .stride
  else if s.height = 0 then .height
  else if s.ops.imgWidth.toNat = 0 ∨ s.ops.imgWidth.toNat > 8 * s.stride then .width
  else if s.stride > s.cfg.maxStride then .capacity
  else if s.ops.imgBase.toNat + s.stride * s.height > s.cfg.imemBytes then .range
  else .ok

/-- The checks of `ERODEM`: the mask, then the image (R104). -/
def validateErodem (s : State) : ErrCode := if s.ops.seMask = 0 then .mask else validateImage s

/-- `validate(c)` (R104). -/
def validate (c : Decoded) (s : State) : ErrCode :=
  match c with
  | .illegal _ => .cmd
  | .legal .nop => .ok
  | .legal .shl => validateShift s
  | .legal .shr => validateShift s
  | .legal .erode4 => validateImage s
  | .legal .erode8 => validateImage s
  | .legal .erodem => validateErodem s
  | .legal .erodeIso => validateImage s

/-! ## The engine's micro-steps (R101) -/

/-- The outcome of a step of this machine. -/
abbrev Result := Host.Outcome State Fault Refusal

/-- The `VALIDATE` micro-step: complete with the code of the first failing check, else go on (R101, R104). -/
def onValid (code : ErrCode) (go : State → State) (s : State) : State :=
  match code with
  | .ok => go s
  | e => complete e s

/-- The `VALIDATE` rows of a shift: nothing to do for length 0, else on to `SHIFT` (R101). -/
def beginShift (s : State) : State :=
  if s.shiftLen = 0 then complete .ok s else { s with engState := .shift }

/-- The `VALIDATE` row of a single pass: `PASS_MASK <- mask`, then `E_INIT`, or completion without a pass where the image has
no interior row (R101, R164). -/
def beginPass (m : Mask) (s : State) : State :=
  let s1 := { s with passMask := m }
  if s.height < 3 then complete .ok s1 else { s1 with engState := .eInit }

/-- The `VALIDATE` row of `ERODE_ISO` (R101). -/
def beginIso (s : State) : State := { s with iso := { index := 0, diag := 0, seq := 0 }, engState := .iSelect }

/-- The `SHIFT` micro-step (R126, R127): the whole source is read before any byte is written (R128); the source copy goes to
`NBC_BUF[1]` and the result to `NBC_BUF[k]` (R146). -/
def shiftRow (f : Row → Row) (k : Fin 9) (s : State) : Result :=
  if s.shiftSrc + s.shiftLen > s.cfg.imemBytes ∨ s.shiftDst + s.shiftLen > s.cfg.imemBytes then .fault .imemRange
  else if s.shiftLen > s.cfg.maxStride then .fault .cacheRange
  else
    let src := memRead s s.shiftSrc s.shiftLen
    let s1 := { s with cache := (s.cache.write 1 src).write k (f src) }
    .next (complete .ok (memWrite s.shiftDst (f src) (drew s.shiftLen s1)))

/-- The `SHIFT` state of a command that is no shift: R101 has no row for it (assumption 10). -/
def noShift (_ : State) : Result := .fault .noMicroStep

/-- The `E_INIT` micro-step (R162). -/
def eInit (s : State) : Result :=
  if s.rowAddr 3 > s.cfg.imemBytes then .fault .imemRange
  else if s.stride > s.cfg.maxStride then .fault .cacheRange
  else .next { nbcInit s with rowCursor := 1, engState := .eRow }

/-- The row that `E_ROW` writes: the AND of the active buffers of the window (R163). -/
def windowRow (s : State) : Row :=
  andActive s.passMask s.stride (fun r c => (s.cache.buf (s.cache.slot r c)).take s.stride)

/-- The `E_ROW` micro-step (R163): row `y = ROW_CURSOR` is written; then the window advances, or, at `y = IMG_HEIGHT - 2`, the
pass ends as `onPassEnd` says (R101). -/
def eRow (onPassEnd : State → State) (s : State) : Result :=
  let y := s.rowCursor.toNat
  if y + 2 > s.height then .fault .noMicroStep
  else if s.rowAddr (if y + 2 < s.height then y + 3 else y + 1) > s.cfg.imemBytes then .fault .imemRange
  else if s.stride > s.cfg.maxStride then .fault .cacheRange
  else
    let s1 := memWrite (s.rowAddr y) (windowRow s) s
    if y + 2 < s.height then .next { nbcAdvance (y + 2) s1 with rowCursor := s.rowCursor + 1 }
    else .next (onPassEnd s1)

/-- The end of the last pass of `ERODE4`, `ERODE8`, `ERODEM`: the command completes (R101). -/
def endCommand (s : State) : State := complete .ok s

/-- The end of one pass of `ERODE_ISO`: the step is counted and the next is selected (R101). -/
def endIsoPass (s : State) : State :=
  { s with iso := { s.iso with index := s.iso.index + 1 }, engState := .iSelect }

/-- The `I_SELECT` micro-step (R183). -/
def iSelect (s : State) : State :=
  if s.iso.index = s.ops.isoSteps then complete .ok s
  else
    let b := sel8 s.iso
    let index := if s.height < 3 then s.iso.index + 1 else s.iso.index
    let diag := if b then s.iso.diag + BitVec.ofNat 32 Config.diagStep else s.iso.diag
    let seq := (s.iso.seq <<< 1) ||| (BitVec.ofBool b).setWidth 32
    { s with
      iso := { index := index, diag := diag, seq := seq }
      passMask := if b then mask8 else mask4
      engState := if s.height < 3 then .iSelect else .eInit }

/-- The one enabled micro-step of R101, given the three rows that depend on the command: its `VALIDATE` row, its `SHIFT` row and
what ends a pass. In `IDLE` there is none, and the engine holds its state (R101, R213). -/
def microStep (onValidate : State → State) (onShift : State → Result) (onPassEnd : State → State) (s : State) : Result :=
  match s.engState with
  | .idle => .next s
  | .validate => .next (onValidate s)
  | .shift => onShift s
  | .eInit => eInit s
  | .eRow => eRow onPassEnd s
  | .iSelect => .next (iSelect s)

end Sys2Proof.Machine
end

