-- ==== Sys2Proof/Machine/Control.lean ====
section
/-! DEFINITION. The control commands: `NOP` (R110), and what every illegal word does (R85). -/

namespace Sys2Proof.Machine

/-- `NOP` (R110): completes in `VALIDATE`. -/
def execNop (s : State) : Result := microStep (complete .ok) noShift endCommand s

/-- An illegal command word (R85): accepted like any command, it completes with `E_CMD` in its `VALIDATE` micro-step. -/
def execIllegal (s : State) : Result := microStep (complete .cmd) noShift endCommand s

end Sys2Proof.Machine
end

