-- ==== Sys2Proof/Machine/Erosion.lean ====
section
/-! DEFINITION. The Erosion Engine's commands, `ERODE4` (R166), `ERODE8` (R167) and `ERODEM` (R168). -/

namespace Sys2Proof.Machine

/-- `ERODE4` (R166). -/
def execErode4 (s : State) : Result := microStep (onValid (validateImage s) (beginPass mask4)) noShift endCommand s

/-- `ERODE8` (R167). -/
def execErode8 (s : State) : Result := microStep (onValid (validateImage s) (beginPass mask8)) noShift endCommand s

/-- `ERODEM` (R168). -/
def execErodem (s : State) : Result := microStep (onValid (validateErodem s) (beginPass s.ops.seMask)) noShift endCommand s

end Sys2Proof.Machine
end

