-- ==== Sys2Proof/Machine/Isotropic.lean ====
section
/-! DEFINITION. The Isotropic Stepper's command, `ERODE_ISO` (R180). -/

namespace Sys2Proof.Machine

/-- `ERODE_ISO` (R180): the passes return to `I_SELECT`, which completes the command (R183). -/
def execErodeIso (s : State) : Result := microStep (onValid (validateImage s) beginIso) noShift endIsoPass s

end Sys2Proof.Machine
end

