-- ==== Sys2Proof/Machine/Shifter.lean ====
section
/-! DEFINITION. The BitRow Shifter's commands, `SHL` (R126) and `SHR` (R127). -/

namespace Sys2Proof.Machine

/-- `SHL` (R126): the result also goes to `NBC_BUF[0]`. -/
def execShl (s : State) : Result := microStep (onValid (validateShift s) beginShift) (shiftRow shiftL 0) endCommand s

/-- `SHR` (R127): the result also goes to `NBC_BUF[2]`. -/
def execShr (s : State) : Result := microStep (onValid (validateShift s) beginShift) (shiftRow shiftR 2) endCommand s

end Sys2Proof.Machine
end

