-- ==== Sys2Proof/Machine/Dispatch.lean ====
section
/-! DEFINITION. One arm per command: the micro-step that R101 enables for it. -/

namespace Sys2Proof.Machine

/-- The micro-step of command `i` in state `s` (R101; assumption 9). -/
def exec (i : Instr) (s : State) : Host.Outcome State Fault Refusal :=
  match i with
  | .nop => Sys2Proof.Machine.execNop s
  | .shl => Sys2Proof.Machine.execShl s
  | .shr => Sys2Proof.Machine.execShr s
  | .erode4 => Sys2Proof.Machine.execErode4 s
  | .erode8 => Sys2Proof.Machine.execErode8 s
  | .erodem => Sys2Proof.Machine.execErodem s
  | .erodeIso => Sys2Proof.Machine.execErodeIso s

end Sys2Proof.Machine
end

