-- ==== Sys2Proof/Machine/Host.lean ====
section
/-! DEFINITION. The host's side: the register map (R21 to R43), the IMEM byte port (R64, R65), the reset input (R230 to R232) and
the platform's placement of the two windows (R8). -/

namespace Sys2Proof.Machine

/-! ## The register map -/

/-- The registers of R21. -/
inductive Reg where
  | id | ctrl | status | cmd | imgBase | imgWidth | imgHeight | imgStride | isoSteps | seMask | shfSrc | shfDst | shfLen
  | isoIndex | isoDiag | isoSeq | rowCursor | cfgMaxstride | cfgImembytes
deriving DecidableEq, Repr

/-- The offset of each register (R21). -/
def Reg.offset : Reg → BitVec 8
  | .id => 0x00 | .ctrl => 0x04 | .status => 0x08 | .cmd => 0x0C
  | .imgBase => 0x10 | .imgWidth => 0x14 | .imgHeight => 0x18 | .imgStride => 0x1C
  | .isoSteps => 0x20 | .seMask => 0x24 | .shfSrc => 0x28 | .shfDst => 0x2C | .shfLen => 0x30
  | .isoIndex => 0x34 | .isoDiag => 0x38 | .isoSeq => 0x3C | .rowCursor => 0x40
  | .cfgMaxstride => 0x44 | .cfgImembytes => 0x48

/-- All the registers, in the order of R21. -/
def Reg.all : List Reg :=
  [.id, .ctrl, .status, .cmd, .imgBase, .imgWidth, .imgHeight, .imgStride, .isoSteps, .seMask, .shfSrc, .shfDst, .shfLen,
    .isoIndex, .isoDiag, .isoSeq, .rowCursor, .cfgMaxstride, .cfgImembytes]

/-- The register at an offset, none where the offset is reserved (R41) or no register starts there. -/
def Reg.ofOffset (off : BitVec 8) : Option Reg := Reg.all.find? (fun r => r.offset == off)

/-- What a 32-bit read of a register returns (R22 to R40). -/
def Reg.read (s : State) : Reg → Word
  | .id => Config.idValue
  | .ctrl => ctrlWord s.ctrl
  | .status => statusWord s
  | .cmd => s.cmd
  | .imgBase => s.ops.imgBase
  | .imgWidth => s.ops.imgWidth
  | .imgHeight => s.ops.imgHeight
  | .imgStride => s.ops.imgStride
  | .isoSteps => s.ops.isoSteps
  | .seMask => s.ops.seMask.setWidth 32
  | .shfSrc => s.ops.shfSrc
  | .shfDst => s.ops.shfDst
  | .shfLen => s.ops.shfLen
  | .isoIndex => s.iso.index
  | .isoDiag => s.iso.diag
  | .isoSeq => s.iso.seq
  | .rowCursor => s.rowCursor
  | .cfgMaxstride => BitVec.ofNat 32 s.cfg.maxStride
  | .cfgImembytes => BitVec.ofNat 32 s.cfg.imemBytes

/-- A write to an operand register: taken while idle, a protocol error while `BUSY = 1` (R43). -/
def writeOperand (ops : Operands) (s : State) : State := if s.busy then hostError s else { s with ops := ops }

/-- What a 32-bit write of `v` to a register does (R22 to R43). -/
def Reg.write (v : Word) (s : State) : Reg → State
  | .id => s
  | .ctrl => { s with ctrl := ctrlOfWord v }
  | .status => { s with status := s.status.clearedBy v }
  | .cmd => if s.busy then hostError s else accept v s
  | .imgBase => writeOperand { s.ops with imgBase := v } s
  | .imgWidth => writeOperand { s.ops with imgWidth := v } s
  | .imgHeight => writeOperand { s.ops with imgHeight := v } s
  | .imgStride => writeOperand { s.ops with imgStride := v } s
  | .isoSteps => writeOperand { s.ops with isoSteps := v } s
  | .seMask => writeOperand { s.ops with seMask := v.setWidth 9 } s
  | .shfSrc => writeOperand { s.ops with shfSrc := v } s
  | .shfDst => writeOperand { s.ops with shfDst := v } s
  | .shfLen => writeOperand { s.ops with shfLen := v } s
  | .isoIndex => s
  | .isoDiag => s
  | .isoSeq => s
  | .rowCursor => s
  | .cfgMaxstride => s
  | .cfgImembytes => s

/-! ## Host transactions -/

/-- A register write (R42, R41, R43). -/
def hostRegWrite (off : BitVec 8) (bits : Nat) (v : Word) (s : State) : State :=
  if regAccessOk off bits then
    match Reg.ofOffset off with
    | some r => r.write v s
    | none => s
  else hostError s

/-- A register read; the value returned stands in `rdata` (R42, R41). -/
def hostRegRead (off : BitVec 8) (bits : Nat) (s : State) : State :=
  if regAccessOk off bits then
    match Reg.ofOffset off with
    | some r => { s with rdata := r.read s }
    | none => { s with rdata := 0 }
  else { hostError s with rdata := 0 }

/-- `HostWriteByte(a, v)` (R64, R65). -/
def hostImemWrite (a : Nat) (v : Byte) (s : State) : State :=
  if imemAccessOk s a then { s with imem := s.imem.set a v } else hostError s

/-- `HostReadByte(a)`; the value returned stands in `rdata` (R64, R65). -/
def hostImemRead (a : Nat) (s : State) : State :=
  if imemAccessOk s a then { drew 1 s with rdata := (s.imem.readByte a s.draws).setWidth 32 }
  else { hostError s with rdata := 0 }

/-- One host transaction, atomic (R67). -/
def hostTransaction (t : HostTx) (s : State) : State :=
  match t with
  | .regWrite off bits v => hostRegWrite off bits v s
  | .regRead off bits => hostRegRead off bits s
  | .imemWrite a v => hostImemWrite a v s
  | .imemRead a => hostImemRead a s

/-! ## The reset input -/

/-- The bytes the running command could write, as a first address and a length (R232): none while idle, and none for a command
that fails validation, which writes no IMEM byte (R68, R103). -/
def abandonedRange (s : State) : Nat × Nat :=
  if s.busy && validate s.command s == .ok then
    match s.command with
    | .legal .shl => (s.shiftDst, s.shiftLen)
    | .legal .shr => (s.shiftDst, s.shiftLen)
    | .legal .erode4 => (s.rowAddr 1, (s.height - 2) * s.stride)
    | .legal .erode8 => (s.rowAddr 1, (s.height - 2) * s.stride)
    | .legal .erodem => (s.rowAddr 1, (s.height - 2) * s.stride)
    | .legal .erodeIso => (s.rowAddr 1, (s.height - 2) * s.stride)
    | .legal .nop => (0, 0)
    | .illegal _ => (0, 0)
  else (0, 0)

/-- The reset input (R230): every register and all internal state as R231; IMEM is kept, but the bytes an abandoned command could
write hold no value, so that every later read of one draws a free value (R232, R234; assumption 5). The events still to come are
kept. -/
def resetInput (s : State) : State :=
  let r := abandonedRange s
  { State.reset with
    cfg := s.cfg
    cache := { bufs := Vector.replicate 9 (List.replicate s.cfg.maxStride 0), top := 0 }
    imem := s.imem.erase r.1 r.2
    draws := s.draws
    inputs := s.inputs }

/-! ## The platform's windows (R8, R21, R64; assumption 15) -/

/-- The platform address of a register. -/
def Reg.platformAddr (p : Config.Params) (r : Reg) : Nat := p.regBase + r.offset.toNat

/-- The platform address of IMEM byte `a`. -/
def imemPlatformAddr (p : Config.Params) (a : Nat) : Nat := p.imemHostBase + a

/-- The transaction of a platform write of `bits` bits at an address: the 256-byte register window first, else the byte window;
none where the address belongs to neither window, or the byte window is accessed wider than a byte, which the platform splits
(R64). -/
def platformWrite (p : Config.Params) (addr bits : Nat) (v : Word) : Option HostTx :=
  if p.regBase ≤ addr ∧ addr < p.regBase + 256 then some (.regWrite (BitVec.ofNat 8 (addr - p.regBase)) bits v)
  else if p.imemHostBase ≤ addr ∧ bits = 8 then some (.imemWrite (addr - p.imemHostBase) (v.setWidth 8))
  else none

/-- The transaction of a platform read, as `platformWrite`. -/
def platformRead (p : Config.Params) (addr bits : Nat) : Option HostTx :=
  if p.regBase ≤ addr ∧ addr < p.regBase + 256 then some (.regRead (BitVec.ofNat 8 (addr - p.regBase)) bits)
  else if p.imemHostBase ≤ addr ∧ bits = 8 then some (.imemRead (addr - p.imemHostBase))
  else none

end Sys2Proof.Machine
end

