-- ==== Sys2Proof/Machine/Step.lean ====
section
/-! DEFINITION. One step: the next event of `inputs`, or the engine's micro-step where none is pending (assumption 6). -/

namespace Sys2Proof.Machine

/-- The engine's turn: the micro-step of the command in `CMD` (R101), or of an illegal word (R85). -/
def engineTurn (s : State) : Host.Outcome State Fault Refusal :=
  match s.command with
  | .legal i => exec i s
  | .illegal _ => execIllegal s

/-- One step of the machine. -/
def step (s : State) : Host.Outcome State Fault Refusal :=
  match s.inputs with
  | [] => engineTurn s
  | .engine :: rest => engineTurn { s with inputs := rest }
  | .host t :: rest => .next (hostTransaction t { s with inputs := rest })
  | .reset :: rest => .next (resetInput { s with inputs := rest })

/-- `s` with the command word `w` accepted and the engine to move next, so that the very next step runs that command. A command
is not fetched from memory: it is accepted from the host (R20, R25, R100; assumption 7). -/
def State.withFetchWord (s : State) (nbits w : Nat) : State :=
  { accept (BitVec.ofNat 32 (w % 2 ^ nbits)) s with inputs := .engine :: s.inputs }

end Sys2Proof.Machine
end

