-- ==== Sys2Proof/Machine/Assembler.lean ====
section
/-! DEFINITION. The host assembler (R87, R88): the transactions as written in a program, and the pseudo-instructions' expansions. -/

namespace Sys2Proof.Machine

/-- The kind of a transaction (R87). -/
inductive TxKind where
  | w32 | r32 | wb | rb
deriving DecidableEq, Repr

/-- A line of a host program (R87, R88). `wait` carries how many of its reads find `BUSY = 1`, which the interleaving decides
(assumption 14). -/
inductive Asm where
  /-- `wr REG, v`. -/
  | wr (r : Reg) (v : Word)
  /-- `rd REG`. -/
  | rd (r : Reg)
  /-- `sb a, v`. -/
  | sb (a : Nat) (v : Byte)
  /-- `lb a`. -/
  | lb (a : Nat)
  /-- `nop`, `shl`, `shr`, `erode4`, `erode8`, `erodem`, `erode_iso`: a `CMD` write of the command's word. -/
  | command (i : Instr)
  /-- `shl d, s, n`. -/
  | shlArgs (d s n : Word)
  /-- `shr d, s, n`. -/
  | shrArgs (d s n : Word)
  /-- `erodem m`. -/
  | erodemArg (m : Word)
  /-- `erode_iso n`. -/
  | erodeIsoArg (n : Word)
  /-- `image b, w, h, s`. -/
  | image (b w h s : Word)
  /-- `wait`. -/
  | wait (busyReads : Nat)
  /-- `ack`. -/
  | ack
deriving DecidableEq, Repr

/-- A 32-bit write at the offset of a register. -/
def wrReg (r : Reg) (v : Word) : HostTx := .regWrite r.offset 32 v

/-- A 32-bit read at the offset of a register. -/
def rdReg (r : Reg) : HostTx := .regRead r.offset 32

/-- The transactions a line stands for (R87, R88). -/
def Asm.expand : Asm → List HostTx
  | .wr r v => [wrReg r v]
  | .rd r => [rdReg r]
  | .sb a v => [.imemWrite a v]
  | .lb a => [.imemRead a]
  | .command i => [wrReg .cmd (encode i)]
  | .shlArgs d s n => [wrReg .shfDst d, wrReg .shfSrc s, wrReg .shfLen n, wrReg .cmd (encode .shl)]
  | .shrArgs d s n => [wrReg .shfDst d, wrReg .shfSrc s, wrReg .shfLen n, wrReg .cmd (encode .shr)]
  | .erodemArg m => [wrReg .seMask m, wrReg .cmd (encode .erodem)]
  | .erodeIsoArg n => [wrReg .isoSteps n, wrReg .cmd (encode .erodeIso)]
  | .image b w h s => [wrReg .imgBase b, wrReg .imgWidth w, wrReg .imgHeight h, wrReg .imgStride s]
  | .wait busyReads => List.replicate (busyReads + 1) (rdReg .status)
  | .ack => [wrReg .status 0x0000000E]

/-- The triple of a transaction: kind, register offset or IMEM address, data where there is any (R87). R87 gives a kind to 32-bit
register accesses only; an access of another width has no triple, which is the model's choice (DESIGN CHOICE, assumption 18). -/
def HostTx.triple : HostTx → Option (TxKind × Nat × Option Nat)
  | .regWrite off bits v => if bits = 32 then some (.w32, off.toNat, some v.toNat) else none
  | .regRead off bits => if bits = 32 then some (.r32, off.toNat, none) else none
  | .imemWrite a v => some (.wb, a, some v.toNat)
  | .imemRead a => some (.rb, a, none)

/-- A host program: the transactions of its lines, in order. -/
def assemble (p : List Asm) : List HostTx := p.flatMap Asm.expand

end Sys2Proof.Machine
end

