-- ==== Sys2Proof/Safety.lean ====
section
/-! DEFINITION. The terms claims are stated in: runs of steps, the image as rows, the result of a pass (R160) and of a schedule
(R180, R185), the step counts (R102), what a micro-step may write (R68), and the invariants every step keeps. -/

namespace Sys2Proof.Machine

/-! ## Runs -/

/-- `k` steps, stopping at the first that answers no next state. -/
def run : Nat → State → Result
  | 0, s => .next s
  | k + 1, s =>
    match step s with
    | .next t => run k t
    | .fault r => .fault r
    | .refused r => .refused r

/-- The number of micro-steps of a command from acceptance to `IDLE`, counting `VALIDATE` (R102). -/
def microSteps (s : State) : Nat :=
  if validate s.command s = .ok then
    match s.command with
    | .illegal _ => 1
    | .legal .nop => 1
    | .legal .shl => if s.shiftLen = 0 then 1 else 2
    | .legal .shr => if s.shiftLen = 0 then 1 else 2
    | .legal .erode4 => if s.height < 3 then 1 else 1 + 1 + (s.height - 2)
    | .legal .erode8 => if s.height < 3 then 1 else 1 + 1 + (s.height - 2)
    | .legal .erodem => if s.height < 3 then 1 else 1 + 1 + (s.height - 2)
    | .legal .erodeIso =>
      let n := s.ops.isoSteps.toNat
      if s.height < 3 then 1 + (n + 1) else 1 + (n + 1) + n * (s.height - 1)
  else 1

/-! ## Images -/

/-- Every byte of `a .. a+n-1` holds a value: something has written it since power-up (R234), and since any reset that abandoned a
command that could write it (R232). -/
abbrev Memory.holds (m : Memory) (a n : Nat) : Prop := ∀ k < n, (m.get? (a + k)).isSome = true

/-- The `n` bytes at `a`. It is meant where `Memory.holds`; elsewhere a byte that holds no value is shown as 0. -/
def Memory.rowOf (m : Memory) (a n : Nat) : Row := (List.range n).map (fun k => (m.get? (a + k)).getD 0)

/-- The image region of the image registers of `s` is written (R62, R233). -/
abbrev State.imageWritten (s : State) : Prop := s.imem.holds (s.rowAddr 0) (s.stride * s.height)

/-- The rows of the image of `s` (R62). -/
def State.image (s : State) : List Row := (List.range s.height).map (fun y => s.imem.rowOf (s.rowAddr y) s.stride)

/-- `ErodePass(M)` on the rows of an image: rows 0 and `H - 1` are kept, every interior row is the AND of the active variants of
the original rows around it (R160, R161). With fewer than three rows nothing changes (R164). -/
def erodePass (m : Mask) (rows : List Row) : List Row :=
  (List.range rows.length).map (fun y =>
    if 1 ≤ y ∧ y + 1 < rows.length then erodeRow m (rows.getD (y - 1) []) (rows.getD y []) (rows.getD (y + 1) [])
    else rows.getD y [])

/-! ## The isotropic schedule -/

/-- Step `i` is 8-connected exactly when `i >= 2` and `i` is even (R185). -/
def choice8 (i : Nat) : Bool := decide (2 ≤ i) && i % 2 == 0

/-- The element of step `i` (R180). -/
def isoMask (i : Nat) : Mask := if choice8 i then mask8 else mask4

/-- The rows after the first `n` passes of the schedule (R180). -/
def isoImage : Nat → List Row → List Row
  | 0, rows => rows
  | n + 1, rows => erodePass (isoMask n) (isoImage n rows)

/-- `ISO_DIAG` before step `i`, which is also its value after `i` steps (R185). -/
def isoDiagAt (i : Nat) : Nat := 2 * ((i - 1) / 2)

/-- `ISO_SEQ` after `n` steps: the last 32 choices, the most recent in bit 0 (R37). -/
def isoSeqAt : Nat → Word
  | 0 => 0
  | n + 1 => (isoSeqAt n <<< 1) ||| (BitVec.ofBool (choice8 n)).setWidth 32

/-! ## What the engine may write -/

/-- The IMEM addresses the engine's enabled micro-step may write: the destination of a `SHIFT`, the row at `ROW_CURSOR` of an
`E_ROW`, and none in any other state (R68, R126, R163). -/
def engineWrites (s : State) (a : Nat) : Prop :=
  match s.engState with
  | .shift => s.shiftDst ≤ a ∧ a < s.shiftDst + s.shiftLen
  | .eRow => s.rowAddr s.rowCursor.toNat ≤ a ∧ a < s.rowAddr s.rowCursor.toNat + s.stride
  | .idle => False
  | .validate => False
  | .eInit => False
  | .iSelect => False

/-- What the engine sees and decides of a state: all of it but `CTRL`, `STATUS.HERR` and the model's `rdata` and `inputs`. -/
def State.engineView (s : State) : State :=
  { s with ctrl := { ieDone := false, ieHerr := false }, status := { s.status with herr := false }, rdata := 0, inputs := [] }

/-! ## Host protocol errors -/

/-- The operand registers (R43). -/
def operandRegs : List Reg :=
  [.imgBase, .imgWidth, .imgHeight, .imgStride, .isoSteps, .seMask, .shfSrc, .shfDst, .shfLen]

/-- The read-only registers (R41). -/
def readOnlyRegs : List Reg := [.id, .isoIndex, .isoDiag, .isoSeq, .rowCursor, .cfgMaxstride, .cfgImembytes]

/-- The host transactions of the table of R203: a `CMD` or operand-register write while `BUSY = 1`, a register access not 32 bits
wide or not at a multiple-of-4 offset, an IMEM access while `BUSY = 1` or at an address `>= IMEM_BYTES`. -/
def protocolError (t : HostTx) (s : State) : Prop :=
  match t with
  | .regWrite off bits _ =>
    bits ≠ 32 ∨ off.toNat % 4 ≠ 0 ∨ (s.busy = true ∧ ∃ r ∈ Reg.cmd :: operandRegs, r.offset = off)
  | .regRead off bits => bits ≠ 32 ∨ off.toNat % 4 ≠ 0
  | .imemWrite a _ => s.busy = true ∨ s.cfg.imemBytes ≤ a
  | .imemRead a => s.busy = true ∨ s.cfg.imemBytes ≤ a

/-- The transaction reads. -/
def HostTx.isRead : HostTx → Bool
  | .regWrite _ _ _ => false
  | .regRead _ _ => true
  | .imemWrite _ _ => false
  | .imemRead _ => true

/-! ## Invariants -/

/-- The command in `CMD` runs erosion passes. -/
def erodes (c : Decoded) : Bool :=
  c == .legal .erode4 || c == .legal .erode8 || c == .legal .erodem || c == .legal .erodeIso

/-- The mask of the pass in progress (R83, R166 to R168, R183). -/
def expectedMask (s : State) : Mask :=
  match s.command with
  | .legal .erode4 => mask4
  | .legal .erode8 => mask8
  | .legal .erodem => s.ops.seMask
  | _ => isoMask s.iso.index.toNat

/-- The engine's state fits the command, its operands and the stepper's registers: what R101 and R104 guarantee in each state
after `VALIDATE`, and the closed form of R185. -/
structure EngineFits (s : State) : Prop where
  /-- `SHIFT` is entered by a valid shift of a nonempty row. -/
  shift : s.engState = .shift →
    (s.command = .legal .shl ∨ s.command = .legal .shr) ∧ validateShift s = .ok ∧ 0 < s.shiftLen
  /-- A pass runs for a valid erosion command of an image with an interior row, with the element of the command. -/
  pass : s.engState = .eInit ∨ s.engState = .eRow →
    erodes s.command = true ∧ validate s.command s = .ok ∧ 3 ≤ s.height ∧ s.passMask = expectedMask s
  /-- `E_ROW` produces an interior row. -/
  row : s.engState = .eRow → 1 ≤ s.rowCursor.toNat ∧ s.rowCursor.toNat + 2 ≤ s.height
  /-- `I_SELECT` belongs to a valid `ERODE_ISO`, and the stepper's registers have the values of R185. -/
  select : s.engState = .iSelect →
    s.command = .legal .erodeIso ∧ validateImage s = .ok ∧ s.iso.index.toNat ≤ s.ops.isoSteps.toNat ∧
    s.iso.diag.toNat = isoDiagAt s.iso.index.toNat ∧ s.iso.seq = isoSeqAt s.iso.index.toNat
  /-- During the pass of step `i` the choice of step `i` is already counted (R183). -/
  stepping : s.engState = .eInit ∨ s.engState = .eRow → s.command = .legal .erodeIso →
    s.iso.index.toNat < s.ops.isoSteps.toNat ∧
    s.iso.diag.toNat = isoDiagAt (s.iso.index.toNat + 1) ∧ s.iso.seq = isoSeqAt (s.iso.index.toNat + 1)

/-- The invariant: parameters within R8, IMEM in canonical form and within `IMEM_BYTES` (R60), cache buffers of `MAX_STRIDE` bytes
(R140), `ERR` set exactly with a nonzero code (R106, R24), no completion flag while busy (R100), and the engine's state fitting
its command. -/
structure Inv (s : State) : Prop where
  cfg : s.cfg.wellFormed
  imemCanonical : s.imem.wf
  imemInRange : ∀ c ∈ s.imem, c.1 < s.cfg.imemBytes
  bufferLength : ∀ k : Fin 9, (s.cache.buf k).length = s.cfg.maxStride
  errorCode : s.status.err = true ↔ s.status.errCode ≠ .ok
  busyFlags : s.busy = true → s.status.done = false ∧ s.status.err = false
  diagEven : s.iso.diag.toNat % 2 = 0
  engine : EngineFits s

/-- Variant `v` of window row `lr`: the first `IMG_STRIDE` bytes of its buffer (R140, R141). -/
def State.windowBuf (s : State) (lr v : Fin 3) : Row := (s.cache.buf (s.cache.slot lr v)).take s.stride

/-- The window at an `E_ROW` (R145, R148), in terms of one state: every cached row is held in its three variants, and the rows at
and below `ROW_CURSOR`, which the pass has not written yet, are cached as IMEM holds them. -/
structure Window (s : State) : Prop where
  variants : s.engState = .eRow → ∀ lr v : Fin 3, s.windowBuf lr v = variant (s.windowBuf lr 1) v
  cursorRow : s.engState = .eRow → ∀ k < s.stride, ∀ b : Byte,
    s.imem.get? (s.rowAddr s.rowCursor.toNat + k) = some b → (s.windowBuf 1 1).getD k 0 = b
  belowRow : s.engState = .eRow → ∀ k < s.stride, ∀ b : Byte,
    s.imem.get? (s.rowAddr (s.rowCursor.toNat + 1) + k) = some b → (s.windowBuf 2 1).getD k 0 = b

end Sys2Proof.Machine
end

