-- ==== Sys2Proof/Certificates/Slice0/Obligations.lean ====
section
/-! DEFINITION. The statements for the provers, from the numbered rules of spec/. Where a statement speaks of `inputs`, the list of
events still to come, that list is the model's form of the free interleaving of R13 (assumption 6). -/

open Sys2Proof Sys2Proof.Machine

/-! ## Encoding and fetch -/

/-- R84: exactly seven words decode to a command, those the rule lists, and `decode` maps every other word to ILLEGAL. -/
def Obligations.DecodeInvertsEncodeOnSevenWords : Prop :=
  (∀ (w : Word) (i : Instr), decode w = .legal i ↔ encode i = w) ∧
  (∀ w : Word, (∀ i : Instr, encode i ≠ w) → ∃ why, decode w = .illegal why) ∧
  encode .nop = 0x00000000#32 ∧ encode .shl = 0x00000001#32 ∧ encode .shr = 0x00000002#32 ∧
  encode .erode4 = 0x00000003#32 ∧ encode .erode8 = 0x00000013#32 ∧ encode .erodem = 0x00000023#32 ∧
  encode .erodeIso = 0x00000004#32

/-- R85: which words are illegal, that one is accepted like any command, and that it completes with `E_CMD` in its `VALIDATE`
micro-step, changing nothing but `STATUS` and `ENG_STATE`. -/
def Obligations.IllegalWordsCompleteWithECmd : Prop :=
  (∀ w : Word, (∃ why, decode w = .illegal why) ↔
    5 ≤ (w.extractLsb' 0 4).toNat ∨ (w.extractLsb' 0 4 = 3#4 ∧ w.extractLsb' 4 2 = 3#2) ∨
    (w.extractLsb' 0 4 ≠ 3#4 ∧ w.extractLsb' 4 2 ≠ 0#2) ∨ w.extractLsb' 6 26 ≠ 0#26) ∧
  (∀ (w : Word) (s : State), s.busy = false → hostTransaction (.regWrite 0x0C#8 32 w) s = accept w s) ∧
  (∀ (s : State) (why : IllegalWord), s.command = .illegal why → s.engState = .validate → s.inputs = [] →
    step s = .next { s with
      status := { s.status with done := true, err := true, errCode := .cmd }
      engState := .idle })

/-- The command words of R84 as the spec writes them, bit by bit from `OP`, `SE` and `RSV` (R80, R82, R83), and some reserved ones. -/
def Obligations.WrittenOutWordsDecode : Prop :=
  decode (0#26 ++ 0b00#2 ++ 0x0#4) = .legal .nop ∧ decode (0#26 ++ 0b00#2 ++ 0x1#4) = .legal .shl ∧
  decode (0#26 ++ 0b00#2 ++ 0x2#4) = .legal .shr ∧ decode (0#26 ++ 0b00#2 ++ 0x3#4) = .legal .erode4 ∧
  decode (0#26 ++ 0b01#2 ++ 0x3#4) = .legal .erode8 ∧ decode (0#26 ++ 0b10#2 ++ 0x3#4) = .legal .erodem ∧
  decode (0#26 ++ 0b00#2 ++ 0x4#4) = .legal .erodeIso ∧ decode (0#26 ++ 0b11#2 ++ 0x3#4) = .illegal .reservedElement ∧
  decode (1#26 ++ 0b00#2 ++ 0x3#4) = .illegal .reservedBits ∧ decode (0#26 ++ 0b01#2 ++ 0x4#4) = .illegal .elementWithoutErode ∧
  decode (0#26 ++ 0b00#2 ++ 0x5#4) = .illegal .reservedOp

/-- On the engine's turn a step is `exec` of the command that `CMD` decodes to (R101): with no event pending at the state itself,
with an engine event pending at the state without it. The events are the model's (assumption 6). -/
def Obligations.StepRunsDecodedCommand : Prop :=
  ∀ (s : State) (i : Instr), decode s.cmd = .legal i →
    (s.inputs = [] → step s = exec i s) ∧
    (∀ rest, s.inputs = .engine :: rest → step s = exec i { s with inputs := rest })

/-- A word placed by `withFetchWord` is the accepted command (R100) that the very next step runs (assumption 7). -/
def Obligations.PlacedWordRunsNext : Prop :=
  ∀ (s : State) (i : Instr), step (s.withFetchWord 32 (encode i).toNat) = exec i (accept (encode i) s)

/-! ## Acceptance, registers, host protocol -/

/-- R100 and R25: a `CMD` write while idle is accepted, while busy it is refused with `HERR`; a read returns the word. -/
def Obligations.CommandWriteAcceptedOrRefused : Prop :=
  (∀ (s : State) (w : Word), s.busy = false →
    hostTransaction (.regWrite 0x0C#8 32 w) s = { s with
      cmd := w
      status := { s.status with done := false, err := false, errCode := .ok }
      engState := .validate }) ∧
  (∀ (s : State) (w : Word), s.busy = true →
    hostTransaction (.regWrite 0x0C#8 32 w) s = { s with status := { s.status with herr := true } }) ∧
  (∀ s : State, hostTransaction (.regRead 0x0C#8 32) s = { s with rdata := s.cmd }) ∧
  State.reset.cmd = 0

/-- R43: an operand-register write while busy is ignored and sets `HERR`, and so no step but a reset changes an operand register
while a command runs. -/
def Obligations.OperandsConstantWhileBusy : Prop :=
  (∀ (s : State) (off : BitVec 8) (v : Word), s.busy = true →
    off ∈ [0x10#8, 0x14#8, 0x18#8, 0x1C#8, 0x20#8, 0x24#8, 0x28#8, 0x2C#8, 0x30#8] →
    hostTransaction (.regWrite off 32 v) s = { s with status := { s.status with herr := true } }) ∧
  (∀ s t : State, s.busy = true → s.inputs.head? ≠ some .reset → step s = .next t → t.ops = s.ops)

/-- R26 to R34: while idle a write to an operand register stores the value (`SE_MASK` its bits 8:0), it reads back, every other
register reads as before, and nothing but the operand registers changes. -/
def Obligations.OperandWriteWhileIdleStores : Prop :=
  ∀ (s : State) (r : Reg) (v : Word), s.busy = false → r ∈ operandRegs →
    Reg.read (hostTransaction (.regWrite r.offset 32 v) s) r = (if r = .seMask then v &&& 0x1FF#32 else v) ∧
    (∀ r' : Reg, r' ≠ r → Reg.read (hostTransaction (.regWrite r.offset 32 v) s) r' = Reg.read s r') ∧
    hostTransaction (.regWrite r.offset 32 v) s =
      { s with ops := (hostTransaction (.regWrite r.offset 32 v) s).ops }

/-- R42: an access of another width or at an offset that is no multiple of 4 is a protocol error; a read has no side effect. What a
32-bit read at each offset of R21 returns is the register there, with the value R22 to R40 give it; `CTRL` and `STATUS` read as
their fields in order, `SE_MASK` as its nine bits. -/
def Obligations.RegisterAccessWidthAndOffset : Prop :=
  (∀ (s : State) (off : BitVec 8) (bits : Nat) (v : Word), bits ≠ 32 ∨ off.toNat % 4 ≠ 0 →
    hostTransaction (.regWrite off bits v) s = { s with status := { s.status with herr := true } } ∧
    hostTransaction (.regRead off bits) s = { s with status := { s.status with herr := true }, rdata := 0 }) ∧
  (∀ (s : State) (off : BitVec 8), off.toNat % 4 = 0 →
    hostTransaction (.regRead off 32) s = { s with rdata := (hostTransaction (.regRead off 32) s).rdata }) ∧
  (∀ (s : State) (off : BitVec 8) (r : Reg),
    (off, r) ∈ [(0x00#8, Reg.id), (0x04#8, .ctrl), (0x08#8, .status), (0x0C#8, .cmd), (0x10#8, .imgBase), (0x14#8, .imgWidth),
      (0x18#8, .imgHeight), (0x1C#8, .imgStride), (0x20#8, .isoSteps), (0x24#8, .seMask), (0x28#8, .shfSrc), (0x2C#8, .shfDst),
      (0x30#8, .shfLen), (0x34#8, .isoIndex), (0x38#8, .isoDiag), (0x3C#8, .isoSeq), (0x40#8, .rowCursor),
      (0x44#8, .cfgMaxstride), (0x48#8, .cfgImembytes)] →
    hostTransaction (.regRead off 32) s = { s with rdata := Reg.read s r }) ∧
  (∀ s : State,
    Reg.read s .id = 0x4D4F5250#32 ∧ Reg.read s .ctrl = 0#30 ++ BitVec.ofBool s.ctrl.ieHerr ++ BitVec.ofBool s.ctrl.ieDone ∧
    Reg.read s .status = 0#20 ++ s.status.errCode.toBits ++ 0#4 ++ BitVec.ofBool s.status.herr ++ BitVec.ofBool s.status.err ++
      BitVec.ofBool s.status.done ++ BitVec.ofBool s.busy ∧
    Reg.read s .cmd = s.cmd ∧ Reg.read s .imgBase = s.ops.imgBase ∧ Reg.read s .imgWidth = s.ops.imgWidth ∧
    Reg.read s .imgHeight = s.ops.imgHeight ∧ Reg.read s .imgStride = s.ops.imgStride ∧
    Reg.read s .isoSteps = s.ops.isoSteps ∧ Reg.read s .seMask = 0#23 ++ s.ops.seMask ∧ Reg.read s .shfSrc = s.ops.shfSrc ∧
    Reg.read s .shfDst = s.ops.shfDst ∧ Reg.read s .shfLen = s.ops.shfLen ∧ Reg.read s .isoIndex = s.iso.index ∧
    Reg.read s .isoDiag = s.iso.diag ∧ Reg.read s .isoSeq = s.iso.seq ∧ Reg.read s .rowCursor = s.rowCursor ∧
    Reg.read s .cfgMaxstride = BitVec.ofNat 32 s.cfg.maxStride ∧ Reg.read s .cfgImembytes = BitVec.ofNat 32 s.cfg.imemBytes)

/-- R41: reserved offsets read 0 and ignore writes, read-only registers ignore writes, and neither sets anything, in every state. -/
def Obligations.ReservedAndReadOnlyWritesIgnored : Prop :=
  (∀ (s : State) (off : BitVec 8) (v : Word), off.toNat % 4 = 0 → 0x4C ≤ off.toNat →
    hostTransaction (.regWrite off 32 v) s = s ∧ hostTransaction (.regRead off 32) s = { s with rdata := 0 }) ∧
  (∀ (s : State) (off : BitVec 8) (v : Word),
    off ∈ [0x00#8, 0x34#8, 0x38#8, 0x3C#8, 0x40#8, 0x44#8, 0x48#8] → hostTransaction (.regWrite off 32 v) s = s)

/-- R24: the layout of `STATUS`, the numbers of the codes (R200), its write-1-to-clear fields, its reset value, what a completion
sets, and that only the engine sets `DONE`, `ERR` and `ERRCODE` and only host transactions set `HERR`. -/
def Obligations.StatusFieldsAndWhoSetsThem : Prop :=
  (∀ s : State,
    (Reg.read s .status).getLsbD 0 = s.busy ∧ (Reg.read s .status).getLsbD 1 = s.status.done ∧
    (Reg.read s .status).getLsbD 2 = s.status.err ∧ (Reg.read s .status).getLsbD 3 = s.status.herr ∧
    (Reg.read s .status).extractLsb' 4 4 = 0 ∧ (Reg.read s .status).extractLsb' 8 4 = s.status.errCode.toBits ∧
    (Reg.read s .status).extractLsb' 12 20 = 0) ∧
  [ErrCode.ok, .cmd, .mask, .stride, .height, .width, .capacity, .range].map ErrCode.toBits =
    [0#4, 1#4, 2#4, 3#4, 4#4, 5#4, 6#4, 7#4] ∧
  (∀ (s : State) (v : Word), ∃ st : Status, hostTransaction (.regWrite 0x08#8 32 v) s = { s with status := st } ∧
    st.done = (if v.getLsbD 1 then false else s.status.done) ∧ st.err = (if v.getLsbD 2 then false else s.status.err) ∧
    st.errCode = (if v.getLsbD 2 then .ok else s.status.errCode) ∧
    st.herr = (if v.getLsbD 3 then false else s.status.herr)) ∧
  Reg.read State.reset .status = 0 ∧
  (∀ s : State, complete .ok s = { s with status := { s.status with done := true }, engState := .idle }) ∧
  (∀ (s : State) (code : ErrCode), code ≠ .ok → complete code s =
    { s with status := { s.status with done := true, err := true, errCode := code }, engState := .idle }) ∧
  (∀ (s t : State) (h : HostTx) (rest : List Event), s.inputs = .host h :: rest → step s = .next t →
    (t.status.done = true → s.status.done = true) ∧ (t.status.err = true → s.status.err = true) ∧
    (t.status.errCode = .ok ∨ t.status.errCode = s.status.errCode)) ∧
  (∀ (i : Instr) (s t : State), exec i s = .next t → t.status.herr = s.status.herr)

/-- R23: a write to `CTRL` stores bits 1:0 in every engine state and does nothing else; it reads back with bits 31:2 zero; and no
micro-step of the engine depends on `CTRL` or changes it. -/
def Obligations.CtrlStoresTwoEnableBits : Prop :=
  (∀ (s : State) (v : Word), ∃ c : Ctrl, hostTransaction (.regWrite 0x04#8 32 v) s = { s with ctrl := c } ∧
    c.ieDone = v.getLsbD 0 ∧ c.ieHerr = v.getLsbD 1 ∧
    Reg.read (hostTransaction (.regWrite 0x04#8 32 v) s) .ctrl = v &&& 3#32) ∧
  Reg.read State.reset .ctrl = 0 ∧
  (∀ (c : Ctrl) (s t : State), engineTurn s = .next t → engineTurn { s with ctrl := c } = .next { t with ctrl := c })

/-- R204: the interrupt output, in terms of what software reads of `CTRL` and `STATUS`; a completion raises it where `IE_DONE` is
set, and clearing both status bits, or both enables, deasserts it. -/
def Obligations.InterruptFollowsEnablesAndStatus : Prop :=
  (∀ s : State, s.irq = true ↔
    ((Reg.read s .ctrl).getLsbD 0 = true ∧ (Reg.read s .status).getLsbD 1 = true) ∨
    ((Reg.read s .ctrl).getLsbD 1 = true ∧ (Reg.read s .status).getLsbD 3 = true)) ∧
  (∀ s : State, (hostTransaction (.regWrite 0x08#8 32 0xA#32) s).irq = false ∧
    (hostTransaction (.regWrite 0x04#8 32 0#32) s).irq = false) ∧
  (∀ (s : State) (code : ErrCode), s.ctrl.ieDone = true → (complete code s).irq = true)

/-- R64 and R65: the host's byte port. An access while busy or at an address `>= IMEM_BYTES` is a protocol error; any other write
stores the byte and changes no other byte, and any other read returns the byte the address holds. -/
def Obligations.HostByteAccess : Prop :=
  (∀ (s : State) (a : Nat) (v : Byte), s.busy = true ∨ s.cfg.imemBytes ≤ a →
    hostTransaction (.imemWrite a v) s = { s with status := { s.status with herr := true } } ∧
    hostTransaction (.imemRead a) s = { s with status := { s.status with herr := true }, rdata := 0 }) ∧
  (∀ (s : State) (a : Nat) (v : Byte), s.busy = false → a < s.cfg.imemBytes →
    (hostTransaction (.imemWrite a v) s).imem.get? a = some v ∧
    (∀ a' : Nat, a' ≠ a → (hostTransaction (.imemWrite a v) s).imem.get? a' = s.imem.get? a') ∧
    hostTransaction (.imemWrite a v) s = { s with imem := (hostTransaction (.imemWrite a v) s).imem }) ∧
  (∀ (s : State) (a : Nat), s.busy = false → a < s.cfg.imemBytes →
    (∀ v : Byte, s.imem.get? a = some v → (hostTransaction (.imemRead a) s).rdata = v.setWidth 32) ∧
    hostTransaction (.imemRead a) s =
      { s with rdata := (hostTransaction (.imemRead a) s).rdata, draws := (hostTransaction (.imemRead a) s).draws })

/-- R203: each transaction of the table sets `HERR` and has no other effect (a read returns 0), no other transaction sets it, once
set it stays set through every step but a `STATUS` write with bit 3 set, or a reset, and it never changes what the engine does. -/
def Obligations.ProtocolErrorsAreStickyAndHarmless : Prop :=
  (∀ (h : HostTx) (s : State), protocolError h s →
    hostTransaction h s =
      { s with status := { s.status with herr := true }, rdata := if h.isRead then 0 else s.rdata }) ∧
  (∀ (h : HostTx) (s : State), ¬ protocolError h s → (hostTransaction h s).status.herr = true → s.status.herr = true) ∧
  (∀ s t : State, s.status.herr = true → step s = .next t →
    (∀ v : Word, s.inputs.head? = some (.host (.regWrite 0x08#8 32 v)) → v.getLsbD 3 = false) →
    s.inputs.head? ≠ some .reset → t.status.herr = true) ∧
  (∀ (h : Bool) (s t : State), engineTurn s = .next t →
    engineTurn { s with status := { s.status with herr := h } } = .next { t with status := { t.status with herr := h } })

/-- R22, R39, R40: `ID` reads its constant in every state, the two configuration registers read the parameters, writes to the
three are ignored and set nothing, and no step, not even a reset, changes a parameter. -/
def Obligations.IdentityAndParametersFixed : Prop :=
  (∀ s : State,
    hostTransaction (.regRead 0x00#8 32) s = { s with rdata := 0x4D4F5250#32 } ∧
    hostTransaction (.regRead 0x44#8 32) s = { s with rdata := BitVec.ofNat 32 s.cfg.maxStride } ∧
    hostTransaction (.regRead 0x48#8 32) s = { s with rdata := BitVec.ofNat 32 s.cfg.imemBytes }) ∧
  (∀ (s : State) (v : Word), hostTransaction (.regWrite 0x00#8 32 v) s = s ∧
    hostTransaction (.regWrite 0x44#8 32 v) s = s ∧ hostTransaction (.regWrite 0x48#8 32 v) s = s) ∧
  (∀ s t : State, step s = .next t → t.cfg = s.cfg)

/-- R88 with R87: what each pseudo-instruction expands to, as the offsets and values written. The number of reads of `wait` is the
model's parameter (assumption 14). -/
def Obligations.PseudoInstructionsExpand : Prop :=
  ([Instr.nop, .shl, .shr, .erode4, .erode8, .erodem, .erodeIso].map fun i => (assemble [.command i]).map HostTx.triple) =
    [[some (.w32, 0x0C, some 0x00)], [some (.w32, 0x0C, some 0x01)], [some (.w32, 0x0C, some 0x02)],
      [some (.w32, 0x0C, some 0x03)], [some (.w32, 0x0C, some 0x13)], [some (.w32, 0x0C, some 0x23)],
      [some (.w32, 0x0C, some 0x04)]] ∧
  (∀ d s n : Word,
    assemble [.shlArgs d s n] = [.regWrite 0x2C 32 d, .regWrite 0x28 32 s, .regWrite 0x30 32 n, .regWrite 0x0C 32 1] ∧
    assemble [.shrArgs d s n] = [.regWrite 0x2C 32 d, .regWrite 0x28 32 s, .regWrite 0x30 32 n, .regWrite 0x0C 32 2]) ∧
  (∀ m : Word, assemble [.erodemArg m] = [.regWrite 0x24 32 m, .regWrite 0x0C 32 0x23]) ∧
  (∀ n : Word, assemble [.erodeIsoArg n] = [.regWrite 0x20 32 n, .regWrite 0x0C 32 4]) ∧
  (∀ b w h s : Word, assemble [.image b w h s] =
    [.regWrite 0x10 32 b, .regWrite 0x14 32 w, .regWrite 0x18 32 h, .regWrite 0x1C 32 s]) ∧
  (∀ k : Nat, assemble [.wait k] = List.replicate (k + 1) (.regRead 0x08 32)) ∧
  assemble [.ack] = [.regWrite 0x08 32 0x0000000E]

/-! ## The row shifts -/

/-- R121, with the length of R120: pixel `p` of the left shift is pixel `p + 1`, and the last pixel is background. -/
def Obligations.ShiftLeftTakesNextPixel : Prop :=
  ∀ bs : Row, (shiftL bs).length = bs.length ∧
    ∀ p < 8 * bs.length, pix (shiftL bs) p = if p + 1 < 8 * bs.length then pix bs (p + 1) else false

/-- R122, with the length of R120: pixel `p` of the right shift is pixel `p - 1`, and pixel 0 is background. -/
def Obligations.ShiftRightTakesPreviousPixel : Prop :=
  ∀ bs : Row, (shiftR bs).length = bs.length ∧
    ∀ p < 8 * bs.length, pix (shiftR bs) p = if 1 ≤ p then pix bs (p - 1) else false

/-- R124, with the byte form of R123 for every byte, the tail's among them. -/
def Obligations.ShiftWordAndByteForms : Prop :=
  ∀ bs : Row,
    (∀ j < bs.length / 8,
      wordAt (shiftL bs) j = (wordAt bs j <<< 1) |||
        (if 8 * j + 8 < bs.length then (bs.getD (8 * j + 8) 0 >>> 7).setWidth 64 else 0) ∧
      wordAt (shiftR bs) j = (wordAt bs j >>> 1) |||
        (if 1 ≤ j then (bs.getD (8 * j - 1) 0 &&& 1).setWidth 64 <<< 63 else 0)) ∧
    (∀ k < bs.length,
      (shiftL bs).getD k 0 = (bs.getD k 0 <<< 1) ||| (if k + 1 < bs.length then bs.getD (k + 1) 0 >>> 7 else 0) ∧
      (shiftR bs).getD k 0 = (bs.getD k 0 >>> 1) ||| (if 1 ≤ k then (bs.getD (k - 1) 0 &&& 1) <<< 7 else 0))

/-- R125: on the row read as one big-endian integer the left shift doubles modulo `2^(8L)` and the right shift halves. -/
def Obligations.ShiftIntegerForm : Prop :=
  (∀ bs : Row, (shiftL bs).length = bs.length ∧ (shiftR bs).length = bs.length ∧
    rowToNat (shiftL bs) = (rowToNat bs * 2) % 2 ^ (8 * bs.length) ∧ rowToNat (shiftR bs) = rowToNat bs / 2) ∧
  shiftL [] = [] ∧ shiftR [] = []

/-- R129: shifting left then right restores the row but for pixel 0, right then left but for the last pixel. -/
def Obligations.ShiftRoundTripClearsOneEdge : Prop :=
  ∀ bs : Row, 1 ≤ bs.length →
    (shiftR (shiftL bs)).length = bs.length ∧ (shiftL (shiftR bs)).length = bs.length ∧
    ∀ p < 8 * bs.length,
      pix (shiftR (shiftL bs)) p = (if p = 0 then false else pix bs p) ∧
      pix (shiftL (shiftR bs)) p = (if p = 8 * bs.length - 1 then false else pix bs p)

/-! ## NOP, SHL, SHR -/

/-- R110: `NOP` completes without error in `VALIDATE`, whatever the registers hold; from reset `STATUS` then reads `0x00000002`. -/
def Obligations.NopCompletes : Prop :=
  encode .nop = 0x00000000#32 ∧
  (∀ s : State, s.engState = .validate →
    exec .nop s = .next { s with status := { s.status with done := true }, engState := .idle }) ∧
  (∃ t : State, step (hostTransaction (.regWrite 0x0C#8 32 0#32) State.reset) = .next t ∧
    Reg.read t .status = 0x00000002#32)

/-- The `VALIDATE` micro-step of `SHL` and `SHR` (R104, R101): the two checks in order, the empty row, and the way to `SHIFT`. -/
def Obligations.ShiftValidateOutcomes : Prop :=
  ∀ (i : Instr) (s : State), i = .shl ∨ i = .shr → s.engState = .validate →
    (s.shiftLen > s.cfg.maxStride → exec i s = .next { s with
      status := { s.status with done := true, err := true, errCode := .capacity }, engState := .idle }) ∧
    (s.shiftLen ≤ s.cfg.maxStride →
      s.shiftSrc + s.shiftLen > s.cfg.imemBytes ∨ s.shiftDst + s.shiftLen > s.cfg.imemBytes →
      exec i s = .next { s with
        status := { s.status with done := true, err := true, errCode := .range }, engState := .idle }) ∧
    (s.shiftLen ≤ s.cfg.maxStride → s.shiftSrc + s.shiftLen ≤ s.cfg.imemBytes →
      s.shiftDst + s.shiftLen ≤ s.cfg.imemBytes → s.shiftLen = 0 →
      exec i s = .next { s with status := { s.status with done := true }, engState := .idle }) ∧
    (s.shiftLen ≤ s.cfg.maxStride → s.shiftSrc + s.shiftLen ≤ s.cfg.imemBytes →
      s.shiftDst + s.shiftLen ≤ s.cfg.imemBytes → 0 < s.shiftLen →
      exec i s = .next { s with engState := .shift })

/-- The `SHIFT` micro-step (R126, R127) and R128: the destination receives the shift of the source bytes as they stood when the
micro-step began, whatever the overlap; `NBC_BUF[1]` gets the source and `NBC_BUF[0]` or `NBC_BUF[2]` the result (R146); no other
byte, register or buffer changes. A source byte that nothing has written is a free value (assumption 4). -/
def Obligations.ShiftStepWritesShiftedSource : Prop :=
  ∀ (i : Instr) (f : Row → Row) (k : Fin 9) (s : State),
    (i = .shl ∧ f = shiftL ∧ k = 0) ∨ (i = .shr ∧ f = shiftR ∧ k = 2) → s.engState = .shift →
    s.shiftSrc + s.shiftLen ≤ s.cfg.imemBytes → s.shiftDst + s.shiftLen ≤ s.cfg.imemBytes →
    s.shiftLen ≤ s.cfg.maxStride →
    ∃ (t : State) (src : Row), exec i s = .next t ∧ src.length = s.shiftLen ∧
      (∀ n < s.shiftLen, ∀ b : Byte, s.imem.get? (s.shiftSrc + n) = some b → src.getD n 0 = b) ∧
      (∀ n < s.shiftLen, t.imem.get? (s.shiftDst + n) = some ((f src).getD n 0)) ∧
      (∀ a : Nat, a < s.shiftDst ∨ s.shiftDst + s.shiftLen ≤ a → t.imem.get? a = s.imem.get? a) ∧
      (t.cache.buf 1).take s.shiftLen = src ∧ (t.cache.buf k).take s.shiftLen = f src ∧
      (∀ j : Fin 9, (t.cache.buf j).drop s.shiftLen = (s.cache.buf j).drop s.shiftLen) ∧
      (∀ j : Fin 9, j ≠ 1 → j ≠ k → t.cache.buf j = s.cache.buf j) ∧ t.cache.top = s.cache.top ∧
      t = { s with
        imem := t.imem, cache := t.cache, draws := t.draws
        status := { s.status with done := true }, engState := .idle }

/-- A whole `SHL` or `SHR` command of a written source row (R126, R127, R121, R122): after its two micro-steps the destination's
pixels are the source's, one place over, and it has completed without error. -/
def Obligations.ShiftCommandMovesPixels : Prop :=
  ∀ s : State, Inv s → s.engState = .validate → s.inputs = [] → validateShift s = .ok → 0 < s.shiftLen →
    s.imem.holds s.shiftSrc s.shiftLen →
    (s.command = .legal .shl → ∃ t : State, run 2 s = .next t ∧
      t.engState = .idle ∧ t.status = { s.status with done := true } ∧ t.imem.holds s.shiftDst s.shiftLen ∧
      ∀ p < 8 * s.shiftLen, pix (t.imem.rowOf s.shiftDst s.shiftLen) p =
        if p + 1 < 8 * s.shiftLen then pix (s.imem.rowOf s.shiftSrc s.shiftLen) (p + 1) else false) ∧
    (s.command = .legal .shr → ∃ t : State, run 2 s = .next t ∧
      t.engState = .idle ∧ t.status = { s.status with done := true } ∧ t.imem.holds s.shiftDst s.shiftLen ∧
      ∀ p < 8 * s.shiftLen, pix (t.imem.rowOf s.shiftDst s.shiftLen) p =
        if 1 ≤ p then pix (s.imem.rowOf s.shiftSrc s.shiftLen) (p - 1) else false)

/-! ## Validation -/

/-- R104: the code of the first failing check, in the rule's order, for every command. -/
def Obligations.ValidationReportsFirstFailingCheck : Prop :=
  ∀ s : State,
    (∀ why, validate (.illegal why) s = .cmd) ∧ validate (.legal .nop) s = .ok ∧
    (∀ i : Instr, i = .shl ∨ i = .shr →
      (validate (.legal i) s = .capacity ↔ s.cfg.maxStride < s.shiftLen) ∧
      (validate (.legal i) s = .range ↔ s.shiftLen ≤ s.cfg.maxStride ∧
        (s.cfg.imemBytes < s.shiftSrc + s.shiftLen ∨ s.cfg.imemBytes < s.shiftDst + s.shiftLen)) ∧
      (validate (.legal i) s = .ok ↔ s.shiftLen ≤ s.cfg.maxStride ∧
        s.shiftSrc + s.shiftLen ≤ s.cfg.imemBytes ∧ s.shiftDst + s.shiftLen ≤ s.cfg.imemBytes)) ∧
    (∀ i : Instr, erodes (.legal i) = true →
      let maskOk := i = .erodem → s.ops.seMask ≠ 0
      let strideOk := s.stride ≠ 0 ∧ s.stride % 8 = 0
      let widthOk := s.ops.imgWidth.toNat ≠ 0 ∧ s.ops.imgWidth.toNat ≤ 8 * s.stride
      let capacityOk := s.stride ≤ s.cfg.maxStride
      let rangeOk := s.ops.imgBase.toNat + s.stride * s.height ≤ s.cfg.imemBytes
      (validate (.legal i) s = .mask ↔ ¬ maskOk) ∧
      (validate (.legal i) s = .stride ↔ maskOk ∧ ¬ strideOk) ∧
      (validate (.legal i) s = .height ↔ maskOk ∧ strideOk ∧ s.height = 0) ∧
      (validate (.legal i) s = .width ↔ maskOk ∧ strideOk ∧ s.height ≠ 0 ∧ ¬ widthOk) ∧
      (validate (.legal i) s = .capacity ↔ maskOk ∧ strideOk ∧ s.height ≠ 0 ∧ widthOk ∧ ¬ capacityOk) ∧
      (validate (.legal i) s = .range ↔ maskOk ∧ strideOk ∧ s.height ≠ 0 ∧ widthOk ∧ capacityOk ∧ ¬ rangeOk) ∧
      (validate (.legal i) s = .ok ↔ maskOk ∧ strideOk ∧ s.height ≠ 0 ∧ widthOk ∧ capacityOk ∧ rangeOk))

/-- R201: a command with a nonzero code completes in `VALIDATE` and changes nothing but `STATUS` and `ENG_STATE`; once a command
has passed validation, no micro-step of it sets an error. -/
def Obligations.FailedValidationIsPrecise : Prop :=
  (∀ (s : State), s.engState = .validate → s.inputs = [] → validate s.command s ≠ .ok →
    step s = .next { s with
      status := { s.status with done := true, err := true, errCode := validate s.command s }
      engState := .idle }) ∧
  (∀ s : State, Inv s → s.busy = true → s.inputs = [] → (s.engState = .validate → validate s.command s = .ok) →
    ∃ t : State, step s = .next t ∧ t.status.err = s.status.err ∧ t.status.errCode = s.status.errCode)

/-- R103: the checks read only the operand registers and the parameters, and a command that fails them changes nothing but
`STATUS` and `ENG_STATE`. -/
def Obligations.ValidationReadsOnlyOperands : Prop :=
  (∀ (c : Decoded) (s s' : State), s'.ops = s.ops → s'.cfg = s.cfg → validate c s' = validate c s) ∧
  (∀ (i : Instr) (s t : State), s.engState = .validate → validate (.legal i) s ≠ .ok → exec i s = .next t →
    t = { s with status := t.status, engState := .idle })

/-- R106: a command's last micro-step sets `DONE`, with a nonzero code also `ERR` and `ERRCODE`, and enters `IDLE`; `complete`
changes nothing else; no other micro-step changes `STATUS`. -/
def Obligations.CompletionIsTheLastAction : Prop :=
  (∀ (code : ErrCode) (s : State), complete code s = { s with
    status := {
      done := true, err := if code = .ok then s.status.err else true, herr := s.status.herr
      errCode := if code = .ok then s.status.errCode else code }
    engState := .idle }) ∧
  (∀ (i : Instr) (s t : State), s.busy = true → exec i s = .next t →
    (t.busy = false → ∃ (code : ErrCode) (u : State), u.status = s.status ∧ u.ops = s.ops ∧ t = complete code u) ∧
    (t.busy = true → t.status = s.status))

/-! ## Erosion -/

/-- The `VALIDATE` micro-step of `ERODE4`, `ERODE8` and `ERODEM` once the checks pass (R101, R166 to R168, R164). -/
def Obligations.PassBeginsWithTheCommandsElement : Prop :=
  ∀ (i : Instr) (m : Mask) (s : State),
    (i = .erode4 ∧ m = 0x0BA#9) ∨ (i = .erode8 ∧ m = 0x1FF#9) ∨ (i = .erodem ∧ m = s.ops.seMask) →
    s.engState = .validate → validate (.legal i) s = .ok →
    (3 ≤ s.height → exec i s = .next { s with passMask := m, engState := .eInit }) ∧
    (s.height < 3 →
      exec i s = .next { s with passMask := m, status := { s.status with done := true }, engState := .idle })

/-- R162 with R142 and R143: `E_INIT` of every erosion command loads image rows 0, 1, 2 into groups 0, 1, 2 in their three
variants, leaves the rest of each buffer, sets `NBC_TOP` to 0 and `ROW_CURSOR` to 1, and writes no IMEM byte. -/
def Obligations.InitLoadsFirstThreeRows : Prop :=
  ∀ (i : Instr) (s : State), erodes (.legal i) = true → s.engState = .eInit → s.rowAddr 3 ≤ s.cfg.imemBytes →
    s.stride ≤ s.cfg.maxStride →
    ∃ (t : State) (row : Fin 3 → Row), exec i s = .next t ∧
      (∀ g, (row g).length = s.stride) ∧
      (∀ g, ∀ n < s.stride, ∀ b : Byte, s.imem.get? (s.rowAddr g.val + n) = some b → (row g).getD n 0 = b) ∧
      (∀ g v : Fin 3, (t.cache.buf (slotIndex g v)).take s.stride = variant (row g) v) ∧
      (∀ k : Fin 9, (t.cache.buf k).drop s.stride = (s.cache.buf k).drop s.stride) ∧
      t.cache.top = 0 ∧
      t = { s with cache := t.cache, draws := t.draws, rowCursor := 1, engState := .eRow }

/-- R163 with R141 and R144: `E_ROW` writes row `ROW_CURSOR`, each bit the AND of the active window buffers' bits; before the last
interior row it then loads row `y + 2` into the oldest group and moves the window. No other IMEM byte changes. -/
def Obligations.RowStepWritesAndOfActiveBuffers : Prop :=
  ∀ (i : Instr) (s : State), erodes (.legal i) = true → s.engState = .eRow → s.rowCursor.toNat + 2 ≤ s.height →
    s.rowAddr s.height ≤ s.cfg.imemBytes → s.stride ≤ s.cfg.maxStride →
    (∀ k : Fin 9, (s.cache.buf k).length = s.cfg.maxStride) →
    ∃ t : State, exec i s = .next t ∧
      (∀ n < s.stride, ∃ out : Byte, t.imem.get? (s.rowAddr s.rowCursor.toNat + n) = some out ∧
        ∀ j < 8, (out.getLsbD j = true ↔
          ∀ r c : Fin 3, s.passMask.getLsbD (3 * r.val + c.val) = true →
            ((s.cache.buf ⟨3 * ((s.cache.top.val + r.val) % 3) + c.val, by omega⟩).getD n 0).getLsbD j = true)) ∧
      (∀ a : Nat, a < s.rowAddr s.rowCursor.toNat ∨ s.rowAddr s.rowCursor.toNat + s.stride ≤ a →
        t.imem.get? a = s.imem.get? a) ∧
      (s.rowCursor.toNat + 2 < s.height →
        (∃ row : Row, row.length = s.stride ∧
          (∀ n < s.stride, ∀ b : Byte,
            t.imem.get? (s.rowAddr (s.rowCursor.toNat + 2) + n) = some b → row.getD n 0 = b) ∧
          (∀ v : Fin 3, (t.cache.buf (slotIndex s.cache.top v)).take s.stride = variant row v)) ∧
        (∀ k : Fin 9, (t.cache.buf k).drop s.stride = (s.cache.buf k).drop s.stride) ∧
        (∀ g v : Fin 3, g ≠ s.cache.top → t.cache.buf (slotIndex g v) = s.cache.buf (slotIndex g v)) ∧
        t.cache.top.val = (s.cache.top.val + 1) % 3 ∧
        t = { s with imem := t.imem, cache := t.cache, draws := t.draws, rowCursor := s.rowCursor + 1 }) ∧
      (s.rowCursor.toNat + 2 = s.height → i ≠ .erodeIso →
        t = { s with imem := t.imem, status := { s.status with done := true }, engState := .idle }) ∧
      (s.rowCursor.toNat + 2 = s.height → i = .erodeIso →
        t = { s with imem := t.imem, iso := { s.iso with index := s.iso.index + 1 }, engState := .iSelect })

/-- R165: which input pixel each position of the element reads. Column `c` reads pixel `x + 1 - c`, background outside the row. -/
def Obligations.ElementPositionGeometry : Prop :=
  ∀ (m : Mask) (rows : Fin 3 → Row) (len : Nat), (∀ r, (rows r).length = len) → ∀ x < 8 * len,
    (pix (erodeRow m (rows 0) (rows 1) (rows 2)) x = true ↔
      ∀ r c : Fin 3, m.getLsbD (3 * r.val + c.val) = true →
        c.val ≤ x + 1 ∧ x + 1 - c.val < 8 * len ∧ pix (rows r) (x + 1 - c.val) = true)

/-- R169: the micro-steps of a whole `ERODE4`, `ERODE8` or `ERODEM` leave in the image the `ErodePass` (R160) of the rows as they
stood when the command began; every byte outside the interior rows is unchanged. A byte that nothing has written stands in `orig`
as the free value its one read drew (assumption 4). -/
def Obligations.ErodeCommandLeavesErodePass : Prop :=
  ∀ (i : Instr) (s : State), i = .erode4 ∨ i = .erode8 ∨ i = .erodem → Inv s → s.engState = .validate →
    s.command = .legal i → validate s.command s = .ok → 3 ≤ s.height → s.inputs = [] →
    ∃ (t : State) (orig : List Row), run s.height s = .next t ∧
      orig.length = s.height ∧ (∀ y < s.height, (orig.getD y []).length = s.stride) ∧
      (∀ y < s.height, ∀ n < s.stride, ∀ b : Byte,
        s.imem.get? (s.rowAddr y + n) = some b → (orig.getD y []).getD n 0 = b) ∧
      (∀ y : Nat, 1 ≤ y → y + 1 < s.height → ∀ n < s.stride,
        t.imem.get? (s.rowAddr y + n) = some (((erodePass (expectedMask s) orig).getD y []).getD n 0)) ∧
      (∀ a : Nat, a < s.rowAddr 1 ∨ s.rowAddr (s.height - 1) ≤ a → t.imem.get? a = s.imem.get? a) ∧
      t.engState = .idle ∧ t.status = { s.status with done := true } ∧
      t.rowCursor.toNat = s.height - 2 ∧ t.ops = s.ops ∧ t.iso = s.iso

/-- R145: whenever an `E_ROW` for row `y` begins, window row `lr` in variant `v` is variant `v` of row `y - 1 + lr` of the image as
it was when the pass began. A byte that nothing has written stands in `orig` as the free value its one read drew (assumption 4). -/
def Obligations.WindowHoldsOriginalRows : Prop :=
  ∀ s : State, Inv s → s.engState = .eInit → s.inputs = [] →
    ∃ orig : List Row, orig.length = s.height ∧ (∀ y < s.height, (orig.getD y []).length = s.stride) ∧
      (∀ y < s.height, ∀ n < s.stride, ∀ b : Byte,
        s.imem.get? (s.rowAddr y + n) = some b → (orig.getD y []).getD n 0 = b) ∧
      ∀ y : Nat, 1 ≤ y → y + 2 ≤ s.height →
        ∃ t : State, run y s = .next t ∧ t.engState = .eRow ∧ t.rowCursor.toNat = y ∧
          ∀ lr v : Fin 3, t.windowBuf lr v = variant (orig.getD (y - 1 + lr.val) []) v

/-- R170, on the rows of an image: shrinkage with kept edge rows, the order of the two elements, the all-background fixed point
for any element and any number of passes, and padding that stays 0. -/
def Obligations.PassShrinksAndOrdersElements : Prop :=
  ∀ (rows : List Row) (len : Nat), (∀ row ∈ rows, row.length = len) →
    (∀ m : Mask, m.getLsbD 4 = true →
      (∀ y < rows.length, ∀ x < 8 * len,
        pix ((erodePass m rows).getD y []) x = true → pix (rows.getD y []) x = true) ∧
      (erodePass m rows).getD 0 [] = rows.getD 0 [] ∧
      (erodePass m rows).getD (rows.length - 1) [] = rows.getD (rows.length - 1) [] ∧
      (∀ y < rows.length, ∀ x < 8 * len,
        pix (rows.getD y []) x = false → pix ((erodePass m rows).getD y []) x = false)) ∧
    (∀ y < rows.length, ∀ x < 8 * len,
      pix ((erodePass mask8 rows).getD y []) x = true → pix ((erodePass mask4 rows).getD y []) x = true) ∧
    (∀ m : Mask, m ≠ 0 → (∀ row ∈ rows, row = List.replicate len 0) →
      erodePass m rows = rows ∧ ∀ n : Nat, isoImage n rows = rows)

/-- R171: one pass of either built-in element over an all-foreground image with padding 0 clears columns 0 and `W - 1` of the
interior rows and nothing else; where padding pixel `W` is 1 in the rows the element reads there, column `W - 1` stays. -/
def Obligations.EdgeErosionOfFullImage : Prop :=
  ∀ (rows : List Row) (len width : Nat) (m : Mask), m = mask4 ∨ m = mask8 →
    (∀ row ∈ rows, row.length = len) → 3 ≤ width → width ≤ 8 * len → 3 ≤ rows.length →
    (∀ row ∈ rows, ∀ x < width, pix row x = true) →
    ((∀ row ∈ rows, ∀ x, width ≤ x → x < 8 * len → pix row x = false) →
      (∀ y, 1 ≤ y → y + 1 < rows.length → ∀ x < 8 * len,
        (pix ((erodePass m rows).getD y []) x = true ↔ 1 ≤ x ∧ x + 2 ≤ width)) ∧
      (∀ y, y = 0 ∨ y + 1 = rows.length → ∀ x < width, pix ((erodePass m rows).getD y []) x = true)) ∧
    (width < 8 * len → ∀ y, 1 ≤ y → y + 1 < rows.length →
      pix (rows.getD y []) width = true →
      (m = mask8 → pix (rows.getD (y - 1) []) width = true ∧ pix (rows.getD (y + 1) []) width = true) →
      pix ((erodePass m rows).getD y []) (width - 1) = true)

/-- R168's corner case: `ERODEM` with `0x0BA` or `0x1FF` in `SE_MASK` is exactly `ERODE4` or `ERODE8`, micro-step by micro-step. -/
def Obligations.ErodemWithBuiltInMasks : Prop :=
  ∀ s : State, (s.ops.seMask = 0x0BA#9 → exec .erodem s = exec .erode4 s) ∧
    (s.ops.seMask = 0x1FF#9 → exec .erodem s = exec .erode8 s)

/-! ## The isotropic stepper -/

/-- The `VALIDATE` row of `ERODE_ISO` (R101), the `I_SELECT` micro-step (R183), and that the pass does not read `ISO_*`: with any
other values there, its micro-steps differ in nothing else. -/
def Obligations.SelectChoosesTheElement : Prop :=
  (∀ s : State, s.engState = .validate → validateImage s = .ok →
    exec .erodeIso s = .next { s with iso := { index := 0, diag := 0, seq := 0 }, engState := .iSelect }) ∧
  (∀ s : State, s.engState = .iSelect →
    (s.iso.index = s.ops.isoSteps →
      exec .erodeIso s = .next { s with status := { s.status with done := true }, engState := .idle }) ∧
    (s.iso.index ≠ s.ops.isoSteps → ∃ t : State, exec .erodeIso s = .next t ∧
      t.iso.seq.toNat =
        (s.iso.seq.toNat * 2 + if s.iso.diag.toNat + 2 ≤ s.iso.index.toNat then 1 else 0) % 2 ^ 32 ∧
      (s.iso.diag.toNat + 2 ≤ s.iso.index.toNat →
        t.iso.diag.toNat = s.iso.diag.toNat + 2 ∧ t.passMask = 0x1FF#9) ∧
      (s.iso.index.toNat < s.iso.diag.toNat + 2 → t.iso.diag = s.iso.diag ∧ t.passMask = 0x0BA#9) ∧
      (s.height < 3 → t.iso.index = s.iso.index + 1 ∧ t.engState = .iSelect) ∧
      (3 ≤ s.height → t.iso.index = s.iso.index ∧ t.engState = .eInit) ∧
      t = { s with iso := t.iso, passMask := t.passMask, engState := t.engState })) ∧
  (∀ (s t : State) (p : Stepper), s.engState = .eInit ∨ s.engState = .eRow → exec .erodeIso s = .next t →
    ∃ q : Stepper, exec .erodeIso { s with iso := p } = .next { t with iso := q })

/-- R182 with R184: the model's choice is the source's greedy comparison on exact integers. -/
def Obligations.ChoiceIsTheGreedyComparison : Prop :=
  ∀ p : Stepper, sel8 p = true ↔
    |(p.diag.toNat : Int) + 2 - (p.index.toNat : Int)| < |(p.diag.toNat : Int) - (p.index.toNat : Int)|

/-- R185: in every state that meets the invariant, the choice at `I_SELECT` for step `i` is 8-connected exactly when `i >= 2` and
`i` is even, and `ISO_DIAG` is `2 * floor((i-1)/2)` before it (0 for `i = 0`); the number of 8-connected steps among the first `n`
is `floor((n-1)/2)`; bit `k` of `ISO_SEQ` is the choice of step `n - 1 - k`; `ISO_DIAG` never exceeds `2^32 - 2`. -/
def Obligations.ScheduleClosedForm : Prop :=
  (∀ s : State, Inv s → s.engState = .iSelect →
    (sel8 s.iso = true ↔ 2 ≤ s.iso.index.toNat ∧ s.iso.index.toNat % 2 = 0) ∧
    s.iso.diag.toNat = 2 * ((s.iso.index.toNat - 1) / 2) ∧
    (∀ k < 32, s.iso.seq.getLsbD k = (decide (k < s.iso.index.toNat) && choice8 (s.iso.index.toNat - 1 - k)))) ∧
  (∀ n : Nat, 1 ≤ n → ((List.range n).filter choice8).length = (n - 1) / 2) ∧
  (∀ s : State, Inv s → s.iso.diag.toNat ≤ 2 ^ 32 - 2)

/-- A whole `ERODE_ISO` of a written image (R180): after the micro-steps of R102 the image is the result of `ISO_STEPS` passes of
the schedule, every byte outside the interior rows is unchanged, and the stepper's registers have the values of R185. -/
def Obligations.ErodeIsoRunsTheSchedule : Prop :=
  ∀ s : State, Inv s → s.engState = .validate → s.command = .legal .erodeIso → validateImage s = .ok →
    s.inputs = [] → s.imageWritten →
    ∃ t : State, run (microSteps s) s = .next t ∧
      t.engState = .idle ∧ t.status = { s.status with done := true } ∧ t.ops = s.ops ∧
      t.imageWritten ∧ t.image = isoImage s.ops.isoSteps.toNat s.image ∧
      (∀ a : Nat, a < s.rowAddr 1 ∨ s.rowAddr (s.height - 1) ≤ a → t.imem.get? a = s.imem.get? a) ∧
      t.iso.index = s.ops.isoSteps ∧ t.iso.diag.toNat = 2 * ((s.ops.isoSteps.toNat - 1) / 2) ∧
      t.iso.seq = isoSeqAt s.ops.isoSteps.toNat

/-- R187: with `ISO_STEPS = 0` the command completes at its first `I_SELECT` and IMEM is untouched; an all-zero image stays
all-zero for every number of steps. -/
def Obligations.ZeroStepsAndZeroImage : Prop :=
  (∀ s : State, s.engState = .validate → s.command = .legal .erodeIso → validateImage s = .ok → s.inputs = [] →
    s.ops.isoSteps = 0 →
    run 2 s = .next { s with
      iso := { index := 0, diag := 0, seq := 0 }, status := { s.status with done := true }, engState := .idle }) ∧
  (∀ s : State, Inv s → s.engState = .validate → s.command = .legal .erodeIso → validateImage s = .ok → s.inputs = [] →
    s.imageWritten → (∀ row ∈ s.image, row = List.replicate s.stride 0) →
    ∃ t : State, run (microSteps s) s = .next t ∧ t.engState = .idle ∧ t.imageWritten ∧ t.image = s.image)

/-- R186: for seven steps the elements are 4, 4, 8, 4, 8, 4, 8, on every image that passes validation: `ISO_SEQ` ends as
`0b0010101`, `ISO_DIAG` as 6 and `ISO_INDEX` as 7. -/
def Obligations.SevenStepsGiveTheLiteralSequence : Prop :=
  (List.range 7).map isoMask = [mask4, mask4, mask8, mask4, mask8, mask4, mask8] ∧
  ∀ s : State, Inv s → s.engState = .validate → s.command = .legal .erodeIso → validateImage s = .ok →
    s.inputs = [] → s.ops.isoSteps = 7 →
    ∃ t : State, run (microSteps s) s = .next t ∧ t.engState = .idle ∧
      t.iso = { index := 7, diag := 6, seq := 0x15#32 }

/-! ## Reset -/

/-- R231 on the power-up state: what every register reads, `ENG_STATE`, `NBC_TOP`, `IRQ`, and that no IMEM byte holds a value.
`CFG_MAXSTRIDE` and `CFG_IMEMBYTES` read the parameters, whose values here are the model's own choice (assumption 1). -/
def Obligations.PowerUpState : Prop :=
  (∀ r : Reg, r ≠ .id → r ≠ .cfgMaxstride → r ≠ .cfgImembytes → Reg.read State.reset r = 0) ∧
  Reg.read State.reset .id = 0x4D4F5250#32 ∧
  Reg.read State.reset .cfgMaxstride = BitVec.ofNat 32 State.reset.cfg.maxStride ∧
  Reg.read State.reset .cfgImembytes = BitVec.ofNat 32 State.reset.cfg.imemBytes ∧
  State.reset.engState = .idle ∧ State.reset.cache.top = 0 ∧
  State.reset.irq = false ∧ (∀ a : Nat, State.reset.imem.get? a = none) ∧ State.reset.cfg.wellFormed

/-- R230 to R232: the reset input puts every register at its reset value and the engine in `IDLE`, whatever runs. Each byte that
the abandoned command could write holds no value afterwards (what a read of one gives is UnwrittenBytesAreDrawnAtEveryRead); every
other byte is as before. That such a byte is as an unwritten one, and that a command that fails validation could
write none, is the model's reading (assumption 5). -/
def Obligations.ResetInputAbandonsTheCommand : Prop :=
  ∀ (s : State) (rest : List Event), s.inputs = .reset :: rest → ∃ t : State, step s = .next t ∧
    (∀ r : Reg, r ≠ .cfgMaxstride → r ≠ .cfgImembytes → Reg.read t r = Reg.read State.reset r) ∧
    Reg.read t .cfgMaxstride = BitVec.ofNat 32 s.cfg.maxStride ∧ Reg.read t .cfgImembytes = BitVec.ofNat 32 s.cfg.imemBytes ∧
    t.cfg = s.cfg ∧ t.engState = .idle ∧ t.cache.top = 0 ∧ t.irq = false ∧ t.inputs = rest ∧
    (s.busy = false → t.imem = s.imem) ∧
    (∀ a : Nat,
      let couldWrite := s.busy = true ∧ validate s.command s = .ok ∧
        ((s.command = .legal .shl ∨ s.command = .legal .shr) ∧ s.shiftDst ≤ a ∧ a < s.shiftDst + s.shiftLen ∨
          erodes s.command = true ∧ s.rowAddr 1 ≤ a ∧ a < s.rowAddr (s.height - 1))
      (couldWrite → t.imem.get? a = none) ∧ (¬ couldWrite → t.imem.get? a = s.imem.get? a))

/-! ## What the whole machine keeps -/

/-- R68 and R161: a micro-step changes no IMEM byte but the destination of a `SHIFT` and the interior row of an `E_ROW`. -/
def Obligations.EngineWritesOnlyItsDestination : Prop :=
  ∀ (i : Instr) (s t : State), (∀ k : Fin 9, (s.cache.buf k).length = s.cfg.maxStride) → exec i s = .next t →
    ∀ a : Nat, ¬ engineWrites s a → t.imem.get? a = s.imem.get? a

/-- The frame of every command's micro-steps (R35 to R38, R43, R103, R106): none changes a parameter, `CTRL`, `CMD`, `HERR` or an
operand register; `NOP`, `SHL` and `SHR` change no `ISO_*`, `ROW_CURSOR`, `PASS_MASK` or `NBC_TOP`; `ERODE4`, `ERODE8` and `ERODEM`
change no `ISO_*`. -/
def Obligations.CommandFrames : Prop :=
  ∀ (i : Instr) (s t : State), Inv s → s.command = .legal i → exec i s = .next t →
    (t.cfg = s.cfg ∧ t.ctrl = s.ctrl ∧ t.cmd = s.cmd ∧ t.ops = s.ops ∧ t.status.herr = s.status.herr ∧
      t.rdata = s.rdata ∧ t.inputs = s.inputs) ∧
    (i ≠ .erodeIso → t.iso = s.iso) ∧
    (i = .nop ∨ i = .shl ∨ i = .shr →
      t.rowCursor = s.rowCursor ∧ t.passMask = s.passMask ∧ t.cache.top = s.cache.top) ∧
    (i = .nop → t.imem = s.imem ∧ t.cache = s.cache)

/-- The invariants hold after power-up. They rest on the reset values the model chose (assumptions 1 to 3). -/
def Obligations.PowerUpMeetsInvariants : Prop := Inv State.reset ∧ Window State.reset

/-- Every step, whichever agent takes it, keeps the invariant: parameters within R8, IMEM canonical and within `IMEM_BYTES`,
buffers of `MAX_STRIDE` bytes, status and error code in step, and the engine's state fitting its command (R101, R104, R185). -/
def Obligations.EveryStepKeepsTheInvariant : Prop := ∀ s t : State, Inv s → step s = .next t → Inv t

/-- Every step keeps the window (R145, R148): the cache holds each of its rows in three variants, and the rows the pass has not
written yet as IMEM holds them. -/
def Obligations.EveryStepKeepsTheWindow : Prop :=
  ∀ s t : State, Inv s → Window s → step s = .next t → Window t

/-- R15: nothing hangs or traps. From every state that meets the invariant, every step answers a next state. -/
def Obligations.NothingHangsOrTraps : Prop := ∀ s : State, Inv s → ∃ t : State, step s = .next t

/-- R102: from acceptance a command reaches `IDLE` after exactly the number of micro-steps the rule gives, and not before. -/
def Obligations.CommandsEndAfterTheirMicroSteps : Prop :=
  ∀ s : State, Inv s → s.engState = .validate → s.inputs = [] →
    (∃ t : State, run (microSteps s) s = .next t ∧ t.engState = .idle) ∧
    (∀ j < microSteps s, ∃ u : State, run j s = .next u ∧ u.busy = true)

/-- R107: whatever the host does while a command runs, the command's states are those it has when the engine runs alone: a run
with any pending host transactions shows the engine what a run without them shows it after some number of micro-steps. -/
def Obligations.ResultIndependentOfInterleaving : Prop :=
  ∀ (s t : State) (k : Nat), Inv s → Event.reset ∉ s.inputs →
    (∀ j < k, ∃ u : State, run j s = .next u ∧ u.busy = true) → run k s = .next t →
    ∃ (j : Nat) (t' : State), j ≤ k ∧ run j { s with inputs := [] } = .next t' ∧ t'.engineView = t.engineView

/-- R45 and R46: `PASS_MASK` and `NBC_BUF`, whose reset contents are unspecified, are never read before they are written: from an
idle state, replacing them by any contents changes nothing else of any later state (assumptions 2 and 3 are harmless). -/
def Obligations.UnspecifiedContentsAreInvisible : Prop :=
  ∀ (s t : State) (m : Mask) (bufs : Vector Row 9) (k : Nat), s.engState = .idle → run k s = .next t →
    ∃ t' : State, run k { s with passMask := m, cache := { s.cache with bufs := bufs } } = .next t' ∧
      t' = { t with passMask := t'.passMask, cache := { t.cache with bufs := t'.cache.bufs } }

/-- R234: a read of a byte that holds no value gives the host and the engine a free value, another one at the next read: the number
of free values drawn counts up, and the byte still holds no value. That the value is drawn per read, and the form of the draw, is
the model's choice (assumption 4). -/
def Obligations.UnwrittenBytesAreDrawnAtEveryRead : Prop :=
  (∀ (s : State) (a : Nat), s.busy = false → a < s.cfg.imemBytes → s.imem.get? a = none →
    hostTransaction (.imemRead a) s =
      { s with rdata := (Config.freeByte s.draws).setWidth 32, draws := s.draws + 1 }) ∧
  (∀ (s : State) (a n k : Nat), k < n → s.imem.get? (a + k) = none →
    (memRead s a n).getD k 0 = Config.freeByte (s.draws + k)) ∧
  (∀ (g : Fin 3) (y : Nat) (s : State),
    (loadGroup g y s).draws = s.draws + s.stride ∧ (loadGroup g y s).imem = s.imem) ∧
  (∀ (f : Row → Row) (k : Fin 9) (s t : State), shiftRow f k s = .next t → t.draws = s.draws + s.shiftLen)
end

