-- ==== Sys2Proof/Laws/Memory.lean ====
section
/-! SUPPORT. IMEM: a read after a write, what a write leaves alone, and that every memory operation keeps the canonical form. -/

namespace Sys2Proof.Machine

/-! ## One byte -/

@[simp] theorem Memory.get?_set_self (m : Memory) (a : Nat) (v : Byte) : (m.set a v).get? a = some v := by
  induction m with
  | nil => simp [Memory.set, Memory.get?]
  | cons c m ih =>
    obtain ⟨k, b⟩ := c
    simp only [Memory.set]
    split
    · simp [Memory.get?]
    · split
      · simp [Memory.get?]
      · rename_i h; simp [Memory.get?, Ne.symm h, ih]

theorem Memory.get?_set_ne (m : Memory) {a a' : Nat} (v : Byte) (h : a' ≠ a) : (m.set a v).get? a' = m.get? a' := by
  induction m with
  | nil => simp [Memory.set, Memory.get?, h.symm]
  | cons c m ih =>
    obtain ⟨k, b⟩ := c
    simp only [Memory.set]
    split
    · simp [Memory.get?, h.symm]
    · split
      · rename_i hk; subst hk; simp [Memory.get?, h.symm]
      · simp only [Memory.get?]; split <;> simp_all

/-- A store lists no address that was not listed, but the stored one. -/
theorem Memory.mem_set {m : Memory} {a : Nat} {v : Byte} {c : Host.Cell} (h : c ∈ m.set a v) : c = (a, v) ∨ c ∈ m := by
  induction m with
  | nil => simpa [Memory.set] using h
  | cons d m ih =>
    obtain ⟨k, b⟩ := d
    simp only [Memory.set] at h
    split at h
    · simpa using h
    · split at h
      · rw [List.mem_cons] at h; exact h.imp id (List.mem_cons_of_mem _)
      · rcases List.mem_cons.1 h with rfl | h
        · exact .inr (List.mem_cons_self)
        · exact (ih h).imp id (List.mem_cons_of_mem _)

/-- A store keeps the canonical form. -/
theorem Memory.set_wf {m : Memory} (hm : m.wf) (a : Nat) (v : Byte) : (m.set a v).wf := by
  induction m with
  | nil => simp [Memory.set, Memory.wf]
  | cons c m ih =>
    obtain ⟨k, b⟩ := c
    have ⟨hk, hm'⟩ := List.pairwise_cons.1 hm
    simp only [Memory.set]
    split
    · rename_i hlt
      refine List.pairwise_cons.2 ⟨fun d hd => ?_, hm⟩
      rcases List.mem_cons.1 hd with rfl | hd
      · exact hlt
      · exact Nat.lt_trans hlt (hk d hd)
    · split
      · rename_i _ heq; subst heq
        exact List.pairwise_cons.2 ⟨hk, hm'⟩
      · rename_i hlt hne
        refine List.pairwise_cons.2 ⟨fun d hd => ?_, ih hm'⟩
        rcases Memory.mem_set hd with rfl | hd
        · show k < a
          omega
        · exact hk d hd

/-- IMEM after power-up is in canonical form: it lists nothing (R231). -/
theorem reset_imem_wf : State.reset.imem.wf := by decide

/-! ## A row of bytes -/

@[simp] theorem Memory.writeRow_nil (m : Memory) (a : Nat) : m.writeRow a [] = m := rfl

theorem Memory.get?_writeRow (m : Memory) (a : Nat) (bs : Row) (x : Nat) :
    (m.writeRow a bs).get? x = if a ≤ x ∧ x < a + bs.length then some (bs.getD (x - a) 0) else m.get? x := by
  induction bs generalizing m a with
  | nil => simp
  | cons b bs ih =>
    rw [Memory.writeRow, ih]
    by_cases h1 : x = a
    · subst h1; simp
    · rw [Memory.get?_set_ne _ _ h1]
      by_cases h2 : a + 1 ≤ x ∧ x < a + 1 + bs.length
      · have h3 : a ≤ x ∧ x < a + (b :: bs).length := by simp; omega
        rw [if_pos h2, if_pos h3]
        have h4 : x - a = (x - (a + 1)) + 1 := by omega
        rw [h4]; simp
      · have h3 : ¬ (a ≤ x ∧ x < a + (b :: bs).length) := by simp; omega
        rw [if_neg h2, if_neg h3]

theorem Memory.get?_writeRow_in (m : Memory) (a : Nat) (bs : Row) (k : Nat) (h : k < bs.length) :
    (m.writeRow a bs).get? (a + k) = some (bs.getD k 0) := by
  rw [Memory.get?_writeRow, if_pos (by omega)]; simp

theorem Memory.get?_writeRow_out (m : Memory) (a : Nat) (bs : Row) (x : Nat) (h : x < a ∨ a + bs.length ≤ x) :
    (m.writeRow a bs).get? x = m.get? x := by
  rw [Memory.get?_writeRow, if_neg (by omega)]

/-- A row write keeps the canonical form. -/
theorem Memory.writeRow_wf {m : Memory} (hm : m.wf) (a : Nat) (bs : Row) : (m.writeRow a bs).wf := by
  induction bs generalizing m a with
  | nil => exact hm
  | cons b bs ih => exact ih (Memory.set_wf hm a b) (a + 1)

/-- A row write within `IMEM_BYTES` keeps IMEM within `IMEM_BYTES`. -/
theorem Memory.writeRow_inRange {m : Memory} {a n : Nat} {bs : Row} (hm : ∀ c ∈ m, c.1 < n) (h : a + bs.length ≤ n) :
    ∀ c ∈ m.writeRow a bs, c.1 < n := by
  induction bs generalizing m a with
  | nil => exact hm
  | cons b bs ih =>
    simp only [List.length_cons] at h
    refine ih (m := m.set a b) (fun c hc => ?_) (by omega)
    rcases Memory.mem_set hc with rfl | hc
    · show a < n
      omega
    · exact hm c hc

/-- A row write lists no address that was not listed, but those of the row. -/
theorem Memory.mem_writeRow {m : Memory} {a : Nat} {bs : Row} {c : Host.Cell} (h : c ∈ m.writeRow a bs) :
    (a ≤ c.1 ∧ c.1 < a + bs.length) ∨ c ∈ m := by
  induction bs generalizing m a with
  | nil => exact .inr h
  | cons b bs ih =>
    rcases ih h with h | h
    · left; simp; omega
    · rcases Memory.mem_set h with rfl | h
      · left; simp
      · exact .inr h

/-! ## Bytes that lose their value -/

theorem Memory.get?_erase (m : Memory) (a n x : Nat) :
    (m.erase a n).get? x = if a ≤ x ∧ x < a + n then none else m.get? x := by
  induction m with
  | nil => simp [Memory.erase, Memory.get?]
  | cons c m ih =>
    obtain ⟨k, b⟩ := c
    rw [Memory.erase, List.filter_cons]
    split
    · rename_i hk
      simp only [Memory.get?]
      rw [← Memory.erase, ih]
      by_cases hx : k = x
      · subst hx
        have : ¬ (a ≤ k ∧ k < a + n) := by simp at hk; omega
        rw [if_pos rfl, if_neg this, if_pos rfl]
      · rw [if_neg hx, if_neg hx]
    · rename_i hk
      rw [← Memory.erase, ih]
      by_cases hx : a ≤ x ∧ x < a + n
      · rw [if_pos hx, if_pos hx]
      · have : k ≠ x := by rintro rfl; simp at hk; omega
        rw [if_neg hx, if_neg hx, Memory.get?, if_neg this]

/-- Bytes that lose their value keep the canonical form. -/
theorem Memory.erase_wf {m : Memory} (hm : m.wf) (a n : Nat) : (m.erase a n).wf := List.Pairwise.filter _ hm

theorem Memory.mem_of_mem_erase {m : Memory} {a n : Nat} {c : Host.Cell} (h : c ∈ m.erase a n) : c ∈ m := List.mem_of_mem_filter h

@[simp] theorem Memory.erase_zero (m : Memory) (a : Nat) : m.erase a 0 = m := by
  refine List.filter_eq_self.2 fun c _ => ?_
  have := Nat.lt_or_ge c.1 a
  simpa using this

/-! ## Reads -/

@[simp] theorem Memory.length_readRow (m : Memory) (d a n : Nat) : (m.readRow d a n).length = n := by
  simp [Memory.readRow]

@[simp] theorem Memory.length_rowOf (m : Memory) (a n : Nat) : (m.rowOf a n).length = n := by simp [Memory.rowOf]

@[simp] theorem length_memRead (s : State) (a n : Nat) : (memRead s a n).length = n := by simp [memRead]

theorem Memory.getD_readRow (m : Memory) (d a n k : Nat) (h : k < n) :
    (m.readRow d a n).getD k 0 = m.readByte (a + k) (d + k) := by
  simp [Memory.readRow, List.getD, h]

theorem Memory.getD_rowOf (m : Memory) (a n k : Nat) (h : k < n) : (m.rowOf a n).getD k 0 = (m.get? (a + k)).getD 0 := by
  simp [Memory.rowOf, List.getD, h]

/-- A read of a byte that holds a value returns it, whatever free byte comes next. -/
theorem Memory.readByte_of_get? {m : Memory} {a : Nat} {b : Byte} (h : m.get? a = some b) (d : Nat) : m.readByte a d = b := by
  simp [Memory.readByte, h]

/-- An engine read of a byte that holds a value returns it. -/
theorem getD_memRead (s : State) (a n k : Nat) (hk : k < n) (b : Byte) (h : s.imem.get? (a + k) = some b) :
    (memRead s a n).getD k 0 = b := by
  rw [memRead, Memory.getD_readRow _ _ _ _ _ hk, Memory.readByte_of_get? h]

/-- A read of a written row does not depend on the free values. -/
theorem Memory.readRow_eq_rowOf {m : Memory} {a n : Nat} (h : m.holds a n) (d : Nat) : m.readRow d a n = m.rowOf a n := by
  refine List.map_congr_left fun k hk => ?_
  obtain ⟨b, hb⟩ := Option.isSome_iff_exists.1 (h k (List.mem_range.1 hk))
  simp [Memory.readByte, hb]

/-- Two memories that agree on a range show the same row there. -/
theorem Memory.rowOf_congr {m m' : Memory} {a n : Nat} (h : ∀ k < n, m.get? (a + k) = m'.get? (a + k)) :
    m.rowOf a n = m'.rowOf a n :=
  List.map_congr_left fun k hk => by rw [h k (List.mem_range.1 hk)]

/-- A range that holds the bytes of a row shows that row. -/
theorem Memory.rowOf_of_get? {m : Memory} {a n : Nat} {r : Row} (hl : r.length = n)
    (h : ∀ k < n, m.get? (a + k) = some (r.getD k 0)) : m.rowOf a n = r := by
  refine List.ext_getElem (by simp [hl]) fun k h1 h2 => ?_
  simp only [Memory.rowOf, List.getElem_map, List.getElem_range]
  rw [h k (by omega), List.getD_eq_getElem _ _ h2]; rfl

/-- The row that a row write leaves at its own place. -/
theorem Memory.rowOf_writeRow (m : Memory) (a : Nat) (bs : Row) : (m.writeRow a bs).rowOf a bs.length = bs := by
  refine List.ext_getElem (by simp) fun k h1 h2 => ?_
  simp only [Memory.rowOf, List.getElem_map, List.getElem_range]
  rw [Memory.get?_writeRow_in _ _ _ _ h2]
  simp [List.getD, h2]

end Sys2Proof.Machine
end

