-- ==== Sys2Proof/Laws/Rows.lean ====
section
/-! SUPPORT. Rows: lengths, the byte form of the shifts (R123), and what the AND over the active buffers says of one bit (R160). -/

namespace Sys2Proof.Machine

/-! ## Row addresses (R62) -/

theorem rowAddr_succ (s : State) (y : Nat) : s.rowAddr (y + 1) = s.rowAddr y + s.stride := by
  unfold State.rowAddr; ring

theorem rowAddr_add (s : State) (y k : Nat) : s.rowAddr (y + k) = s.rowAddr y + k * s.stride := by
  unfold State.rowAddr; ring

theorem rowAddr_mono (s : State) {y z : Nat} (h : y ≤ z) : s.rowAddr y ≤ s.rowAddr z := by
  obtain ⟨k, rfl⟩ := Nat.exists_eq_add_of_le h
  rw [rowAddr_add]; omega

/-! ## Lengths (R120) -/

@[simp] theorem length_shiftL (bs : Row) : (shiftL bs).length = bs.length := by
  induction bs with
  | nil => rfl
  | cons b bs ih => simp [shiftL, ih]

@[simp] theorem length_shiftRFrom (prev : Byte) (bs : Row) : (shiftRFrom prev bs).length = bs.length := by
  induction bs generalizing prev with
  | nil => rfl
  | cons b bs ih => simp [shiftRFrom, ih]

@[simp] theorem length_shiftR (bs : Row) : (shiftR bs).length = bs.length := length_shiftRFrom 0 bs

@[simp] theorem length_variant (bs : Row) (v : Fin 3) : (variant bs v).length = bs.length := by
  unfold variant; split <;> simp

@[simp] theorem length_andRow (a b : Row) : (andRow a b).length = min a.length b.length := by simp [andRow]

@[simp] theorem variant_one (bs : Row) : variant bs 1 = bs := rfl

/-! ## The byte form of the shifts (R123) -/

theorem getD_shiftL (bs : Row) (k : Nat) (h : k < bs.length) :
    (shiftL bs).getD k 0 = (bs.getD k 0 <<< 1) ||| (bs.getD (k + 1) 0 >>> 7) := by
  induction bs generalizing k with
  | nil => simp at h
  | cons b bs ih =>
    cases k with
    | zero => cases bs <;> simp [shiftL]
    | succ k => simpa [shiftL] using ih k (by simpa using h)

theorem getD_shiftRFrom (prev : Byte) (bs : Row) (k : Nat) (h : k < bs.length) :
    (shiftRFrom prev bs).getD k 0 = (bs.getD k 0 >>> 1) ||| (((prev :: bs).getD k 0 &&& 1) <<< 7) := by
  induction bs generalizing k prev with
  | nil => simp at h
  | cons b bs ih =>
    cases k with
    | zero => simp [shiftRFrom]
    | succ k => simpa [shiftRFrom] using ih b k (by simpa using h)

theorem getD_shiftR (bs : Row) (k : Nat) (h : k < bs.length) :
    (shiftR bs).getD k 0 = (bs.getD k 0 >>> 1) ||| (if 1 ≤ k then (bs.getD (k - 1) 0 &&& 1) <<< 7 else 0) := by
  rw [shiftR, getD_shiftRFrom _ _ _ h]
  cases k <;> simp

/-! ## One bit of the AND -/

theorem getD_andRow (a b : Row) (n : Nat) (ha : n < a.length) (hb : n < b.length) :
    (andRow a b).getD n 0 = a.getD n 0 &&& b.getD n 0 := by
  simp [andRow, List.getD, ha, hb]

theorem mem_positions (r c : Fin 3) : (r, c) ∈ positions := by revert r c; decide

/-- The loop of R163 over any list of positions, from any accumulator. -/
theorem foldl_andRow (m : Mask) (len : Nat) (buf : Fin 3 → Fin 3 → Row) (ps : List (Fin 3 × Fin 3)) (acc : Row)
    (hbuf : ∀ r c, (buf r c).length = len) (hacc : acc.length = len) :
    let out := ps.foldl (fun acc p => if maskBit m p.1 p.2 then andRow acc (buf p.1 p.2) else acc) acc
    out.length = len ∧ ∀ n < len, ∀ j, ((out.getD n 0).getLsbD j = true ↔
      (acc.getD n 0).getLsbD j = true ∧
        ∀ p ∈ ps, maskBit m p.1 p.2 = true → ((buf p.1 p.2).getD n 0).getLsbD j = true) := by
  induction ps generalizing acc with
  | nil => exact ⟨hacc, fun n _ j => by simp⟩
  | cons p ps ih =>
    simp only [List.foldl_cons]
    by_cases hp : maskBit m p.1 p.2 = true
    · have hlen : (andRow acc (buf p.1 p.2)).length = len := by simp [hacc, hbuf]
      obtain ⟨h1, h2⟩ := ih _ hlen
      rw [if_pos hp]
      refine ⟨h1, fun n hn j => ?_⟩
      rw [h2 n hn j, getD_andRow _ _ _ (hacc ▸ hn) (hbuf _ _ ▸ hn)]
      simp [hp, and_assoc]
    · obtain ⟨h1, h2⟩ := ih _ hacc
      rw [if_neg hp]
      refine ⟨h1, fun n hn j => ?_⟩
      rw [h2 n hn j]
      simp [hp]

theorem length_andActive (m : Mask) (len : Nat) (buf : Fin 3 → Fin 3 → Row) (hbuf : ∀ r c, (buf r c).length = len) :
    (andActive m len buf).length = len :=
  (foldl_andRow m len buf positions (List.replicate len 0xFF#8) hbuf (by simp)).1

/-- A bit of the AND is set exactly when it is set in the buffer of every active position (R160, R163). -/
theorem getLsbD_andActive (m : Mask) (len : Nat) (buf : Fin 3 → Fin 3 → Row) (hbuf : ∀ r c, (buf r c).length = len)
    (n : Nat) (hn : n < len) (j : Nat) (hj : j < 8) :
    (((andActive m len buf).getD n 0).getLsbD j = true ↔
      ∀ r c : Fin 3, maskBit m r c = true → ((buf r c).getD n 0).getLsbD j = true) := by
  have h := (foldl_andRow m len buf positions (List.replicate len 0xFF#8) hbuf (by simp)).2 n hn j
  rw [andActive, h]
  have h1 : ((List.replicate len 0xFF#8).getD n 0).getLsbD j = true := by
    have h2 : (List.replicate len 0xFF#8).getD n 0 = 0xFF#8 := by simp [List.getD, hn]
    rw [h2]; interval_cases j <;> rfl
  refine ⟨fun ⟨_, h2⟩ r c hm => h2 (r, c) (mem_positions r c) hm, fun h2 => ⟨h1, fun p _ hm => h2 p.1 p.2 hm⟩⟩

/-- The row that `E_ROW` writes is one stride long, where the buffers are no shorter. -/
theorem length_windowRow (s : State) (n : Nat) (hb : ∀ k : Fin 9, (s.cache.buf k).length = n) (h : s.stride ≤ n) :
    (windowRow s).length = s.stride :=
  length_andActive _ _ _ fun r c => by simp [hb, h]

@[simp] theorem length_erodeRow (m : Mask) (above cur below : Row) (ha : above.length = cur.length)
    (hb : below.length = cur.length) : (erodeRow m above cur below).length = cur.length := by
  refine length_andActive m _ _ fun r c => ?_
  rw [length_variant]
  split <;> first | assumption | rfl

/-- The pixel form of the AND (R160): a pixel survives exactly when it is set in every active variant. -/
theorem pix_andActive (m : Mask) (len : Nat) (buf : Fin 3 → Fin 3 → Row) (hbuf : ∀ r c, (buf r c).length = len)
    (x : Nat) (hx : x < 8 * len) :
    (pix (andActive m len buf) x = true ↔ ∀ r c : Fin 3, maskBit m r c = true → pix (buf r c) x = true) :=
  getLsbD_andActive m len buf hbuf (x / 8) (by omega) (7 - x % 8) (by omega)

end Sys2Proof.Machine
end

