-- ==== Sys2Proof/Laws/State.lean ====
section
/-! SUPPORT. What each named update does to each field of the state: one lemma a field, true by unfolding (`nbcInit`'s from `loadGroup`'s). -/

namespace Sys2Proof.Machine

variable (s : State)

/-! ## `hostError` -/

@[simp] theorem hostError_cfg : (hostError s).cfg = s.cfg := rfl
@[simp] theorem hostError_ctrl : (hostError s).ctrl = s.ctrl := rfl
@[simp] theorem hostError_status : (hostError s).status = { s.status with herr := true } := rfl
@[simp] theorem hostError_cmd : (hostError s).cmd = s.cmd := rfl
@[simp] theorem hostError_ops : (hostError s).ops = s.ops := rfl
@[simp] theorem hostError_iso : (hostError s).iso = s.iso := rfl
@[simp] theorem hostError_rowCursor : (hostError s).rowCursor = s.rowCursor := rfl
@[simp] theorem hostError_engState : (hostError s).engState = s.engState := rfl
@[simp] theorem hostError_passMask : (hostError s).passMask = s.passMask := rfl
@[simp] theorem hostError_cache : (hostError s).cache = s.cache := rfl
@[simp] theorem hostError_imem : (hostError s).imem = s.imem := rfl
@[simp] theorem hostError_draws : (hostError s).draws = s.draws := rfl
@[simp] theorem hostError_rdata : (hostError s).rdata = s.rdata := rfl
@[simp] theorem hostError_inputs : (hostError s).inputs = s.inputs := rfl

/-! ## `accept` -/

@[simp] theorem accept_cfg (w : Word) : (accept w s).cfg = s.cfg := rfl
@[simp] theorem accept_ctrl (w : Word) : (accept w s).ctrl = s.ctrl := rfl
@[simp] theorem accept_status (w : Word) : (accept w s).status = s.status.accepted := rfl
@[simp] theorem accept_cmd (w : Word) : (accept w s).cmd = w := rfl
@[simp] theorem accept_ops (w : Word) : (accept w s).ops = s.ops := rfl
@[simp] theorem accept_iso (w : Word) : (accept w s).iso = s.iso := rfl
@[simp] theorem accept_rowCursor (w : Word) : (accept w s).rowCursor = s.rowCursor := rfl
@[simp] theorem accept_engState (w : Word) : (accept w s).engState = .validate := rfl
@[simp] theorem accept_passMask (w : Word) : (accept w s).passMask = s.passMask := rfl
@[simp] theorem accept_cache (w : Word) : (accept w s).cache = s.cache := rfl
@[simp] theorem accept_imem (w : Word) : (accept w s).imem = s.imem := rfl
@[simp] theorem accept_draws (w : Word) : (accept w s).draws = s.draws := rfl
@[simp] theorem accept_rdata (w : Word) : (accept w s).rdata = s.rdata := rfl
@[simp] theorem accept_inputs (w : Word) : (accept w s).inputs = s.inputs := rfl

/-! ## `complete` -/

@[simp] theorem complete_cfg (code : ErrCode) : (complete code s).cfg = s.cfg := rfl
@[simp] theorem complete_ctrl (code : ErrCode) : (complete code s).ctrl = s.ctrl := rfl
@[simp] theorem complete_status (code : ErrCode) : (complete code s).status = s.status.completed code := rfl
@[simp] theorem complete_cmd (code : ErrCode) : (complete code s).cmd = s.cmd := rfl
@[simp] theorem complete_ops (code : ErrCode) : (complete code s).ops = s.ops := rfl
@[simp] theorem complete_iso (code : ErrCode) : (complete code s).iso = s.iso := rfl
@[simp] theorem complete_rowCursor (code : ErrCode) : (complete code s).rowCursor = s.rowCursor := rfl
@[simp] theorem complete_engState (code : ErrCode) : (complete code s).engState = .idle := rfl
@[simp] theorem complete_passMask (code : ErrCode) : (complete code s).passMask = s.passMask := rfl
@[simp] theorem complete_cache (code : ErrCode) : (complete code s).cache = s.cache := rfl
@[simp] theorem complete_imem (code : ErrCode) : (complete code s).imem = s.imem := rfl
@[simp] theorem complete_draws (code : ErrCode) : (complete code s).draws = s.draws := rfl
@[simp] theorem complete_rdata (code : ErrCode) : (complete code s).rdata = s.rdata := rfl
@[simp] theorem complete_inputs (code : ErrCode) : (complete code s).inputs = s.inputs := rfl

/-! ## `drew` -/

@[simp] theorem drew_cfg (n : Nat) : (drew n s).cfg = s.cfg := rfl
@[simp] theorem drew_ctrl (n : Nat) : (drew n s).ctrl = s.ctrl := rfl
@[simp] theorem drew_status (n : Nat) : (drew n s).status = s.status := rfl
@[simp] theorem drew_cmd (n : Nat) : (drew n s).cmd = s.cmd := rfl
@[simp] theorem drew_ops (n : Nat) : (drew n s).ops = s.ops := rfl
@[simp] theorem drew_iso (n : Nat) : (drew n s).iso = s.iso := rfl
@[simp] theorem drew_rowCursor (n : Nat) : (drew n s).rowCursor = s.rowCursor := rfl
@[simp] theorem drew_engState (n : Nat) : (drew n s).engState = s.engState := rfl
@[simp] theorem drew_passMask (n : Nat) : (drew n s).passMask = s.passMask := rfl
@[simp] theorem drew_cache (n : Nat) : (drew n s).cache = s.cache := rfl
@[simp] theorem drew_imem (n : Nat) : (drew n s).imem = s.imem := rfl
@[simp] theorem drew_draws (n : Nat) : (drew n s).draws = s.draws + n := rfl
@[simp] theorem drew_rdata (n : Nat) : (drew n s).rdata = s.rdata := rfl
@[simp] theorem drew_inputs (n : Nat) : (drew n s).inputs = s.inputs := rfl

/-! ## `memWrite` -/

@[simp] theorem memWrite_cfg (a : Nat) (bs : Row) : (memWrite a bs s).cfg = s.cfg := rfl
@[simp] theorem memWrite_ctrl (a : Nat) (bs : Row) : (memWrite a bs s).ctrl = s.ctrl := rfl
@[simp] theorem memWrite_status (a : Nat) (bs : Row) : (memWrite a bs s).status = s.status := rfl
@[simp] theorem memWrite_cmd (a : Nat) (bs : Row) : (memWrite a bs s).cmd = s.cmd := rfl
@[simp] theorem memWrite_ops (a : Nat) (bs : Row) : (memWrite a bs s).ops = s.ops := rfl
@[simp] theorem memWrite_iso (a : Nat) (bs : Row) : (memWrite a bs s).iso = s.iso := rfl
@[simp] theorem memWrite_rowCursor (a : Nat) (bs : Row) : (memWrite a bs s).rowCursor = s.rowCursor := rfl
@[simp] theorem memWrite_engState (a : Nat) (bs : Row) : (memWrite a bs s).engState = s.engState := rfl
@[simp] theorem memWrite_passMask (a : Nat) (bs : Row) : (memWrite a bs s).passMask = s.passMask := rfl
@[simp] theorem memWrite_cache (a : Nat) (bs : Row) : (memWrite a bs s).cache = s.cache := rfl
@[simp] theorem memWrite_imem (a : Nat) (bs : Row) : (memWrite a bs s).imem = s.imem.writeRow a bs := rfl
@[simp] theorem memWrite_draws (a : Nat) (bs : Row) : (memWrite a bs s).draws = s.draws := rfl
@[simp] theorem memWrite_rdata (a : Nat) (bs : Row) : (memWrite a bs s).rdata = s.rdata := rfl
@[simp] theorem memWrite_inputs (a : Nat) (bs : Row) : (memWrite a bs s).inputs = s.inputs := rfl

/-! ## `loadGroup` -/

@[simp] theorem loadGroup_cfg (g : Fin 3) (n : Nat) : (loadGroup g n s).cfg = s.cfg := rfl
@[simp] theorem loadGroup_ctrl (g : Fin 3) (n : Nat) : (loadGroup g n s).ctrl = s.ctrl := rfl
@[simp] theorem loadGroup_status (g : Fin 3) (n : Nat) : (loadGroup g n s).status = s.status := rfl
@[simp] theorem loadGroup_cmd (g : Fin 3) (n : Nat) : (loadGroup g n s).cmd = s.cmd := rfl
@[simp] theorem loadGroup_ops (g : Fin 3) (n : Nat) : (loadGroup g n s).ops = s.ops := rfl
@[simp] theorem loadGroup_iso (g : Fin 3) (n : Nat) : (loadGroup g n s).iso = s.iso := rfl
@[simp] theorem loadGroup_rowCursor (g : Fin 3) (n : Nat) : (loadGroup g n s).rowCursor = s.rowCursor := rfl
@[simp] theorem loadGroup_engState (g : Fin 3) (n : Nat) : (loadGroup g n s).engState = s.engState := rfl
@[simp] theorem loadGroup_passMask (g : Fin 3) (n : Nat) : (loadGroup g n s).passMask = s.passMask := rfl
@[simp] theorem loadGroup_cache (g : Fin 3) (n : Nat) : (loadGroup g n s).cache = s.cache.load g (memRead s (s.rowAddr n) s.stride) := rfl
@[simp] theorem loadGroup_imem (g : Fin 3) (n : Nat) : (loadGroup g n s).imem = s.imem := rfl
@[simp] theorem loadGroup_draws (g : Fin 3) (n : Nat) : (loadGroup g n s).draws = s.draws + s.stride := rfl
@[simp] theorem loadGroup_rdata (g : Fin 3) (n : Nat) : (loadGroup g n s).rdata = s.rdata := rfl
@[simp] theorem loadGroup_inputs (g : Fin 3) (n : Nat) : (loadGroup g n s).inputs = s.inputs := rfl

/-! ## What depends on the operand registers alone -/

@[simp] theorem loadGroup_rowAddr (g : Fin 3) (n y : Nat) : (loadGroup g n s).rowAddr y = s.rowAddr y := rfl
@[simp] theorem loadGroup_stride (g : Fin 3) (n : Nat) : (loadGroup g n s).stride = s.stride := rfl
@[simp] theorem memWrite_rowAddr (a y : Nat) (bs : Row) : (memWrite a bs s).rowAddr y = s.rowAddr y := rfl
@[simp] theorem memWrite_stride (a : Nat) (bs : Row) : (memWrite a bs s).stride = s.stride := rfl
@[simp] theorem memWrite_height (a : Nat) (bs : Row) : (memWrite a bs s).height = s.height := rfl
@[simp] theorem nbcAdvance_rowAddr (n y : Nat) : (nbcAdvance n s).rowAddr y = s.rowAddr y := rfl
@[simp] theorem nbcAdvance_stride (n : Nat) : (nbcAdvance n s).stride = s.stride := rfl

/-! ## `nbcInit` -/

@[simp] theorem nbcInit_cfg : (nbcInit s).cfg = s.cfg := by simp [nbcInit]
@[simp] theorem nbcInit_ctrl : (nbcInit s).ctrl = s.ctrl := by simp [nbcInit]
@[simp] theorem nbcInit_status : (nbcInit s).status = s.status := by simp [nbcInit]
@[simp] theorem nbcInit_cmd : (nbcInit s).cmd = s.cmd := by simp [nbcInit]
@[simp] theorem nbcInit_ops : (nbcInit s).ops = s.ops := by simp [nbcInit]
@[simp] theorem nbcInit_iso : (nbcInit s).iso = s.iso := by simp [nbcInit]
@[simp] theorem nbcInit_rowCursor : (nbcInit s).rowCursor = s.rowCursor := by simp [nbcInit]
@[simp] theorem nbcInit_engState : (nbcInit s).engState = s.engState := by simp [nbcInit]
@[simp] theorem nbcInit_passMask : (nbcInit s).passMask = s.passMask := by simp [nbcInit]
@[simp] theorem nbcInit_imem : (nbcInit s).imem = s.imem := by simp [nbcInit]
@[simp] theorem nbcInit_draws : (nbcInit s).draws = s.draws + s.stride + s.stride + s.stride := by simp [nbcInit]
@[simp] theorem nbcInit_rdata : (nbcInit s).rdata = s.rdata := by simp [nbcInit]
@[simp] theorem nbcInit_inputs : (nbcInit s).inputs = s.inputs := by simp [nbcInit]

/-! ## `nbcAdvance` -/

@[simp] theorem nbcAdvance_cfg (n : Nat) : (nbcAdvance n s).cfg = s.cfg := rfl
@[simp] theorem nbcAdvance_ctrl (n : Nat) : (nbcAdvance n s).ctrl = s.ctrl := rfl
@[simp] theorem nbcAdvance_status (n : Nat) : (nbcAdvance n s).status = s.status := rfl
@[simp] theorem nbcAdvance_cmd (n : Nat) : (nbcAdvance n s).cmd = s.cmd := rfl
@[simp] theorem nbcAdvance_ops (n : Nat) : (nbcAdvance n s).ops = s.ops := rfl
@[simp] theorem nbcAdvance_iso (n : Nat) : (nbcAdvance n s).iso = s.iso := rfl
@[simp] theorem nbcAdvance_rowCursor (n : Nat) : (nbcAdvance n s).rowCursor = s.rowCursor := rfl
@[simp] theorem nbcAdvance_engState (n : Nat) : (nbcAdvance n s).engState = s.engState := rfl
@[simp] theorem nbcAdvance_passMask (n : Nat) : (nbcAdvance n s).passMask = s.passMask := rfl
@[simp] theorem nbcAdvance_cache (n : Nat) : (nbcAdvance n s).cache = { s.cache.load s.cache.top (memRead s (s.rowAddr n) s.stride) with top := s.cache.top + 1 } := rfl
@[simp] theorem nbcAdvance_imem (n : Nat) : (nbcAdvance n s).imem = s.imem := rfl
@[simp] theorem nbcAdvance_draws (n : Nat) : (nbcAdvance n s).draws = s.draws + s.stride := rfl
@[simp] theorem nbcAdvance_rdata (n : Nat) : (nbcAdvance n s).rdata = s.rdata := rfl
@[simp] theorem nbcAdvance_inputs (n : Nat) : (nbcAdvance n s).inputs = s.inputs := rfl

/-! ## `STATUS` -/

@[simp] theorem completed_done (st : Status) (code : ErrCode) : (st.completed code).done = true := by cases code <;> rfl
@[simp] theorem completed_herr (st : Status) (code : ErrCode) : (st.completed code).herr = st.herr := by cases code <;> rfl
@[simp] theorem completed_ok (st : Status) : st.completed .ok = { st with done := true } := rfl
theorem completed_error (st : Status) (code : ErrCode) (h : code ≠ .ok) :
    st.completed code = { st with done := true, err := true, errCode := code } := by cases code <;> first | rfl | exact absurd rfl h

end Sys2Proof.Machine
end

