-- ==== Sys2Proof/Laws/Cache.lean ====
section
/-! SUPPORT. The neighbourhood cache: what a write of one buffer, a load of a row group, init and advance leave in each buffer. -/

namespace Sys2Proof.Machine

theorem Cache.buf_write_self (c : Cache) (k : Fin 9) (bs : Row) :
    (c.write k bs).buf k = bs ++ (c.buf k).drop bs.length := by
  simp [Cache.write, Cache.buf]

theorem Cache.buf_write_ne (c : Cache) {k j : Fin 9} (bs : Row) (h : j ≠ k) : (c.write k bs).buf j = c.buf j := by
  have h' : k.val ≠ j.val := fun he => h (Fin.ext he.symm)
  simp [Cache.write, Cache.buf, h']

@[simp] theorem Cache.top_write (c : Cache) (k : Fin 9) (bs : Row) : (c.write k bs).top = c.top := rfl

/-- The bytes a write puts first. -/
theorem Cache.take_write_self (c : Cache) (k : Fin 9) (bs : Row) : ((c.write k bs).buf k).take bs.length = bs := by
  simp [Cache.buf_write_self]

/-- A write of `n` bytes changes no byte after them, in any buffer (R140). -/
theorem Cache.drop_write (c : Cache) (k j : Fin 9) (bs : Row) :
    ((c.write k bs).buf j).drop bs.length = (c.buf j).drop bs.length := by
  by_cases h : j = k
  · subst h; simp [Cache.buf_write_self]
  · rw [Cache.buf_write_ne _ _ h]

theorem Cache.length_write (c : Cache) (k j : Fin 9) (bs : Row) (h : bs.length ≤ (c.buf k).length) :
    ((c.write k bs).buf j).length = (c.buf j).length := by
  by_cases hj : j = k
  · subst hj; simp [Cache.buf_write_self]; omega
  · rw [Cache.buf_write_ne _ _ hj]

theorem slotIndex_inj {g g' v v' : Fin 3} (h : slotIndex g v = slotIndex g' v') : g = g' ∧ v = v' := by
  revert g g' v v'; decide

/-- Every buffer is a variant of a row group. -/
theorem exists_slotIndex (k : Fin 9) : ∃ g v : Fin 3, slotIndex g v = k := by revert k; decide

@[simp] theorem Cache.top_load (c : Cache) (g : Fin 3) (row : Row) : (c.load g row).top = c.top := rfl

/-- A load leaves the group's buffers holding the three variants of the row (R142). -/
theorem Cache.take_load_self (c : Cache) (g v : Fin 3) (row : Row) :
    ((c.load g row).buf (slotIndex g v)).take row.length = variant row v := by
  have ne : ∀ {v v' : Fin 3}, v ≠ v' → slotIndex g v ≠ slotIndex g v' := fun h he => h (slotIndex_inj he).2
  unfold Cache.load
  match v with
  | 0 =>
    rw [Cache.buf_write_ne _ _ (ne (by decide)), Cache.buf_write_ne _ _ (ne (by decide))]
    simpa [variant] using Cache.take_write_self c (slotIndex g 0) (shiftL row)
  | 1 =>
    rw [Cache.buf_write_ne _ _ (ne (by decide))]
    exact Cache.take_write_self _ _ row
  | 2 => simpa [variant] using Cache.take_write_self _ (slotIndex g 2) (shiftR row)

/-- A load changes no other group's buffer (R142). -/
theorem Cache.buf_load_ne (c : Cache) {g g' : Fin 3} (v : Fin 3) (row : Row) (h : g' ≠ g) :
    (c.load g row).buf (slotIndex g' v) = c.buf (slotIndex g' v) := by
  have ne : ∀ v', slotIndex g' v ≠ slotIndex g v' := fun _ he => h (slotIndex_inj he).1
  unfold Cache.load
  rw [Cache.buf_write_ne _ _ (ne _), Cache.buf_write_ne _ _ (ne _), Cache.buf_write_ne _ _ (ne _)]

/-- A load changes no byte beyond the row's length, in any buffer (R140). -/
theorem Cache.drop_load (c : Cache) (g : Fin 3) (row : Row) (k : Fin 9) :
    ((c.load g row).buf k).drop row.length = (c.buf k).drop row.length := by
  unfold Cache.load
  have h2 := Cache.drop_write ((c.write (slotIndex g 0) (shiftL row)).write (slotIndex g 1) row) (slotIndex g 2) k (shiftR row)
  have h1 := Cache.drop_write (c.write (slotIndex g 0) (shiftL row)) (slotIndex g 1) k row
  have h0 := Cache.drop_write c (slotIndex g 0) k (shiftL row)
  rw [length_shiftR] at h2
  rw [length_shiftL] at h0
  rw [h2, h1, h0]

/-- A load of a row no longer than the buffers keeps every buffer's length. -/
theorem Cache.length_load (c : Cache) (g : Fin 3) (row : Row) (n : Nat) (hc : ∀ k, (c.buf k).length = n)
    (h : row.length ≤ n) (k : Fin 9) : ((c.load g row).buf k).length = n := by
  unfold Cache.load
  have h0 : ∀ j, ((c.write (slotIndex g 0) (shiftL row)).buf j).length = n := fun j => by
    rw [Cache.length_write _ _ _ _ (by simp [hc, h]), hc]
  have h1 : ∀ j, (((c.write (slotIndex g 0) (shiftL row)).write (slotIndex g 1) row).buf j).length = n := fun j => by
    rw [Cache.length_write _ _ _ _ (by rw [h0]; exact h), h0]
  rw [Cache.length_write _ _ _ _ (by rw [h1]; simpa using h), h1]

/-! ## `NBCInit` (R143) -/

/-- The row that `NBCInit` loads into group `g`. -/
def initRow (s : State) (g : Fin 3) : Row := s.imem.readRow (s.draws + g.val * s.stride) (s.rowAddr g.val) s.stride

theorem nbcInit_cache (s : State) :
    (nbcInit s).cache =
      { ((s.cache.load 0 (initRow s 0)).load 1 (initRow s 1)).load 2 (initRow s 2) with top := 0 } := by
  have h2 : s.draws + s.stride + s.stride = s.draws + 2 * s.stride := by omega
  simp [nbcInit, initRow, memRead, h2]

@[simp] theorem nbcInit_top (s : State) : (nbcInit s).cache.top = 0 := rfl

/-- `NBCInit` changes nothing but the cache and the draws. -/
theorem nbcInit_eq (s : State) : nbcInit s = { s with cache := (nbcInit s).cache, draws := (nbcInit s).draws } := by
  simp only [nbcInit, loadGroup, drew]

/-- The buffers of a cache do not depend on its pointer. -/
@[simp] theorem Cache.buf_mk_top (c : Cache) (t : Fin 3) (k : Fin 9) : Cache.buf { c with top := t } k = c.buf k := rfl

@[simp] theorem length_initRow (s : State) (g : Fin 3) : (initRow s g).length = s.stride := by simp [initRow]

/-- After `NBCInit` group `g` holds the three variants of image row `g` (R143). -/
theorem nbcInit_take (s : State) (g v : Fin 3) :
    ((nbcInit s).cache.buf (slotIndex g v)).take s.stride = variant (initRow s g) v := by
  rw [nbcInit_cache, Cache.buf_mk_top]
  have key : ∀ (c : Cache) (g : Fin 3), ((c.load g (initRow s g)).buf (slotIndex g v)).take s.stride = variant (initRow s g) v :=
    fun c g => by simpa using Cache.take_load_self c g v (initRow s g)
  match g with
  | 0 => rw [Cache.buf_load_ne _ _ _ (by decide), Cache.buf_load_ne _ _ _ (by decide)]; exact key _ 0
  | 1 => rw [Cache.buf_load_ne _ _ _ (by decide)]; exact key _ 1
  | 2 => exact key _ 2

/-- After `NBCInit` window row `lr` holds image row `lr` (R143, R145). -/
theorem windowBuf_nbcInit (s : State) (lr v : Fin 3) : (nbcInit s).windowBuf lr v = variant (initRow s lr) v := by
  have h0 : (0 : Fin 3) + lr = lr := by omega
  have h1 : (nbcInit s).stride = s.stride := by simp [State.stride]
  simp only [State.windowBuf, Cache.slot, nbcInit_top, h0, h1]
  exact nbcInit_take s lr v

theorem getD_initRow (s : State) (g : Fin 3) (k : Nat) (hk : k < s.stride) (b : Byte)
    (h : s.imem.get? (s.rowAddr g.val + k) = some b) : (initRow s g).getD k 0 = b := by
  rw [initRow, Memory.getD_readRow _ _ _ _ _ hk, Memory.readByte_of_get? h]

theorem nbcInit_drop (s : State) (k : Fin 9) : ((nbcInit s).cache.buf k).drop s.stride = (s.cache.buf k).drop s.stride := by
  rw [nbcInit_cache, Cache.buf_mk_top]
  have key : ∀ (c : Cache) (g : Fin 3), ((c.load g (initRow s g)).buf k).drop s.stride = (c.buf k).drop s.stride :=
    fun c g => by simpa using Cache.drop_load c g (initRow s g) k
  rw [key, key, key]

theorem nbcInit_length (s : State) (n : Nat) (hc : ∀ k, (s.cache.buf k).length = n) (h : s.stride ≤ n) (k : Fin 9) :
    ((nbcInit s).cache.buf k).length = n := by
  rw [nbcInit_cache, Cache.buf_mk_top]
  have h0 := Cache.length_load s.cache 0 (initRow s 0) n hc (by simpa using h)
  have h1 := Cache.length_load _ 1 (initRow s 1) n h0 (by simpa using h)
  exact Cache.length_load _ 2 (initRow s 2) n h1 (by simpa using h) k

/-! ## `NBCAdvance` (R144) -/

/-- After an advance, the window's last row is the new one, in its three variants. -/
theorem nbcAdvance_take_new (s : State) (n : Nat) (v : Fin 3) :
    ((nbcAdvance n s).cache.buf (slotIndex s.cache.top v)).take s.stride = variant (memRead s (s.rowAddr n) s.stride) v := by
  rw [nbcAdvance_cache, Cache.buf_mk_top]
  simpa using Cache.take_load_self s.cache s.cache.top v (memRead s (s.rowAddr n) s.stride)

theorem nbcAdvance_buf_old (s : State) (n : Nat) (g v : Fin 3) (h : g ≠ s.cache.top) :
    (nbcAdvance n s).cache.buf (slotIndex g v) = s.cache.buf (slotIndex g v) := by
  rw [nbcAdvance_cache, Cache.buf_mk_top, Cache.buf_load_ne _ _ _ h]

theorem nbcAdvance_drop (s : State) (n : Nat) (k : Fin 9) :
    ((nbcAdvance n s).cache.buf k).drop s.stride = (s.cache.buf k).drop s.stride := by
  rw [nbcAdvance_cache, Cache.buf_mk_top]
  simpa using Cache.drop_load s.cache s.cache.top (memRead s (s.rowAddr n) s.stride) k

theorem nbcAdvance_length (s : State) (n len : Nat) (hc : ∀ k, (s.cache.buf k).length = len) (h : s.stride ≤ len) (k : Fin 9) :
    ((nbcAdvance n s).cache.buf k).length = len := by
  rw [nbcAdvance_cache, Cache.buf_mk_top]
  exact Cache.length_load _ _ _ len hc (by simpa using h) k

/-- An advance moves the window: rows 1 and 2 of the old window are rows 0 and 1 of the new one, untouched, and row 2 is the new
row (R144). -/
theorem windowBuf_nbcAdvance (s : State) (n : Nat) (v : Fin 3) :
    (nbcAdvance n s).windowBuf 0 v = s.windowBuf 1 v ∧ (nbcAdvance n s).windowBuf 1 v = s.windowBuf 2 v ∧
    (nbcAdvance n s).windowBuf 2 v = variant (memRead s (s.rowAddr n) s.stride) v := by
  have htop : (nbcAdvance n s).cache.top = s.cache.top + 1 := rfl
  have h0 : s.cache.top + 1 + 0 = s.cache.top + 1 := by omega
  have h1 : s.cache.top + 1 + 1 = s.cache.top + 2 := by omega
  have h2 : s.cache.top + 1 + 2 = s.cache.top := by omega
  have n1 : s.cache.top + 1 ≠ s.cache.top := by omega
  have n2 : s.cache.top + 2 ≠ s.cache.top := by omega
  refine ⟨?_, ?_, ?_⟩
  · simp only [State.windowBuf, Cache.slot, htop, h0, nbcAdvance_stride]; rw [nbcAdvance_buf_old _ _ _ _ n1]
  · simp only [State.windowBuf, Cache.slot, htop, h1, nbcAdvance_stride]; rw [nbcAdvance_buf_old _ _ _ _ n2]
  · simp only [State.windowBuf, Cache.slot, htop, h2, nbcAdvance_stride]; exact nbcAdvance_take_new s n v

end Sys2Proof.Machine
end

