-- ==== Sys2Proof/Laws/Engine.lean ====
section
/-! SUPPORT. Everything a step can do, said once: the rows of R101 for each command, and the cases of the engine's turn and of a
step. Proofs about steps cite these and do not unfold the engine. -/

namespace Sys2Proof.Machine

/-! ## The three command-dependent rows of R101 -/

/-- What `VALIDATE` does once the checks pass. -/
def beginOf : Decoded → State → State
  | .legal .nop => complete .ok
  | .legal .shl => beginShift
  | .legal .shr => beginShift
  | .legal .erode4 => beginPass mask4
  | .legal .erode8 => beginPass mask8
  | .legal .erodem => fun s => beginPass s.ops.seMask s
  | .legal .erodeIso => beginIso
  | .illegal _ => complete .cmd

/-- What `SHIFT` does. -/
def shiftOf : Decoded → State → Result
  | .legal .shl => shiftRow shiftL 0
  | .legal .shr => shiftRow shiftR 2
  | .legal .nop => noShift
  | .legal .erode4 => noShift
  | .legal .erode8 => noShift
  | .legal .erodem => noShift
  | .legal .erodeIso => noShift
  | .illegal _ => noShift

/-- What ends a pass. -/
def passEndOf : Decoded → State → State
  | .legal .erodeIso => endIsoPass
  | .legal .nop => endCommand
  | .legal .shl => endCommand
  | .legal .shr => endCommand
  | .legal .erode4 => endCommand
  | .legal .erode8 => endCommand
  | .legal .erodem => endCommand
  | .illegal _ => endCommand

/-- Every command's meaning is the one table of R101, with its own three rows. -/
theorem exec_eq_microStep (i : Instr) (s : State) :
    exec i s = microStep (fun s => onValid (validate (.legal i) s) (beginOf (.legal i)) s) (shiftOf (.legal i))
      (passEndOf (.legal i)) s := by
  cases i <;> rfl

theorem engineTurn_eq_microStep (s : State) :
    engineTurn s = microStep (fun s => onValid (validate s.command s) (beginOf s.command) s) (shiftOf s.command)
      (passEndOf s.command) s := by
  unfold engineTurn
  cases h : s.command with
  | legal i => simp only [exec_eq_microStep, microStep, h]
  | illegal why =>
    simp only [execIllegal, shiftOf, passEndOf, microStep]
    cases s.engState <;> simp [h, validate, onValid]

theorem engineTurn_legal {s : State} {i : Instr} (h : s.command = .legal i) : engineTurn s = exec i s := by
  simp [engineTurn, h]

/-- The mask a single-pass command runs with (R83). -/
def passMaskOf (s : State) : Instr → Mask
  | .erode4 => mask4
  | .erode8 => mask8
  | .erodem => s.ops.seMask
  | .nop => 0
  | .shl => 0
  | .shr => 0
  | .erodeIso => 0

/-- Everything `VALIDATE` can do once the checks pass. -/
theorem beginOf_cases (c : Decoded) (s : State) :
    (∃ code, beginOf c s = complete code s ∧
      (c = .legal .nop ∧ code = .ok ∨ (c = .legal .shl ∨ c = .legal .shr) ∧ code = .ok ∧ s.shiftLen = 0 ∨
        (∃ why, c = .illegal why) ∧ code = .cmd)) ∨
    ((c = .legal .shl ∨ c = .legal .shr) ∧ 0 < s.shiftLen ∧ beginOf c s = { s with engState := .shift }) ∨
    (∃ i, c = .legal i ∧ (i = .erode4 ∨ i = .erode8 ∨ i = .erodem) ∧
      (s.height < 3 ∧ beginOf c s = complete .ok { s with passMask := passMaskOf s i } ∨
       3 ≤ s.height ∧ beginOf c s = { s with passMask := passMaskOf s i, engState := .eInit })) ∨
    (c = .legal .erodeIso ∧
      beginOf c s = { s with iso := { index := 0, diag := 0, seq := 0 }, engState := .iSelect }) := by
  rcases c with i | why
  · cases i
    case nop => exact .inl ⟨.ok, rfl, .inl ⟨rfl, rfl⟩⟩
    case shl =>
      by_cases h : s.shiftLen = 0
      · exact .inl ⟨.ok, by simp [beginOf, beginShift, h], .inr (.inl ⟨.inl rfl, rfl, h⟩)⟩
      · exact .inr (.inl ⟨.inl rfl, Nat.pos_of_ne_zero h, by simp [beginOf, beginShift, h]⟩)
    case shr =>
      by_cases h : s.shiftLen = 0
      · exact .inl ⟨.ok, by simp [beginOf, beginShift, h], .inr (.inl ⟨.inr rfl, rfl, h⟩)⟩
      · exact .inr (.inl ⟨.inr rfl, Nat.pos_of_ne_zero h, by simp [beginOf, beginShift, h]⟩)
    case erodeIso => exact .inr (.inr (.inr ⟨rfl, rfl⟩))
    all_goals
      refine .inr (.inr (.inl ⟨_, rfl, by simp, ?_⟩))
      by_cases h : s.height < 3
      · exact .inl ⟨h, by simp only [beginOf, beginPass, passMaskOf, if_pos h]⟩
      · exact .inr ⟨by omega, by simp only [beginOf, beginPass, passMaskOf, if_neg h]⟩
  · exact .inl ⟨.cmd, rfl, .inr (.inr ⟨⟨why, rfl⟩, rfl⟩)⟩

/-- What ends a pass completes the command or counts a step of `ERODE_ISO`. -/
theorem passEndOf_cases (c : Decoded) (s : State) :
    (c ≠ .legal .erodeIso ∧ passEndOf c s = complete .ok s) ∨ (c = .legal .erodeIso ∧ passEndOf c s = endIsoPass s) := by
  rcases c with i | why
  · cases i
    case erodeIso => exact .inr ⟨rfl, rfl⟩
    all_goals exact .inl ⟨by simp, rfl⟩
  · exact .inl ⟨by simp, rfl⟩

/-! ## Inversion of the micro-steps -/

theorem shiftRow_next {f : Row → Row} {k : Fin 9} {s t : State} (h : shiftRow f k s = .next t) :
    s.shiftSrc + s.shiftLen ≤ s.cfg.imemBytes ∧ s.shiftDst + s.shiftLen ≤ s.cfg.imemBytes ∧
    s.shiftLen ≤ s.cfg.maxStride ∧
    t = complete .ok (memWrite s.shiftDst (f (memRead s s.shiftSrc s.shiftLen)) (drew s.shiftLen { s with
      cache := (s.cache.write 1 (memRead s s.shiftSrc s.shiftLen)).write k (f (memRead s s.shiftSrc s.shiftLen)) })) := by
  unfold shiftRow at h
  split at h
  · cases h
  · split at h
    · cases h
    · cases h; exact ⟨by omega, by omega, by omega, rfl⟩

theorem shiftRow_answers (f : Row → Row) (k : Fin 9) (s : State) (h1 : s.shiftSrc + s.shiftLen ≤ s.cfg.imemBytes)
    (h2 : s.shiftDst + s.shiftLen ≤ s.cfg.imemBytes) (h3 : s.shiftLen ≤ s.cfg.maxStride) :
    shiftRow f k s = .next (complete .ok (memWrite s.shiftDst (f (memRead s s.shiftSrc s.shiftLen)) (drew s.shiftLen { s with
      cache := (s.cache.write 1 (memRead s s.shiftSrc s.shiftLen)).write k (f (memRead s s.shiftSrc s.shiftLen)) }))) := by
  simp [shiftRow, Nat.not_lt.2 h1, Nat.not_lt.2 h2, Nat.not_lt.2 h3]

/-- The state after `E_INIT` (R162). -/
def initDone (s : State) : State := { nbcInit s with rowCursor := 1, engState := .eRow }

/-- `E_INIT` changes nothing but the cache, the draws, `ROW_CURSOR` and `ENG_STATE`. -/
theorem initDone_eq (s : State) :
    initDone s = { s with
      cache := (nbcInit s).cache, draws := s.draws + 3 * s.stride, rowCursor := 1, engState := .eRow } := by
  have hd : (nbcInit s).draws = s.draws + 3 * s.stride := by rw [nbcInit_draws]; omega
  have key : ∀ (u : State) (c : Cache) (d : Nat), u = { s with cache := c, draws := d } →
      ({ u with rowCursor := 1, engState := .eRow } : State) =
        { s with cache := c, draws := d, rowCursor := 1, engState := .eRow } := by
    rintro u c d rfl; rfl
  rw [← hd]
  exact key _ _ _ (nbcInit_eq s)

@[simp] theorem initDone_imem (s : State) : (initDone s).imem = s.imem := by rw [initDone_eq]
@[simp] theorem initDone_rowCursor (s : State) : (initDone s).rowCursor = 1 := rfl
@[simp] theorem initDone_engState (s : State) : (initDone s).engState = .eRow := rfl
@[simp] theorem initDone_stride (s : State) : (initDone s).stride = s.stride := by rw [initDone_eq]; rfl
@[simp] theorem initDone_rowAddr (s : State) (y : Nat) : (initDone s).rowAddr y = s.rowAddr y := by rw [initDone_eq]; rfl

/-- The window after `E_INIT` (R143, R145). -/
theorem windowBuf_initDone (s : State) (lr v : Fin 3) : (initDone s).windowBuf lr v = variant (initRow s lr) v :=
  windowBuf_nbcInit s lr v

theorem eInit_next {s t : State} (h : eInit s = .next t) :
    s.rowAddr 3 ≤ s.cfg.imemBytes ∧ s.stride ≤ s.cfg.maxStride ∧ t = initDone s := by
  unfold eInit at h
  split at h
  · cases h
  · split at h
    · cases h
    · cases h; exact ⟨by omega, by omega, rfl⟩

theorem eInit_answers (s : State) (h1 : s.rowAddr 3 ≤ s.cfg.imemBytes) (h2 : s.stride ≤ s.cfg.maxStride) :
    eInit s = .next (initDone s) := by
  simp [eInit, initDone, Nat.not_lt.2 h1, Nat.not_lt.2 h2]

/-- The state in which `E_ROW` has written its row and nothing else. -/
def rowWritten (s : State) : State := memWrite (s.rowAddr s.rowCursor.toNat) (windowRow s) s

/-- The state after an `E_ROW` that advances. -/
def rowAdvanced (s : State) : State :=
  { nbcAdvance (s.rowCursor.toNat + 2) (rowWritten s) with rowCursor := s.rowCursor + 1 }

/-- Writing the row changes nothing but IMEM. -/
theorem rowWritten_eq (s : State) : rowWritten s = { s with imem := (rowWritten s).imem } := rfl

/-- An `E_ROW` that advances changes nothing but IMEM, the cache, the draws and `ROW_CURSOR`. -/
theorem rowAdvanced_eq (s : State) :
    rowAdvanced s = { s with
      imem := (rowWritten s).imem, cache := (rowAdvanced s).cache, draws := (rowAdvanced s).draws
      rowCursor := s.rowCursor + 1 } := by
  simp only [rowAdvanced, nbcAdvance, loadGroup, drew, rowWritten, memWrite]

@[simp] theorem rowAdvanced_imem (s : State) : (rowAdvanced s).imem = (rowWritten s).imem := rfl
@[simp] theorem rowAdvanced_rowCursor (s : State) : (rowAdvanced s).rowCursor = s.rowCursor + 1 := rfl
@[simp] theorem rowAdvanced_stride (s : State) : (rowAdvanced s).stride = s.stride := by rw [rowAdvanced_eq]; rfl
@[simp] theorem rowAdvanced_rowAddr (s : State) (y : Nat) : (rowAdvanced s).rowAddr y = s.rowAddr y := by
  rw [rowAdvanced_eq]; rfl
@[simp] theorem rowAdvanced_engState (s : State) : (rowAdvanced s).engState = s.engState := by rw [rowAdvanced_eq]

/-- The window after an `E_ROW` that advances (R144): the old rows 1 and 2, then row `y + 2`. -/
theorem windowBuf_rowAdvanced (s : State) (v : Fin 3) :
    (rowAdvanced s).windowBuf 0 v = s.windowBuf 1 v ∧ (rowAdvanced s).windowBuf 1 v = s.windowBuf 2 v ∧
    (rowAdvanced s).windowBuf 2 v =
      variant (memRead (rowWritten s) (s.rowAddr (s.rowCursor.toNat + 2)) s.stride) v :=
  windowBuf_nbcAdvance (rowWritten s) _ v

/-- `ROW_CURSOR` counts without wrapping while it is below `IMG_HEIGHT - 2` (assumption 12). -/
theorem rowCursor_succ {s : State} (h : s.rowCursor.toNat + 2 < s.height) :
    (s.rowCursor + 1).toNat = s.rowCursor.toNat + 1 := by
  have h1 : s.height < 2 ^ 32 := s.ops.imgHeight.isLt
  rw [BitVec.toNat_add]; simp; omega

/-- The row that `E_ROW` writes leaves every other byte. -/
theorem get?_rowWritten_out (s : State) (n : Nat) (hb : ∀ k : Fin 9, (s.cache.buf k).length = n) (hs : s.stride ≤ n) (a : Nat)
    (h : a < s.rowAddr s.rowCursor.toNat ∨ s.rowAddr s.rowCursor.toNat + s.stride ≤ a) :
    (rowWritten s).imem.get? a = s.imem.get? a :=
  Memory.get?_writeRow_out _ _ _ _ (by rw [length_windowRow s n hb hs]; exact h)

/-- The bytes that `E_ROW` writes. -/
theorem get?_rowWritten_in (s : State) (n : Nat) (hb : ∀ k : Fin 9, (s.cache.buf k).length = n) (hs : s.stride ≤ n) (k : Nat)
    (h : k < s.stride) :
    (rowWritten s).imem.get? (s.rowAddr s.rowCursor.toNat + k) = some ((windowRow s).getD k 0) :=
  Memory.get?_writeRow_in _ _ _ _ (by rw [length_windowRow s n hb hs]; exact h)

theorem eRow_next {f : State → State} {s t : State} (h : eRow f s = .next t) :
    s.stride ≤ s.cfg.maxStride ∧
    (s.rowCursor.toNat + 2 < s.height ∧ s.rowAddr (s.rowCursor.toNat + 3) ≤ s.cfg.imemBytes ∧ t = rowAdvanced s ∨
     s.rowCursor.toNat + 2 = s.height ∧ s.rowAddr (s.rowCursor.toNat + 1) ≤ s.cfg.imemBytes ∧ t = f (rowWritten s)) := by
  by_cases h0 : s.rowCursor.toNat + 2 > s.height
  · simp [eRow, h0] at h
  by_cases h1 : s.rowCursor.toNat + 2 < s.height
  · simp only [eRow, h0, h1, if_true, if_false] at h
    split at h
    · cases h
    · split at h
      · cases h
      · cases h; exact ⟨by omega, .inl ⟨h1, by omega, rfl⟩⟩
  · simp only [eRow, h0, h1, if_false] at h
    split at h
    · cases h
    · split at h
      · cases h
      · cases h; exact ⟨by omega, .inr ⟨by omega, by omega, rfl⟩⟩

theorem eRow_advances (f : State → State) (s : State) (h1 : s.rowCursor.toNat + 2 < s.height)
    (h2 : s.rowAddr (s.rowCursor.toNat + 3) ≤ s.cfg.imemBytes) (h3 : s.stride ≤ s.cfg.maxStride) :
    eRow f s = .next (rowAdvanced s) := by
  have h4 : ¬ s.rowCursor.toNat + 2 > s.height := by omega
  simp [eRow, h4, h1, Nat.not_lt.2 h2, Nat.not_lt.2 h3, rowAdvanced, rowWritten]

theorem eRow_ends (f : State → State) (s : State) (h1 : s.rowCursor.toNat + 2 = s.height)
    (h2 : s.rowAddr (s.rowCursor.toNat + 1) ≤ s.cfg.imemBytes) (h3 : s.stride ≤ s.cfg.maxStride) :
    eRow f s = .next (f (rowWritten s)) := by
  simp [eRow, h1, Nat.not_lt.2 h2, Nat.not_lt.2 h3, rowWritten]

/-- The mask that a choice selects (R183). -/
def chosenMask (b : Bool) : Mask := if b then mask8 else mask4

/-- `ISO_DIAG` after a choice (R183). -/
def chosenDiag (b : Bool) (d : Word) : Word := if b then d + BitVec.ofNat 32 Config.diagStep else d

/-- Everything `I_SELECT` can do (R183). -/
theorem iSelect_cases (s : State) :
    (s.iso.index = s.ops.isoSteps ∧ iSelect s = complete .ok s) ∨
    (s.iso.index ≠ s.ops.isoSteps ∧ s.height < 3 ∧ iSelect s = { s with
      iso := {
        index := s.iso.index + 1, diag := chosenDiag (sel8 s.iso) s.iso.diag
        seq := (s.iso.seq <<< 1) ||| (BitVec.ofBool (sel8 s.iso)).setWidth 32 }
      passMask := chosenMask (sel8 s.iso), engState := .iSelect }) ∨
    (s.iso.index ≠ s.ops.isoSteps ∧ 3 ≤ s.height ∧ iSelect s = { s with
      iso := {
        index := s.iso.index, diag := chosenDiag (sel8 s.iso) s.iso.diag
        seq := (s.iso.seq <<< 1) ||| (BitVec.ofBool (sel8 s.iso)).setWidth 32 }
      passMask := chosenMask (sel8 s.iso), engState := .eInit }) := by
  unfold iSelect
  by_cases h : s.iso.index = s.ops.isoSteps
  · exact .inl ⟨h, if_pos h⟩
  · by_cases hh : s.height < 3
    · exact .inr (.inl ⟨h, hh, by simp only [if_neg h, if_pos hh, chosenMask, chosenDiag]⟩)
    · exact .inr (.inr ⟨h, by omega, by simp only [if_neg h, if_neg hh, chosenMask, chosenDiag]⟩)

/-! ## The engine's turn and a step -/

/-- Everything the engine's turn can do, for any of the three command-dependent rows. -/
theorem microStep_next {v : State → State} {sh : State → Result} {pe : State → State} {s t : State}
    (h : microStep v sh pe s = .next t) :
    (s.engState = .idle ∧ t = s) ∨ (s.engState = .validate ∧ t = v s) ∨ (s.engState = .shift ∧ sh s = .next t) ∨
    (s.engState = .eInit ∧ eInit s = .next t) ∨ (s.engState = .eRow ∧ eRow pe s = .next t) ∨
    (s.engState = .iSelect ∧ t = iSelect s) := by
  unfold microStep at h
  cases hs : s.engState <;> rw [hs] at h <;> simp_all

/-- A `SHIFT` that answers is that of `SHL` or `SHR`. -/
theorem shiftOf_next {c : Decoded} {s t : State} (h : shiftOf c s = .next t) :
    (c = .legal .shl ∧ shiftRow shiftL 0 s = .next t) ∨ (c = .legal .shr ∧ shiftRow shiftR 2 s = .next t) := by
  unfold shiftOf at h
  split at h <;> simp_all [noShift]

/-- Passing or failing the checks. -/
theorem onValid_eq (code : ErrCode) (go : State → State) (s : State) :
    onValid code go s = if code = .ok then go s else complete code s := by
  cases code <;> simp [onValid]

/-- Everything a step can do: which agent moves, and what the engine's turn can be. -/
theorem step_next {s t : State} (h : step s = .next t) :
    (s.inputs = [] ∧ engineTurn s = .next t) ∨
    (∃ rest, s.inputs = .engine :: rest ∧ engineTurn { s with inputs := rest } = .next t) ∨
    (∃ x rest, s.inputs = .host x :: rest ∧ t = hostTransaction x { s with inputs := rest }) ∨
    (∃ rest, s.inputs = .reset :: rest ∧ t = resetInput { s with inputs := rest }) := by
  unfold step at h
  split at h
  · exact .inl ⟨‹_›, h⟩
  · exact .inr (.inl ⟨_, ‹_›, h⟩)
  · cases h; exact .inr (.inr (.inl ⟨_, _, ‹_›, rfl⟩))
  · cases h; exact .inr (.inr (.inr ⟨_, ‹_›, rfl⟩))

theorem step_of_no_inputs {s : State} (h : s.inputs = []) : step s = engineTurn s := by simp [step, h]

/-- Everything the engine's turn can do. -/
theorem engineTurn_next {s t : State} (h : engineTurn s = .next t) :
    (s.engState = .idle ∧ t = s) ∨
    (s.engState = .validate ∧ validate s.command s ≠ .ok ∧ t = complete (validate s.command s) s) ∨
    (s.engState = .validate ∧ validate s.command s = .ok ∧ t = beginOf s.command s) ∨
    (s.engState = .shift ∧ s.command = .legal .shl ∧ shiftRow shiftL 0 s = .next t) ∨
    (s.engState = .shift ∧ s.command = .legal .shr ∧ shiftRow shiftR 2 s = .next t) ∨
    (s.engState = .eInit ∧ eInit s = .next t) ∨
    (s.engState = .eRow ∧ eRow (passEndOf s.command) s = .next t) ∨
    (s.engState = .iSelect ∧ t = iSelect s) := by
  rw [engineTurn_eq_microStep] at h
  rcases microStep_next h with ⟨he, rfl⟩ | ⟨he, rfl⟩ | ⟨he, h⟩ | ⟨he, h⟩ | ⟨he, h⟩ | ⟨he, rfl⟩
  · exact .inl ⟨he, rfl⟩
  · rw [onValid_eq]
    by_cases hv : validate s.command s = .ok
    · exact .inr (.inr (.inl ⟨he, hv, if_pos hv⟩))
    · exact .inr (.inl ⟨he, hv, if_neg hv⟩)
  · rcases shiftOf_next h with ⟨hc, h⟩ | ⟨hc, h⟩
    · exact .inr (.inr (.inr (.inl ⟨he, hc, h⟩)))
    · exact .inr (.inr (.inr (.inr (.inl ⟨he, hc, h⟩))))
  · exact .inr (.inr (.inr (.inr (.inr (.inl ⟨he, h⟩)))))
  · exact .inr (.inr (.inr (.inr (.inr (.inr (.inl ⟨he, h⟩))))))
  · exact .inr (.inr (.inr (.inr (.inr (.inr (.inr ⟨he, rfl⟩))))))

/-- What no micro-step of any command changes. -/
theorem engineTurn_frame {s t : State} (h : engineTurn s = .next t) :
    t.cfg = s.cfg ∧ t.ctrl = s.ctrl ∧ t.cmd = s.cmd ∧ t.ops = s.ops ∧ t.status.herr = s.status.herr ∧
    t.rdata = s.rdata ∧ t.inputs = s.inputs := by
  rcases engineTurn_next h with ⟨-, rfl⟩ | ⟨-, -, rfl⟩ | ⟨-, -, rfl⟩ | ⟨-, -, h⟩ | ⟨-, -, h⟩ | ⟨-, h⟩ | ⟨-, h⟩ | ⟨-, rfl⟩
  · simp
  · simp
  · rcases beginOf_cases s.command s with ⟨code, e, -⟩ | ⟨-, -, e⟩ | ⟨i, -, -, ⟨-, e⟩ | ⟨-, e⟩⟩ | ⟨-, e⟩ <;> rw [e] <;> simp
  · obtain ⟨-, -, -, rfl⟩ := shiftRow_next h; simp
  · obtain ⟨-, -, -, rfl⟩ := shiftRow_next h; simp
  · obtain ⟨-, -, rfl⟩ := eInit_next h; simp [initDone]
  · obtain ⟨-, ⟨-, -, rfl⟩ | ⟨-, -, rfl⟩⟩ := eRow_next h
    · simp [rowAdvanced, rowWritten]
    · rcases passEndOf_cases s.command (rowWritten s) with ⟨-, e⟩ | ⟨-, e⟩ <;> rw [e] <;> simp [endIsoPass, rowWritten]
  · unfold iSelect; split <;> simp

/-! ## Runs -/

theorem run_succ_of_step {s t : State} (h : step s = .next t) (k : Nat) : run (k + 1) s = run k t := by
  simp [run, h]

theorem run_add {s t : State} {j : Nat} (h : run j s = .next t) (k : Nat) : run (j + k) s = run k t := by
  induction j generalizing s with
  | zero => cases h; simp
  | succ j ih =>
    rw [Nat.succ_add]
    unfold run at h
    split at h
    · rename_i u hu; rw [run_succ_of_step hu]; exact ih h
    · cases h
    · cases h

/-- The last of `k + 1` steps. -/
theorem run_last {s t : State} {k : Nat} (h : run (k + 1) s = .next t) : ∃ u, run k s = .next u ∧ step u = .next t := by
  induction k generalizing s with
  | zero =>
    unfold run at h
    split at h
    · rename_i u hu; refine ⟨s, rfl, ?_⟩; rw [hu]; exact h
    · cases h
    · cases h
  | succ k ih =>
    unfold run at h
    split at h
    · rename_i u hu
      obtain ⟨v, hv, hs⟩ := ih h
      exact ⟨v, by rw [run_succ_of_step hu]; exact hv, hs⟩
    · cases h
    · cases h

/-- `run` is the host's own `k` steps. -/
theorem run_eq_core_run (k : Nat) (s : State) :
    run k s = Host.Core.run { State := State, Fault := Fault, Refusal := Refusal, step := step, reset := State.reset } k s := by
  induction k generalizing s with
  | zero => rfl
  | succ k ih => unfold run Host.Core.run; split <;> simp_all

/-! ## Host transactions -/

theorem Reg.ofOffset_offset (r : Reg) : Reg.ofOffset r.offset = some r := by cases r <;> decide

theorem regAccessOk_offset (r : Reg) : regAccessOk r.offset 32 = true := by cases r <;> decide

/-- A 32-bit write at a register's offset is that register's write. -/
theorem hostTransaction_regWrite (r : Reg) (v : Word) (s : State) :
    hostTransaction (.regWrite r.offset 32 v) s = r.write v s := by
  simp [hostTransaction, hostRegWrite, Reg.ofOffset_offset, regAccessOk_offset]

/-- A 32-bit read at a register's offset returns what the register reads as. -/
theorem hostTransaction_regRead (r : Reg) (s : State) :
    hostTransaction (.regRead r.offset 32) s = { s with rdata := r.read s } := by
  simp [hostTransaction, hostRegRead, Reg.ofOffset_offset, regAccessOk_offset]

/-- A register write takes one of the register's own effects, does nothing, or is a protocol error. -/
theorem hostRegWrite_cases (off : BitVec 8) (bits : Nat) (v : Word) (s : State) :
    (∃ r, Reg.ofOffset off = some r ∧ hostRegWrite off bits v s = r.write v s) ∨ hostRegWrite off bits v s = s ∨
    hostRegWrite off bits v s = hostError s := by
  unfold hostRegWrite
  split
  · split
    · exact .inl ⟨_, ‹_›, rfl⟩
    · exact .inr (.inl rfl)
  · exact .inr (.inr rfl)

/-- What a host transaction can change. -/
theorem hostTransaction_frame (x : HostTx) (s : State) :
    (hostTransaction x s).cfg = s.cfg ∧ (hostTransaction x s).iso = s.iso ∧
    (hostTransaction x s).rowCursor = s.rowCursor ∧ (hostTransaction x s).passMask = s.passMask ∧
    (hostTransaction x s).cache = s.cache ∧ (hostTransaction x s).inputs = s.inputs := by
  cases x with
  | regWrite off bits v =>
    rcases hostRegWrite_cases off bits v s with ⟨r, -, h⟩ | h | h <;> simp only [hostTransaction, h]
    · cases r <;> simp only [Reg.write, writeOperand] <;> (try split) <;> simp
    · simp
    · simp
  | regRead off bits => simp only [hostTransaction, hostRegRead]; (repeat' split) <;> simp
  | imemWrite a v => simp only [hostTransaction, hostImemWrite]; split <;> simp
  | imemRead a => simp only [hostTransaction, hostImemRead]; split <;> simp

/-- Every step takes one pending event, if there is one (assumption 6). -/
theorem step_inputs {s t : State} (h : step s = .next t) : t.inputs = s.inputs.tail := by
  rcases step_next h with ⟨hi, ht⟩ | ⟨rest, hi, ht⟩ | ⟨x, rest, hi, rfl⟩ | ⟨rest, hi, rfl⟩
  · rw [(engineTurn_frame ht).2.2.2.2.2.2, hi]; rfl
  · rw [(engineTurn_frame ht).2.2.2.2.2.2, hi]; rfl
  · rw [(hostTransaction_frame x _).2.2.2.2.2, hi]; rfl
  · rw [hi]; rfl

/-- Every host transaction keeps IMEM in canonical form. -/
theorem hostTransaction_imem_wf (x : HostTx) {s : State} (h : s.imem.wf) : (hostTransaction x s).imem.wf := by
  cases x with
  | regWrite off bits v =>
    rcases hostRegWrite_cases off bits v s with ⟨r, -, he⟩ | he | he <;> simp only [hostTransaction, he]
    · cases r <;> simp only [Reg.write, writeOperand] <;> (try split) <;> exact h
    · exact h
    · exact h
  | regRead off bits => simp only [hostTransaction, hostRegRead]; (repeat' split) <;> exact h
  | imemWrite a v =>
    simp only [hostTransaction, hostImemWrite]
    split
    · exact Memory.set_wf h a v
    · exact h
  | imemRead a => simp only [hostTransaction, hostImemRead]; split <;> exact h

@[simp] theorem resetInput_cfg (s : State) : (resetInput s).cfg = s.cfg := rfl
@[simp] theorem resetInput_inputs (s : State) : (resetInput s).inputs = s.inputs := rfl
@[simp] theorem resetInput_draws (s : State) : (resetInput s).draws = s.draws := rfl
@[simp] theorem resetInput_engState (s : State) : (resetInput s).engState = .idle := rfl
@[simp] theorem resetInput_imem (s : State) :
    (resetInput s).imem = s.imem.erase (abandonedRange s).1 (abandonedRange s).2 := rfl

/-- Which bytes an abandoned command could write (R232). -/
theorem mem_abandonedRange (s : State) (a : Nat) :
    ((abandonedRange s).1 ≤ a ∧ a < (abandonedRange s).1 + (abandonedRange s).2) ↔
      s.busy = true ∧ validate s.command s = .ok ∧
        ((s.command = .legal .shl ∨ s.command = .legal .shr) ∧ s.shiftDst ≤ a ∧ a < s.shiftDst + s.shiftLen ∨
          erodes s.command = true ∧ s.rowAddr 1 ≤ a ∧ a < s.rowAddr (s.height - 1)) := by
  have hrow : (s.rowAddr 1 ≤ a ∧ a < s.rowAddr 1 + (s.height - 2) * s.stride) ↔
      (s.rowAddr 1 ≤ a ∧ a < s.rowAddr (s.height - 1)) := by
    by_cases h : 2 ≤ s.height
    · rw [← rowAddr_add, show 1 + (s.height - 2) = s.height - 1 by omega]
    · have h0 : s.height - 2 = 0 := by omega
      have := rowAddr_mono s (show s.height - 1 ≤ 1 by omega)
      rw [h0]; omega
  unfold abandonedRange
  split
  · rename_i h
    rw [Bool.and_eq_true, beq_iff_eq] at h
    rcases hc : s.command with i | why
    · cases i <;> simp_all [erodes]
    · simp_all [erodes]
  · rename_i h
    rw [Bool.and_eq_true, beq_iff_eq] at h
    constructor
    · intro h'; simp at h'
    · exact fun h' => absurd ⟨h'.1, h'.2.1⟩ h

/-- The reset input keeps IMEM in canonical form. -/
theorem resetInput_imem_wf {s : State} (h : s.imem.wf) : (resetInput s).imem.wf := Memory.erase_wf h _ _

/-- While a command runs a host transaction changes nothing but `CTRL`, `STATUS` and what the host reads (R43, R65, R107). -/
theorem hostTransaction_busy (x : HostTx) (s : State) (h : s.busy = true) :
    ∃ (c : Ctrl) (st : Status) (d : Word), hostTransaction x s = { s with ctrl := c, status := st, rdata := d } ∧
      (st = s.status ∨ st = { s.status with herr := true } ∨ ∃ v : Word, st = s.status.clearedBy v) := by
  cases x with
  | regWrite off bits v =>
    rcases hostRegWrite_cases off bits v s with ⟨r, -, he⟩ | he | he <;> simp only [hostTransaction, he]
    · cases r <;> simp only [Reg.write, writeOperand, h, if_true]
      case status => exact ⟨_, _, _, rfl, .inr (.inr ⟨v, rfl⟩)⟩
      case ctrl => exact ⟨_, _, _, rfl, .inl rfl⟩
      all_goals first
        | exact ⟨_, _, _, rfl, .inl rfl⟩
        | exact ⟨_, _, _, rfl, .inr (.inl rfl)⟩
    · exact ⟨_, _, _, rfl, .inl rfl⟩
    · exact ⟨_, _, _, rfl, .inr (.inl rfl)⟩
  | regRead off bits =>
    simp only [hostTransaction, hostRegRead]
    split
    · split <;> exact ⟨_, _, _, rfl, .inl rfl⟩
    · exact ⟨_, _, _, rfl, .inr (.inl rfl)⟩
  | imemWrite a v =>
    simp only [hostTransaction, hostImemWrite, imemAccessOk, h]
    exact ⟨_, _, _, rfl, .inr (.inl rfl)⟩
  | imemRead a =>
    simp only [hostTransaction, hostImemRead, imemAccessOk, h]
    exact ⟨_, _, _, rfl, .inr (.inl rfl)⟩

end Sys2Proof.Machine
end

