-- ==== Sys2Proof/Laws/Images.lean ====
section
/-! SUPPORT. Images as rows: the rows of a pass (R160, R161), of the image of a state (R62), and the row that `E_ROW` writes. -/

namespace Sys2Proof.Machine

theorem getD_map_range (f : Nat → Row) (n y : Nat) (h : y < n) : ((List.range n).map f).getD y [] = f y := by
  rw [List.getD_eq_getElem _ _ (by simpa using h), List.getElem_map, List.getElem_range]

/-! ## The image of a state -/

@[simp] theorem length_image (s : State) : s.image.length = s.height := by simp [State.image]

theorem getD_image (s : State) (y : Nat) (h : y < s.height) :
    s.image.getD y [] = s.imem.rowOf (s.rowAddr y) s.stride := getD_map_range _ _ _ h

/-- An image is written when every byte of every row is. -/
theorem imageWritten_iff_rows (s : State) :
    s.imageWritten ↔ ∀ y < s.height, ∀ n < s.stride, (s.imem.get? (s.rowAddr y + n)).isSome = true := by
  constructor
  · intro h y hy n hn
    have h1 := Nat.mul_le_mul_left s.stride (show y + 1 ≤ s.height from hy)
    rw [Nat.mul_add, Nat.mul_one, Nat.mul_comm s.stride y] at h1
    have h2 := h (y * s.stride + n) (by omega)
    unfold State.rowAddr at h2 ⊢
    simpa [Nat.add_assoc] using h2
  · intro h k hk
    have hs : 0 < s.stride := Nat.pos_of_ne_zero fun h0 => by simp [h0] at hk
    have h1 := h (k / s.stride) (Nat.div_lt_of_lt_mul hk) (k % s.stride) (Nat.mod_lt _ hs)
    have h2 : s.rowAddr 0 + k = s.rowAddr (k / s.stride) + k % s.stride := by
      have := Nat.div_add_mod k s.stride
      unfold State.rowAddr; rw [Nat.mul_comm (k / s.stride)]; omega
    rw [h2]; exact h1

/-! ## A pass -/

@[simp] theorem length_erodePass (m : Mask) (rows : List Row) : (erodePass m rows).length = rows.length := by simp [erodePass]

/-- An interior row of a pass (R160). -/
theorem erodePass_interior (m : Mask) (rows : List Row) (y : Nat) (h1 : 1 ≤ y) (h2 : y + 1 < rows.length) :
    (erodePass m rows).getD y [] = erodeRow m (rows.getD (y - 1) []) (rows.getD y []) (rows.getD (y + 1) []) := by
  unfold erodePass
  rw [getD_map_range _ _ _ (by omega), if_pos ⟨h1, h2⟩]

/-- Every other row is kept (R161). -/
theorem erodePass_edge (m : Mask) (rows : List Row) (y : Nat) (h : ¬ (1 ≤ y ∧ y + 1 < rows.length)) :
    (erodePass m rows).getD y [] = rows.getD y [] := by
  unfold erodePass
  by_cases h3 : y < rows.length
  · rw [getD_map_range _ _ _ h3, if_neg h]
  · rw [List.getD_eq_default _ _ (by simpa using h3), List.getD_eq_default _ _ (by simpa using h3)]

@[simp] theorem length_isoImage (n : Nat) (rows : List Row) : (isoImage n rows).length = rows.length := by
  induction n with
  | zero => rfl
  | succ n ih => rw [isoImage, length_erodePass, ih]

/-- Where the window holds the variants of three rows, `E_ROW` writes their erosion (R160, R163). -/
theorem windowRow_eq_erodeRow {s : State} {above cur below : Row} (hc : cur.length = s.stride)
    (h0 : ∀ v, s.windowBuf 0 v = variant above v) (h1 : ∀ v, s.windowBuf 1 v = variant cur v)
    (h2 : ∀ v, s.windowBuf 2 v = variant below v) : windowRow s = erodeRow s.passMask above cur below := by
  unfold windowRow erodeRow
  rw [hc]
  congr 1
  funext r c
  match r with
  | 0 => exact h0 c
  | 1 => exact h1 c
  | 2 => exact h2 c

end Sys2Proof.Machine
end

