-- ==== Sys2Proof/Laws/PerInstr.lean ====
section
/-! SUPPORT. One lemma per command: its fields are well formed, and its word decodes to it, through the decoder and through the
table's numbering. -/

namespace Sys2Proof.Laws

/-- The word of `i` has well-formed fields and decodes to `i` (R84). -/
def RoundTrip.Statement (i : Instr) : Prop :=
  i.wellFormed = true ∧ decode (encode i) = .legal i ∧ decodeTableWord 32 (encode i).toNat = some i

theorem RoundTrip.nop : RoundTrip.Statement .nop := by unfold RoundTrip.Statement; decide
theorem RoundTrip.shl : RoundTrip.Statement .shl := by unfold RoundTrip.Statement; decide
theorem RoundTrip.shr : RoundTrip.Statement .shr := by unfold RoundTrip.Statement; decide
theorem RoundTrip.erode4 : RoundTrip.Statement .erode4 := by unfold RoundTrip.Statement; decide
theorem RoundTrip.erode8 : RoundTrip.Statement .erode8 := by unfold RoundTrip.Statement; decide
theorem RoundTrip.erodem : RoundTrip.Statement .erodem := by unfold RoundTrip.Statement; decide
theorem RoundTrip.erodeIso : RoundTrip.Statement .erodeIso := by unfold RoundTrip.Statement; decide

end Sys2Proof.Laws
end

