-- ==== Sys2Proof/Laws/Schedule.lean ====
section
/-! SUPPORT. The stepper's arithmetic: the choice of R183 where `ISO_DIAG` has the value of R185, and that value step by step. -/

namespace Sys2Proof.Machine

theorem sel8_iff (p : Stepper) : sel8 p = true ↔ p.diag.toNat + 2 ≤ p.index.toNat := decide_eq_true_iff

theorem choice8_iff (i : Nat) : choice8 i = true ↔ 2 ≤ i ∧ i % 2 = 0 := by simp [choice8]

theorem isoDiagAt_le (n : Nat) : isoDiagAt n ≤ n := by unfold isoDiagAt; omega

/-- With `ISO_DIAG` as R185 gives it, the greedy choice is the closed form. -/
theorem sel8_eq_choice8 {p : Stepper} (h : p.diag.toNat = isoDiagAt p.index.toNat) : sel8 p = choice8 p.index.toNat := by
  rw [Bool.eq_iff_iff, sel8_iff, choice8_iff, h, isoDiagAt]; omega

/-- A step adds the credit of 2 exactly where it is 8-connected. -/
theorem isoDiagAt_succ (n : Nat) : isoDiagAt (n + 1) = if choice8 n then isoDiagAt n + 2 else isoDiagAt n := by
  have h := choice8_iff n
  unfold isoDiagAt
  cases hc : choice8 n <;> simp [hc] at h ⊢ <;> omega

/-- `ISO_INDEX` counts without wrapping while it is below `ISO_STEPS` (assumption 12). -/
theorem isoIndex_succ {i n : Word} (h : i.toNat < n.toNat) : (i + 1).toNat = i.toNat + 1 := by
  have h1 := n.isLt
  rw [BitVec.toNat_add]; simp; omega

end Sys2Proof.Machine
end

