-- ==== Sys2Proof/Laws/Validation.lean ====
section
/-! SUPPORT. What a command that passed the checks of R104 guarantees, and the step it takes then. -/

namespace Sys2Proof.Machine

/-- A valid shift: its row fits a buffer, and both ranges lie below `IMEM_BYTES` (R104). -/
theorem validateShift_ok {s : State} (h : validateShift s = .ok) :
    s.shiftLen ≤ s.cfg.maxStride ∧ s.shiftSrc + s.shiftLen ≤ s.cfg.imemBytes ∧
    s.shiftDst + s.shiftLen ≤ s.cfg.imemBytes := by
  unfold validateShift at h
  split at h
  · cases h
  · split at h
    · cases h
    · omega

/-- A valid image: what R104 checks of it, the range as the address after its last row. -/
theorem validateImage_ok {s : State} (h : validateImage s = .ok) :
    s.stride ≠ 0 ∧ s.stride % 8 = 0 ∧ s.height ≠ 0 ∧ s.ops.imgWidth.toNat ≠ 0 ∧ s.ops.imgWidth.toNat ≤ 8 * s.stride ∧
    s.stride ≤ s.cfg.maxStride ∧ s.rowAddr s.height ≤ s.cfg.imemBytes := by
  unfold validateImage at h
  repeat (split at h; · cases h)
  refine ⟨by omega, by omega, by assumption, by omega, by omega, by omega, ?_⟩
  unfold State.rowAddr; rw [Nat.mul_comm]; omega

theorem validateErodem_ok {s : State} (h : validateErodem s = .ok) : s.ops.seMask ≠ 0 ∧ validateImage s = .ok := by
  unfold validateErodem at h
  split at h
  · cases h
  · exact ⟨‹_›, h⟩

/-- The commands that run passes. -/
theorem erodes_cases {c : Decoded} (h : erodes c = true) :
    c = .legal .erode4 ∨ c = .legal .erode8 ∨ c = .legal .erodem ∨ c = .legal .erodeIso := by
  simp [erodes] at h; tauto

/-- A valid erosion command has a valid image. -/
theorem validateImage_of_erodes {s : State} {c : Decoded} (h : erodes c = true) (hv : validate c s = .ok) :
    validateImage s = .ok := by
  rcases erodes_cases h with rfl | rfl | rfl | rfl
  · exact hv
  · exact hv
  · exact (validateErodem_ok hv).2
  · exact hv

/-- Outside `IDLE` the engine is busy (R44). -/
theorem busy_of_engState {s : State} {e : EngState} (h : s.engState = e) (he : e ≠ .idle) : s.busy = true := by
  simp [State.busy, h, he]

/-- The step of a command that passes the checks. -/
theorem step_validate_ok {s : State} (he : s.engState = .validate) (hi : s.inputs = []) (hv : validate s.command s = .ok) :
    step s = .next (beginOf s.command s) := by
  rw [step_of_no_inputs hi, engineTurn_eq_microStep]
  simp only [microStep, he, onValid_eq, hv, if_true]

theorem step_iSelect {s : State} (he : s.engState = .iSelect) (hi : s.inputs = []) : step s = .next (iSelect s) := by
  rw [step_of_no_inputs hi, engineTurn_eq_microStep]; simp only [microStep, he]

theorem step_eInit {s : State} (he : s.engState = .eInit) (hi : s.inputs = []) (h1 : s.rowAddr 3 ≤ s.cfg.imemBytes)
    (h2 : s.stride ≤ s.cfg.maxStride) : step s = .next (initDone s) := by
  rw [step_of_no_inputs hi, engineTurn_eq_microStep]; simp only [microStep, he]
  exact eInit_answers s h1 h2

/-- The step of an `E_ROW` before the last interior row. -/
theorem step_eRow_advances {s : State} (he : s.engState = .eRow) (hi : s.inputs = []) (h1 : s.rowCursor.toNat + 2 < s.height)
    (h2 : s.rowAddr (s.rowCursor.toNat + 3) ≤ s.cfg.imemBytes) (h3 : s.stride ≤ s.cfg.maxStride) :
    step s = .next (rowAdvanced s) := by
  rw [step_of_no_inputs hi, engineTurn_eq_microStep]; simp only [microStep, he]
  exact eRow_advances _ s h1 h2 h3

/-- The step of the `E_ROW` of the last interior row. -/
theorem step_eRow_ends {s : State} (he : s.engState = .eRow) (hi : s.inputs = []) (h1 : s.rowCursor.toNat + 2 = s.height)
    (h2 : s.rowAddr (s.rowCursor.toNat + 1) ≤ s.cfg.imemBytes) (h3 : s.stride ≤ s.cfg.maxStride) :
    step s = .next (passEndOf s.command (rowWritten s)) := by
  rw [step_of_no_inputs hi, engineTurn_eq_microStep]; simp only [microStep, he]
  exact eRow_ends _ s h1 h2 h3

end Sys2Proof.Machine
end

