-- ==== Sys2Proof/Tests/Slice0.lean ====
section
/-! SUPPORT. Tests: decoding, the well-formedness checks, single steps with expected values from spec/95_test_vectors.md, and for
every statement with hypotheses a witness that meets them together. -/

namespace Sys2Proof.Tests

open Sys2Proof Sys2Proof.Machine

/-! ## Decoding: words written out from R80, R82, R83 (RSV, SE, OP) -/

theorem test_decode_nop : decode 0b00000000000000000000000000_00_0000#32 = .legal .nop := by decide
theorem test_decode_shl : decode 0b00000000000000000000000000_00_0001#32 = .legal .shl := by decide
theorem test_decode_shr : decode 0b00000000000000000000000000_00_0010#32 = .legal .shr := by decide
theorem test_decode_erode4 : decode 0b00000000000000000000000000_00_0011#32 = .legal .erode4 := by decide
theorem test_decode_erode8 : decode 0b00000000000000000000000000_01_0011#32 = .legal .erode8 := by decide
theorem test_decode_erodem : decode 0b00000000000000000000000000_10_0011#32 = .legal .erodem := by decide
theorem test_decode_erodeIso : decode 0b00000000000000000000000000_00_0100#32 = .legal .erodeIso := by decide

/-- V-C7 to V-C15: every non-command word, with its reason. -/
theorem test_decode_illegal :
    decode 0x33#32 = .illegal .reservedElement ∧ decode 0x43#32 = .illegal .reservedBits ∧
    decode 0x14#32 = .illegal .elementWithoutErode ∧ decode 0x05#32 = .illegal .reservedOp ∧
    decode 0x0F#32 = .illegal .reservedOp ∧ decode 0x80000003#32 = .illegal .reservedBits ∧
    decode 0x11#32 = .illegal .elementWithoutErode ∧ decode 0x24#32 = .illegal .elementWithoutErode ∧
    decode 0x10#32 = .illegal .elementWithoutErode := by decide

/-! ## WellFormed: one ill-formed term for each check -/

theorem smoke_reservedClear : ({ op := 3, se := 0, rsv := 1 } : CmdFields).reservedClear = false := by decide
theorem smoke_opDefined : ({ op := 5, se := 0, rsv := 0 } : CmdFields).opDefined = false := by decide
theorem smoke_elementDefined : ({ op := 3, se := 3, rsv := 0 } : CmdFields).elementDefined = false := by decide
theorem smoke_elementOnlyForErode : ({ op := 4, se := 1, rsv := 0 } : CmdFields).elementOnlyForErode = false := by decide
theorem smoke_wellFormed_refuses :
    ({ op := 3, se := 0, rsv := 1 } : CmdFields).wellFormed = false ∧ ({ op := 5, se := 0, rsv := 0 } : CmdFields).wellFormed = false ∧
    ({ op := 3, se := 3, rsv := 0 } : CmdFields).wellFormed = false ∧ ({ op := 4, se := 1, rsv := 0 } : CmdFields).wellFormed = false := by
  decide
/-- R8: a size that is no multiple of 8, and a capacity that three rows of IMEM could not hold. -/
theorem smoke_params :
    ¬ ({ imemBytes := 28, maxStride := 8, regBase := 0, imemHostBase := 256 } : Config.Params).wellFormed ∧
    ¬ ({ imemBytes := 32, maxStride := 16, regBase := 0, imemHostBase := 256 } : Config.Params).wellFormed := by decide

/-! ## The states the tests run on: 32 bytes of IMEM, buffers of 8 bytes, an image of 3 rows of 8 bytes at address 0 -/

/-- A row of 8 bytes whose bytes 1 to 7 are 0, as the vectors write rows. -/
def rowB (b : Byte) : Row := b :: List.replicate 7 0

/-- Idle, with an image of rows `a`, `b`, `c`, and a shift of 1 byte at address 8. -/
def idleWith (a b c : Byte) : State :=
  { State.reset with
    cfg := { imemBytes := 32, maxStride := 8, regBase := 0, imemHostBase := 256 }
    ops := {
      imgBase := 0, imgWidth := 8, imgHeight := 3, imgStride := 8, isoSteps := 7, seMask := 0x001, shfSrc := 8, shfDst := 8
      shfLen := 1 }
    cache := { bufs := Vector.replicate 9 (List.replicate 8 0), top := 0 }
    imem := Memory.writeRow [] 0 (rowB a ++ rowB b ++ rowB c) }

/-- The image of V-E1. -/
def full : State := idleWith 0xFF 0xFF 0xFF

/-- `s` with the command word `w` accepted. -/
def ready (w : Word) (s : State) : State := { s with cmd := w, engState := .validate }

/-- `s` at `E_INIT` of command `w` with element `m`. -/
def atInit (w : Word) (m : Mask) (s : State) : State := { s with cmd := w, engState := .eInit, passMask := m }

/-- `s` at the `E_ROW` of row 1, the cache loaded with rows `a`, `b`, `c`. -/
def atRow (w : Word) (m : Mask) (a b c : Byte) : State :=
  { idleWith a b c with
    cmd := w, engState := .eRow, passMask := m, rowCursor := 1
    cache := (((full.cache.load 0 (rowB a)).load 1 (rowB b)).load 2 (rowB c)) }

/-- The state that a step answers, if it answers one, meets `p`. -/
def sat (r : Result) (p : State → Bool) : Bool :=
  match r with
  | .next t => p t
  | .fault _ => false
  | .refused _ => false

/-! ## Single steps -/

/-- V-C1. -/
theorem test_nop_status : sat (exec .nop (ready 0 full)) (fun t => Reg.read t .status == 0x2#32 && t.imem == full.imem) = true := by
  decide
/-- The table's numbering is the word's own (R80): the seven words, and a reserved one. -/
theorem test_decodeTableWord :
    [0x00, 0x01, 0x02, 0x03, 0x13, 0x23, 0x04, 0x33].map (decodeTableWord 32) =
      [some .nop, some .shl, some .shr, some .erode4, some .erode8, some .erodem, some .erodeIso, none] := by decide
/-- P4, transactions 1 and 2: placed after reset, `ERODE4` ends in one step with `E_STRIDE`. -/
theorem test_placed_after_reset :
    sat (step (State.reset.withFetchWord 32 0x03)) (fun t => Reg.read t .status == 0x306#32 && t.inputs == []) = true := by decide
/-- V-S1: `81` becomes `02`. -/
theorem test_shl_row :
    sat (exec .shl { idleWith 0 0x81 0 with cmd := 1, engState := .shift })
      (fun t => t.imem.get? 8 == some 0x02#8 && Reg.read t .status == 0x2#32) = true := by decide
/-- V-S19: a zero-length shift is range-checked. -/
theorem test_shl_range :
    sat (exec .shl (ready 1 { full with ops := { full.ops with shfSrc := 33, shfLen := 0 } }))
      (fun t => Reg.read t .status == 0x706#32) = true := by decide
/-- V-S1: `81` becomes `40`. -/
theorem test_shr_row :
    sat (exec .shr { idleWith 0 0x81 0 with cmd := 2, engState := .shift }) (fun t => t.imem.get? 8 == some 0x40#8) = true := by
  decide
/-- V-S13: `ShiftR(01 AA) = 00 D5`, written one byte below its source. -/
theorem test_shr_overlap :
    sat (exec .shr { idleWith 0 0 0 with
        cmd := 2, engState := .shift, imem := Memory.writeRow [] 0 [0x80, 0x01, 0xAA]
        ops := { full.ops with shfSrc := 1, shfDst := 0, shfLen := 2 } })
      (fun t => t.imem == Memory.writeRow [] 0 [0x00, 0xD5, 0xAA]) = true := by decide
/-- V-E1: row 1 becomes `7E`. -/
theorem test_erode4_row :
    sat (exec .erode4 (atRow 0x03 mask4 0xFF 0xFF 0xFF))
      (fun t => t.imem.rowOf 0 24 == rowB 0xFF ++ rowB 0x7E ++ rowB 0xFF && Reg.read t .rowCursor == 1#32) = true := by decide
/-- V-X2: `S = 12` is no multiple of 8. -/
theorem test_erode4_stride :
    sat (exec .erode4 (ready 0x03 { full with ops := { full.ops with imgStride := 12 } }))
      (fun t => Reg.read t .status == 0x306#32) = true := by decide
/-- V-E3b's corner under the 8-neighbour element: only the centre of a 3×3 block survives. -/
theorem test_erode8_row :
    sat (exec .erode8 (atRow 0x13 mask8 0x38 0x38 0x38)) (fun t => t.imem.get? 8 == some 0x10#8) = true := by decide
/-- V-E6: no interior row, one micro-step. -/
theorem test_erode8_short :
    sat (exec .erode8 (ready 0x13 { full with ops := { full.ops with imgHeight := 2 } }))
      (fun t => Reg.read t .status == 0x2#32 && t.engState == .idle && t.imem == full.imem) = true := by decide
/-- V-E19: position (0,0) reads pixel `x + 1` of the row above. -/
theorem test_erodem_geometry :
    sat (exec .erodem (atRow 0x23 0x001 0x38 0xFF 0x00)) (fun t => t.imem.get? 8 == some 0x70#8) = true := by decide
/-- V-X12: `E_MASK` before `E_STRIDE`. -/
theorem test_erodem_mask :
    sat (exec .erodem (ready 0x23 { full with ops := { full.ops with seMask := 0, imgStride := 12 } }))
      (fun t => Reg.read t .status == 0x206#32) = true := by decide
/-- W1, step 2: the first 8-connected step. -/
theorem test_erodeIso_step2 :
    sat (exec .erodeIso { full with cmd := 4, engState := .iSelect, iso := { index := 2, diag := 0, seq := 0 } })
      (fun t => t.iso == { index := 2, diag := 2, seq := 1 } && t.passMask == mask8 && t.engState == .eInit) = true := by decide
/-- W1, step 3: not strictly less, so 4-connected. -/
theorem test_erodeIso_step3 :
    sat (exec .erodeIso { full with cmd := 4, engState := .iSelect, iso := { index := 3, diag := 2, seq := 1 } })
      (fun t => t.iso == { index := 3, diag := 2, seq := 2 } && t.passMask == mask4) = true := by decide

/-! ## Host, reset, assembler -/

/-- V-X15: bit 9 of `SE_MASK` is reserved. -/
theorem test_seMask_reserved : Reg.read (hostTransaction (.regWrite 0x24 32 0x200) full) .seMask = 0 := by decide
/-- R87: `erode_iso 7` is two register writes. -/
theorem test_assemble :
    (assemble [.erodeIsoArg 7, .ack]).map HostTx.triple =
      [some (.w32, 0x20, some 7), some (.w32, 0x0C, some 4), some (.w32, 0x08, some 0xE)] := by decide
/-- R87 gives no kind to an 8-bit register access (assumption 18). -/
theorem test_triple_other_width : HostTx.triple (.regWrite 0x10 8 0) = none ∧ HostTx.triple (.regRead 0x10 16) = none := by decide
/-- A reset while idle keeps IMEM and clears the registers (R231, R232). -/
theorem test_reset_idle : (resetInput full).imem = full.imem ∧ Reg.read (resetInput full) .imgWidth = 0 := by decide

/-! ## Concrete states that meet the invariants -/

theorem full_inv : Inv full := by
  refine ⟨by decide, Memory.writeRow_wf (by decide) _ _, Memory.writeRow_inRange (by simp) (by decide), by decide, by decide, by decide, by decide, ?_⟩
  constructor <;> simp [full, idleWith, State.reset]

/-- A just accepted command on the full image, whatever the command word. -/
theorem ready_inv (w : Word) : Inv (ready w full) :=
  ⟨full_inv.cfg, full_inv.imemCanonical, full_inv.imemInRange, full_inv.bufferLength, full_inv.errorCode, fun _ => ⟨rfl, rfl⟩,
    full_inv.diagEven, by constructor <;> simp [ready]⟩

theorem shift_inv : Inv { full with cmd := 1, engState := .shift } := by
  refine ⟨by decide, Memory.writeRow_wf (by decide) _ _, Memory.writeRow_inRange (by simp) (by decide), by decide, by decide, by decide, by decide, ?_⟩
  constructor <;> decide

theorem init_inv : Inv (atInit 0x03 mask4 full) := by
  refine ⟨by decide, Memory.writeRow_wf (by decide) _ _, Memory.writeRow_inRange (by simp) (by decide), by decide, by decide, by decide, by decide, ?_⟩
  constructor <;> decide

theorem row_inv : Inv (atRow 0x13 mask8 0xFF 0xFF 0xFF) := by
  refine ⟨by decide, Memory.writeRow_wf (by decide) _ _, Memory.writeRow_inRange (by simp) (by decide), by decide, by decide, by decide, by decide, ?_⟩
  constructor <;> decide

/-- Step 2 of an `ERODE_ISO`. -/
def selecting : State := { full with cmd := 4, engState := .iSelect, iso := { index := 2, diag := 0, seq := 0 } }

theorem select_inv : Inv selecting := by
  refine ⟨by decide, Memory.writeRow_wf (by decide) _ _, Memory.writeRow_inRange (by simp) (by decide), by decide, by decide, by decide, by decide, ?_⟩
  constructor <;> decide

theorem row_window : Window (atRow 0x13 mask8 0xFF 0xFF 0xFF) := by
  have key : ∀ k < 8,
      (atRow 0x13 mask8 0xFF 0xFF 0xFF).imem.get? (8 + k) = some (((atRow 0x13 mask8 0xFF 0xFF 0xFF).windowBuf 1 1).getD k 0) ∧
      (atRow 0x13 mask8 0xFF 0xFF 0xFF).imem.get? (16 + k) = some (((atRow 0x13 mask8 0xFF 0xFF 0xFF).windowBuf 2 1).getD k 0) := by
    decide
  exact ⟨fun _ => by decide, fun _ k hk b hb => Option.some.inj ((key k hk).1.symm.trans hb),
    fun _ k hk b hb => Option.some.inj ((key k hk).2.symm.trans hb)⟩

/-! ## Witnesses: for every statement with hypotheses, a concrete input that meets them together -/

theorem witness_DecodeInvertsEncodeOnSevenWords : ∀ i : Instr, encode i ≠ 0x00000005#32 := by
  intro i; cases i <;> decide

theorem witness_IllegalWordsCompleteWithECmd :
    State.reset.busy = false ∧
    (ready 0x33 full).command = .illegal .reservedElement ∧ (ready 0x33 full).engState = .validate ∧
    (ready 0x33 full).inputs = [] := by decide

theorem witness_StepRunsDecodedCommand :
    decode (ready 1 full).cmd = .legal .shl ∧ (ready 1 full).inputs = [] ∧
    decode { ready 1 full with inputs := [.engine] }.cmd = .legal .shl ∧
    { ready 1 full with inputs := [.engine] }.inputs = .engine :: [] := by decide

theorem witness_CommandWriteAcceptedOrRefused : State.reset.busy = false ∧ (ready 0 full).busy = true := by decide

theorem witness_OperandsConstantWhileBusy :
    (ready 0 full).busy = true ∧
    (0x30#8 ∈ [0x10#8, 0x14#8, 0x18#8, 0x1C#8, 0x20#8, 0x24#8, 0x28#8, 0x2C#8, 0x30#8]) ∧
    (ready 0 full).inputs.head? ≠ some .reset ∧ step (ready 0 full) = .next (complete .ok (ready 0 full)) :=
  ⟨by decide, by decide, by decide, rfl⟩

theorem witness_OperandWriteWhileIdleStores :
    full.busy = false ∧ Reg.seMask ∈ operandRegs ∧ Reg.imgBase ∈ operandRegs ∧ Reg.shfLen ∈ operandRegs ∧
    Reg.seMask ≠ Reg.shfLen := by decide

theorem witness_RegisterAccessWidthAndOffset :
    ((8 : Nat) ≠ 32 ∨ (0x10#8).toNat % 4 ≠ 0) ∧ ((32 : Nat) ≠ 32 ∨ (0x11#8).toNat % 4 ≠ 0) ∧ (0xFC#8).toNat % 4 = 0 := by decide

theorem witness_ReservedAndReadOnlyWritesIgnored :
    ((0x4C#8).toNat % 4 = 0 ∧ 0x4C ≤ (0x4C#8).toNat) ∧ ((0xFC#8).toNat % 4 = 0 ∧ 0x4C ≤ (0xFC#8).toNat) ∧
    (0x48#8 ∈ [0x00#8, 0x34#8, 0x38#8, 0x3C#8, 0x40#8, 0x44#8, 0x48#8]) := by decide

/-- A write of 2 clears `DONE` and leaves `ERR` and `ERRCODE`; `exec` answers a next state. -/
theorem witness_StatusFieldsAndWhoSetsThem :
    ({ full with inputs := [.host (.regWrite 0x08 32 2)] }).inputs = .host (.regWrite 0x08 32 2) :: [] ∧
    step { full with inputs := [.host (.regWrite 0x08 32 2)] } = .next full ∧
    exec .nop (ready 0 full) = .next (complete .ok (ready 0 full)) := ⟨rfl, rfl, rfl⟩

theorem witness_CtrlStoresTwoEnableBits : engineTurn (ready 0 full) = .next (complete .ok (ready 0 full)) := rfl

theorem witness_InterruptFollowsEnablesAndStatus : ({ full with ctrl := ctrlOfWord 1 }).ctrl.ieDone = true := by decide

/-- The last address and the first beyond it. -/
theorem witness_HostByteAccess :
    (full.busy = true ∨ full.cfg.imemBytes ≤ 32) ∧ ((ready 0 full).busy = true ∨ (ready 0 full).cfg.imemBytes ≤ 0) ∧
    full.busy = false ∧ 31 < full.cfg.imemBytes ∧ full.imem.get? 0 = some 0xFF#8 := by decide

theorem witness_ProtocolErrorsAreStickyAndHarmless :
    protocolError (.regWrite 0x10 16 0) full ∧ protocolError (.regRead 0x11 32) full ∧
    protocolError (.regWrite 0x0C 32 0) (ready 0 full) ∧ protocolError (.imemRead 32) full ∧
    ¬ protocolError (.imemRead 31) (hostError full) ∧ (hostTransaction (.imemRead 31) (hostError full)).status.herr = true ∧
    (hostError full).status.herr = true ∧ step (hostError full) = .next (hostError full) ∧
    (∀ v : Word, (hostError full).inputs.head? = some (.host (.regWrite 0x08 32 v)) → v.getLsbD 3 = false) ∧
    (hostError full).inputs.head? ≠ some .reset ∧
    engineTurn (ready 0 (hostError full)) = .next (complete .ok (ready 0 (hostError full))) := by
  refine ⟨.inl (by decide), .inr (by decide), .inr (.inr ⟨by decide, .cmd, by decide, rfl⟩), .inr (by decide), ?_, by decide, rfl,
    rfl, fun v h => (by cases h), by decide, rfl⟩
  rintro (h | h) <;> revert h <;> decide

theorem witness_IdentityAndParametersFixed : step full = .next full := rfl

theorem witness_ShiftLeftTakesNextPixel : 0 < 8 * ([0x81#8] : Row).length ∧ 7 < 8 * ([0x81#8] : Row).length := by decide

theorem witness_ShiftRightTakesPreviousPixel : 0 < 8 * ([0x81#8] : Row).length ∧ 7 < 8 * ([0x81#8] : Row).length := by decide

/-- Two words and a tail byte: the first word, the last word, the tail. -/
theorem witness_ShiftWordAndByteForms :
    0 < (List.replicate 17 0x81#8).length / 8 ∧ 1 < (List.replicate 17 0x81#8).length / 8 ∧
    16 < (List.replicate 17 0x81#8).length := by decide

theorem witness_ShiftRoundTripClearsOneEdge : 1 ≤ ([0x81#8] : Row).length ∧ 7 < 8 * ([0x81#8] : Row).length := by decide

theorem witness_NopCompletes : (ready 0 full).engState = .validate := by decide

/-- `full` with other shift operands, a shift accepted. -/
def shiftOps (src dst len : Word) : State := ready 1 { full with ops := { full.ops with shfSrc := src, shfDst := dst, shfLen := len } }

/-- Each clause at a boundary: one byte too long, one byte too far, the empty row at the end of IMEM, a row up to the end. -/
theorem witness_ShiftValidateOutcomes :
    (shiftOps 0 0 9).engState = .validate ∧ (shiftOps 0 0 9).shiftLen > (shiftOps 0 0 9).cfg.maxStride ∧
    (shiftOps 25 0 8).shiftLen ≤ (shiftOps 25 0 8).cfg.maxStride ∧
    (shiftOps 25 0 8).shiftSrc + (shiftOps 25 0 8).shiftLen > (shiftOps 25 0 8).cfg.imemBytes ∧
    ((shiftOps 32 32 0).shiftSrc + (shiftOps 32 32 0).shiftLen ≤ (shiftOps 32 32 0).cfg.imemBytes ∧
      (shiftOps 32 32 0).shiftDst + (shiftOps 32 32 0).shiftLen ≤ (shiftOps 32 32 0).cfg.imemBytes ∧
      (shiftOps 32 32 0).shiftLen = 0 ∧ (shiftOps 32 32 0).shiftLen ≤ (shiftOps 32 32 0).cfg.maxStride) ∧
    ((shiftOps 24 24 8).shiftSrc + (shiftOps 24 24 8).shiftLen ≤ (shiftOps 24 24 8).cfg.imemBytes ∧
      (shiftOps 24 24 8).shiftDst + (shiftOps 24 24 8).shiftLen ≤ (shiftOps 24 24 8).cfg.imemBytes ∧
      0 < (shiftOps 24 24 8).shiftLen ∧ (shiftOps 24 24 8).shiftLen ≤ (shiftOps 24 24 8).cfg.maxStride) := by decide

/-- An overlapping shift, and one up to the end of IMEM. -/
theorem witness_ShiftStepWritesShiftedSource :
    ({ shiftOps 0 1 8 with engState := .shift }).engState = .shift ∧
    (shiftOps 0 1 8).shiftSrc + (shiftOps 0 1 8).shiftLen ≤ (shiftOps 0 1 8).cfg.imemBytes ∧
    (shiftOps 0 1 8).shiftDst + (shiftOps 0 1 8).shiftLen ≤ (shiftOps 0 1 8).cfg.imemBytes ∧
    (shiftOps 0 1 8).shiftLen ≤ (shiftOps 0 1 8).cfg.maxStride ∧
    (shiftOps 24 24 8).shiftDst + (shiftOps 24 24 8).shiftLen ≤ (shiftOps 24 24 8).cfg.imemBytes := by decide

theorem witness_ShiftCommandMovesPixels :
    Inv (ready 1 full) ∧ Inv (ready 2 full) ∧ (ready 1 full).engState = .validate ∧ (ready 1 full).inputs = [] ∧
    validateShift (ready 1 full) = .ok ∧ 0 < (ready 1 full).shiftLen ∧
    (ready 1 full).imem.holds (ready 1 full).shiftSrc (ready 1 full).shiftLen ∧
    (ready 1 full).command = .legal .shl ∧ (ready 2 full).command = .legal .shr := by
  refine ⟨ready_inv _, ready_inv _, ?_⟩; decide

theorem witness_ValidationReportsFirstFailingCheck :
    erodes (.legal .erode4) = true ∧ erodes (.legal .erode8) = true ∧ erodes (.legal .erodem) = true ∧
    erodes (.legal .erodeIso) = true := by decide

theorem witness_FailedValidationIsPrecise :
    ((ready 0x33 full).engState = .validate ∧ (ready 0x33 full).inputs = [] ∧ validate (ready 0x33 full).command (ready 0x33 full) ≠ .ok) ∧
    (Inv (ready 3 full) ∧ (ready 3 full).busy = true ∧ (ready 3 full).inputs = [] ∧
      ((ready 3 full).engState = .validate → validate (ready 3 full).command (ready 3 full) = .ok)) := by
  refine ⟨by decide, ready_inv _, ?_⟩; decide

/-- `full` with another number of rows, an erosion accepted. -/
def shortImage (h : Word) : State := ready 3 { full with ops := { full.ops with imgHeight := h } }

theorem witness_ValidationReadsOnlyOperands :
    ({ full with draws := 5, rowCursor := 2 } : State).ops = full.ops ∧ ({ full with draws := 5, rowCursor := 2 } : State).cfg = full.cfg ∧
    (shortImage 0).engState = .validate ∧ validate (.legal .erode4) (shortImage 0) ≠ .ok ∧
    sat (exec .erode4 (shortImage 0)) (fun _ => true) = true := by decide

/-- A micro-step that completes, and one that does not. -/
theorem witness_CompletionIsTheLastAction :
    (ready 0 full).busy = true ∧ sat (exec .nop (ready 0 full)) (fun t => !t.busy) = true ∧
    sat (exec .erode4 (ready 3 full)) (fun t => t.busy) = true := by decide

theorem witness_PassBeginsWithTheCommandsElement :
    (shortImage 3).engState = .validate ∧ validate (.legal .erode4) (shortImage 3) = .ok ∧
    validate (.legal .erode8) (shortImage 3) = .ok ∧ validate (.legal .erodem) (shortImage 3) = .ok ∧
    3 ≤ (shortImage 3).height ∧ validate (.legal .erodem) (shortImage 2) = .ok ∧ (shortImage 2).height < 3 := by decide

theorem witness_InitLoadsFirstThreeRows :
    erodes (.legal .erodeIso) = true ∧ (atInit 3 mask4 full).engState = .eInit ∧
    (atInit 3 mask4 full).rowAddr 3 ≤ (atInit 3 mask4 full).cfg.imemBytes ∧
    (atInit 3 mask4 full).stride ≤ (atInit 3 mask4 full).cfg.maxStride := by decide

/-- The same with 4 rows, whose `E_ROW` of row 1 advances the window. -/
def fourRows : State :=
  { atRow 3 mask4 0xFF 0xFF 0xFF with ops := { full.ops with imgHeight := 4 } }

theorem witness_RowStepWritesAndOfActiveBuffers :
    (erodes (.legal .erode4) = true ∧ fourRows.engState = .eRow ∧ fourRows.rowCursor.toNat + 2 < fourRows.height ∧
      fourRows.rowAddr fourRows.height ≤ fourRows.cfg.imemBytes ∧ fourRows.stride ≤ fourRows.cfg.maxStride ∧
      ∀ k : Fin 9, (fourRows.cache.buf k).length = fourRows.cfg.maxStride) ∧
    ((atRow 3 mask4 0xFF 0xFF 0xFF).rowCursor.toNat + 2 = (atRow 3 mask4 0xFF 0xFF 0xFF).height ∧
      (atRow 3 mask4 0xFF 0xFF 0xFF).rowAddr (atRow 3 mask4 0xFF 0xFF 0xFF).height ≤ (atRow 3 mask4 0xFF 0xFF 0xFF).cfg.imemBytes) := by
  decide

theorem witness_ElementPositionGeometry :
    (∀ r : Fin 3, ((fun _ => rowB 0xFF) r : Row).length = 8) ∧ 0 < 8 * 8 ∧ 63 < 8 * 8 := by decide

theorem witness_ErodeCommandLeavesErodePass :
    Inv (ready 3 full) ∧ (ready 3 full).engState = .validate ∧ (ready 3 full).command = .legal .erode4 ∧
    validate (ready 3 full).command (ready 3 full) = .ok ∧ 3 ≤ (ready 3 full).height ∧ (ready 3 full).inputs = [] := by
  refine ⟨ready_inv _, ?_⟩; decide

theorem witness_WindowHoldsOriginalRows :
    Inv (atInit 3 mask4 full) ∧ (atInit 3 mask4 full).engState = .eInit ∧ (atInit 3 mask4 full).inputs = [] ∧
    1 ≤ 1 ∧ 1 + 2 ≤ (atInit 3 mask4 full).height := by
  refine ⟨init_inv, ?_⟩; decide

theorem witness_PassShrinksAndOrdersElements :
    (∀ row ∈ [rowB 0xFF, rowB 0x81, rowB 0x00], row.length = 8) ∧ mask4.getLsbD 4 = true ∧ mask8.getLsbD 4 = true ∧
    (0x028#9 ≠ 0 ∧ ∀ row ∈ [rowB 0, rowB 0, rowB 0], row = List.replicate 8 0) := by decide

/-- V-E5 (padding 0) and V-E5b (padding pixel 6 is 1). -/
theorem witness_EdgeErosionOfFullImage :
    (∀ row ∈ [rowB 0xFC, rowB 0xFC, rowB 0xFC], row.length = 8) ∧ 3 ≤ 6 ∧ 6 ≤ 8 * 8 ∧
    3 ≤ [rowB 0xFC, rowB 0xFC, rowB 0xFC].length ∧ (∀ row ∈ [rowB 0xFC, rowB 0xFC, rowB 0xFC], ∀ x < 6, pix row x = true) ∧
    (∀ row ∈ [rowB 0xFC, rowB 0xFC, rowB 0xFC], ∀ x < 8 * 8, 6 ≤ x → pix row x = false) ∧
    (∀ row ∈ [rowB 0xFE, rowB 0xFE, rowB 0xFE], (∀ x < 6, pix row x = true) ∧ pix row 6 = true) := by decide

theorem witness_ErodemWithBuiltInMasks :
    ({ full with ops := { full.ops with seMask := 0x0BA } }).ops.seMask = 0x0BA#9 ∧
    ({ full with ops := { full.ops with seMask := 0x1FF } }).ops.seMask = 0x1FF#9 := by decide

/-- Step 2 chooses 8, step 3 would choose 4; both heights; and the last `I_SELECT`. -/
theorem witness_SelectChoosesTheElement :
    ((ready 4 full).engState = .validate ∧ validateImage (ready 4 full) = .ok) ∧
    (selecting.engState = .iSelect ∧ selecting.iso.index ≠ selecting.ops.isoSteps ∧
      selecting.iso.diag.toNat + 2 ≤ selecting.iso.index.toNat ∧ 3 ≤ selecting.height) ∧
    (let s := { selecting with iso := { index := 3, diag := 2, seq := 1 }, ops := { full.ops with imgHeight := 2 } };
      s.iso.index.toNat < s.iso.diag.toNat + 2 ∧ s.height < 3) ∧
    ({ selecting with ops := { full.ops with isoSteps := 2 } }).iso.index = 2 := by decide

/-- A pass of `ERODE_ISO` about to begin: `E_INIT` answers a next state, and so does `E_ROW` after it. -/
theorem witness_SelectChoosesTheElement_pass :
    ∃ t u : State, { selecting with engState := .eInit }.engState = .eInit ∧
      exec .erodeIso { selecting with engState := .eInit } = .next t ∧ t.engState = .eRow ∧
      exec .erodeIso t = .next u := ⟨_, _, rfl, rfl, rfl, rfl⟩

theorem witness_ScheduleClosedForm : Inv selecting ∧ selecting.engState = .iSelect ∧ 1 ≤ 1 := by
  refine ⟨select_inv, ?_⟩; decide

theorem witness_ErodeIsoRunsTheSchedule :
    Inv (ready 4 full) ∧ (ready 4 full).engState = .validate ∧ (ready 4 full).command = .legal .erodeIso ∧
    validateImage (ready 4 full) = .ok ∧ (ready 4 full).inputs = [] ∧ (ready 4 full).imageWritten := by
  refine ⟨ready_inv _, ?_⟩; decide

/-- `full` with `ISO_STEPS = 0`, an `ERODE_ISO` accepted. -/
def noSteps : State := ready 4 { full with ops := { full.ops with isoSteps := 0 } }

theorem witness_ZeroStepsAndZeroImage :
    (noSteps.engState = .validate ∧ noSteps.command = .legal .erodeIso ∧ validateImage noSteps = .ok ∧ noSteps.inputs = [] ∧
      noSteps.ops.isoSteps = 0) ∧
    Inv (ready 4 (idleWith 0 0 0)) ∧ (ready 4 (idleWith 0 0 0)).engState = .validate ∧
    (ready 4 (idleWith 0 0 0)).command = .legal .erodeIso ∧ validateImage (ready 4 (idleWith 0 0 0)) = .ok ∧
    (ready 4 (idleWith 0 0 0)).inputs = [] ∧ (ready 4 (idleWith 0 0 0)).imageWritten ∧
    ∀ row ∈ (ready 4 (idleWith 0 0 0)).image, row = List.replicate (ready 4 (idleWith 0 0 0)).stride 0 := by
  refine ⟨by decide, ⟨by decide, Memory.writeRow_wf (by decide) _ _, Memory.writeRow_inRange (by simp) (by decide), by decide,
    by decide, by decide, by decide, by constructor <;> simp [ready]⟩, ?_⟩
  decide

theorem witness_SevenStepsGiveTheLiteralSequence :
    Inv (ready 4 full) ∧ (ready 4 full).engState = .validate ∧ (ready 4 full).command = .legal .erodeIso ∧
    validateImage (ready 4 full) = .ok ∧ (ready 4 full).inputs = [] ∧ (ready 4 full).ops.isoSteps = 7 := by
  refine ⟨ready_inv _, ?_⟩; decide

theorem witness_PowerUpState : Reg.ctrl ≠ .id ∧ Reg.ctrl ≠ .cfgMaxstride ∧ Reg.ctrl ≠ .cfgImembytes := by decide

/-- A reset during a shift to 16 to 23: the last byte of the destination loses its value, the byte before it keeps it; a reset
during an erosion, whose interior row is 8 to 15; one while idle. -/
theorem witness_ResetInputAbandonsTheCommand :
    (let s := { shiftOps 0 16 8 with inputs := [.reset] };
      s.inputs = .reset :: [] ∧ s.busy = true ∧ validate s.command s = .ok ∧ s.command = .legal .shl ∧
      s.shiftDst = 16 ∧ s.shiftLen = 8 ∧ s.imem.get? 23 = some 0x00#8 ∧ (resetInput s).imem.get? 23 = none ∧
      (resetInput s).imem.get? 15 = some 0x00#8) ∧
    (let s := { ready 0x03 full with inputs := [.reset] };
      s.busy = true ∧ validate s.command s = .ok ∧ erodes s.command = true ∧ s.rowAddr 1 = 8 ∧ s.rowAddr (s.height - 1) = 16 ∧
      (resetInput s).imem.get? 8 = none ∧ (resetInput s).imem.get? 16 = some 0xFF#8) ∧
    ({ full with inputs := [.reset] }).busy = false := by decide

/-- A reset in `VALIDATE` of a shift to bytes that nothing has written leaves them without a value (R234). -/
theorem test_reset_keeps_unwritten :
    ({ shiftOps 0 24 8 with inputs := [.reset] } : State).imem.get? 31 = none ∧
    (resetInput { shiftOps 0 24 8 with inputs := [.reset] }).imem.get? 31 = none ∧
    (resetInput { shiftOps 0 24 8 with inputs := [.reset] }).draws = (shiftOps 0 24 8).draws := by decide

/-- Byte 31 of the full image holds no value, to the host and to the engine. -/
theorem witness_UnwrittenBytesAreDrawnAtEveryRead :
    full.busy = false ∧ 31 < full.cfg.imemBytes ∧ full.imem.get? 31 = none ∧ full.imem.get? (24 + 7) = none ∧ 7 < 8 ∧
    sat (shiftRow shiftL 0 (shiftOps 24 0 8)) (fun _ => true) = true := by decide

theorem witness_EngineWritesOnlyItsDestination :
    (∀ k : Fin 9, (full.cache.buf k).length = full.cfg.maxStride) ∧
    sat (exec .shl { full with cmd := 1, engState := .shift }) (fun _ => true) = true ∧
    ¬ engineWrites { full with cmd := 1, engState := .shift } 7 ∧ ¬ engineWrites { full with cmd := 1, engState := .shift } 9 := by
  refine ⟨by decide, by decide, ?_, ?_⟩ <;> simp only [engineWrites] <;> decide

theorem witness_CommandFrames :
    Inv (atInit 0x03 mask4 full) ∧ (atInit 0x03 mask4 full).command = .legal .erode4 ∧
    sat (exec .erode4 (atInit 0x03 mask4 full)) (fun _ => true) = true ∧
    Inv { full with cmd := 1, engState := .shift } ∧ ({ full with cmd := 1, engState := .shift }).command = .legal .shl ∧
    Inv (ready 0 full) ∧ (ready 0 full).command = .legal .nop :=
  ⟨init_inv, by decide, by decide, shift_inv, by decide, ready_inv _, by decide⟩

theorem witness_EveryStepKeepsTheInvariant : Inv selecting ∧ sat (step selecting) (fun _ => true) = true :=
  ⟨select_inv, by decide⟩

theorem witness_EveryStepKeepsTheWindow :
    Inv (atRow 0x13 mask8 0xFF 0xFF 0xFF) ∧ Window (atRow 0x13 mask8 0xFF 0xFF 0xFF) ∧
    sat (step (atRow 0x13 mask8 0xFF 0xFF 0xFF)) (fun _ => true) = true := ⟨row_inv, row_window, by decide⟩

theorem witness_NothingHangsOrTraps : Inv (atRow 0x13 mask8 0xFF 0xFF 0xFF) := row_inv

theorem witness_CommandsEndAfterTheirMicroSteps :
    Inv (ready 4 full) ∧ (ready 4 full).engState = .validate ∧ (ready 4 full).inputs = [] ∧ microSteps (ready 4 full) = 23 :=
  ⟨ready_inv _, by decide, by decide, by decide⟩

/-- A `NOP` while the host writes an operand register: two steps, the first of them the host's. -/
theorem witness_ResultIndependentOfInterleaving :
    let s := { ready 0 full with inputs := [.host (.regWrite 0x10 32 5)] }
    Inv s ∧ Event.reset ∉ s.inputs ∧ (∀ j < 2, ∃ u : State, run j s = .next u ∧ u.busy = true) ∧
    sat (run 2 s) (fun t => t.engState == .idle && t.status.herr) = true := by
  refine ⟨⟨full_inv.cfg, full_inv.imemCanonical, full_inv.imemInRange, full_inv.bufferLength, full_inv.errorCode,
    fun _ => ⟨rfl, rfl⟩, full_inv.diagEven, by constructor <;> simp [ready]⟩, by decide, fun j hj => ?_, by decide⟩
  match j, hj with
  | 0, _ => exact ⟨_, rfl, rfl⟩
  | 1, _ => exact ⟨_, rfl, rfl⟩

theorem witness_UnspecifiedContentsAreInvisible :
    let s := { full with inputs := [.host (.regWrite 0x0C 32 1)] }
    s.engState = .idle ∧ sat (run 3 s) (fun t => t.imem.get? 8 == some 0xFE#8) = true := by decide

end Sys2Proof.Tests
end

section
/-! PROOFS. The invariant `Inv`: what each part of the state may become without breaking it, that either agent's step keeps
it, and that under it no step faults (R15). -/

namespace Sys2Proof.Machine

variable {s : State}

/-! ## `STATUS` -/

@[simp] theorem accepted_done (st : Status) : st.accepted.done = false := rfl
@[simp] theorem accepted_err (st : Status) : st.accepted.err = false := rfl
@[simp] theorem accepted_errCode (st : Status) : st.accepted.errCode = .ok := rfl

/-- `ERR` and `ERRCODE` in step (R24, R106). -/
def Status.inStep (st : Status) : Prop := st.err = true ↔ st.errCode ≠ .ok

theorem Status.inStep_accepted (st : Status) : st.accepted.inStep := by simp [Status.inStep]

theorem Status.inStep_completed {st : Status} (h : st.inStep) (code : ErrCode) : (st.completed code).inStep := by
  by_cases hc : code = .ok
  · subst hc; exact h
  · simp [Status.inStep, completed_error st code hc, hc]

theorem Status.inStep_clearedBy {st : Status} (h : st.inStep) (v : Word) : (st.clearedBy v).inStep := by
  unfold Status.inStep at h
  cases hv : v.getLsbD 2 <;> simp [Status.inStep, Status.clearedBy, hv, h, and_comm]

/-! ## `EngineFits`: what it does not read, and how each engine state establishes it -/

/-- `EngineFits` reads the operands, `CMD`, the parameters and the engine's registers alone. -/
theorem EngineFits.frame (h : EngineFits s) (ctrl : Ctrl) (st : Status) (c : Cache) (m : Memory) (d : Nat) (r : Word)
    (evs : List Event) :
    EngineFits { s with ctrl := ctrl, status := st, cache := c, imem := m, draws := d, rdata := r, inputs := evs } :=
  ⟨h.shift, h.pass, h.row, h.select, h.stepping⟩

/-- Before and after a command's work nothing is asked of the engine. -/
theorem engineFits_of_resting (he : s.engState = .idle ∨ s.engState = .validate) : EngineFits s := by
  constructor <;> rcases he with he | he <;> simp [he]

theorem engineFits_of_shift (he : s.engState = .shift) (hc : s.command = .legal .shl ∨ s.command = .legal .shr)
    (hv : validateShift s = .ok) (hl : 0 < s.shiftLen) : EngineFits s := by
  constructor <;> simp [he, hc, hv, hl]

/-- `I_SELECT` after `n` steps. -/
theorem engineFits_of_iSelect {n : Nat} (he : s.engState = .iSelect) (hc : s.command = .legal .erodeIso)
    (hv : validateImage s = .ok) (hn : s.iso.index.toNat = n) (hi : n ≤ s.ops.isoSteps.toNat)
    (hd : s.iso.diag.toNat = isoDiagAt n) (hq : s.iso.seq = isoSeqAt n) : EngineFits s := by
  constructor <;> simp [he, hc, hv, hn, hi, hd, hq]

theorem expectedMask_erodeIso (hc : s.command = .legal .erodeIso) : expectedMask s = isoMask s.iso.index.toNat := by
  simp only [expectedMask, hc]

/-- `E_INIT` of a command with one pass. -/
theorem engineFits_of_singlePass {i : Instr} (he : s.engState = .eInit) (hc : s.command = .legal i)
    (hi : i = .erode4 ∨ i = .erode8 ∨ i = .erodem) (hv : validate s.command s = .ok) (hh : 3 ≤ s.height)
    (hm : s.passMask = passMaskOf s i) : EngineFits s := by
  have hmask : passMaskOf s i = expectedMask s := by
    rcases hi with rfl | rfl | rfl <;> simp only [expectedMask, hc, passMaskOf]
  have herodes : erodes s.command = true ∧ s.command ≠ .legal .erodeIso := by
    rcases hi with rfl | rfl | rfl <;> rw [hc] <;> decide
  constructor <;> simp [he, herodes, hv, hh, hm, hmask]

/-- `E_INIT` of a pass of `ERODE_ISO`, whose choice `I_SELECT` has counted (R183). -/
theorem engineFits_of_isoPass (he : s.engState = .eInit) (hc : s.command = .legal .erodeIso) (hv : validateImage s = .ok)
    (hh : 3 ≤ s.height) (hm : s.passMask = isoMask s.iso.index.toNat) (hi : s.iso.index.toNat < s.ops.isoSteps.toNat)
    (hd : s.iso.diag.toNat = isoDiagAt (s.iso.index.toNat + 1)) (hq : s.iso.seq = isoSeqAt (s.iso.index.toNat + 1)) :
    EngineFits s := by
  constructor <;> simp [he, hc, hv, hh, hm, hi, hd, hq, erodes, validate, expectedMask_erodeIso hc]

/-- A pass goes on to any of its interior rows. -/
theorem EngineFits.toRow (h : EngineFits s) (hp : s.engState = .eInit ∨ s.engState = .eRow) {y : Word} (h1 : 1 ≤ y.toNat)
    (h2 : y.toNat + 2 ≤ s.height) : EngineFits { s with rowCursor := y, engState := .eRow } where
  shift := by simp
  pass _ := h.pass hp
  row _ := ⟨h1, h2⟩
  select := by simp
  stepping _ := h.stepping hp

/-! ## The stepper (R183, R185) -/

theorem isoDiagAt_even (n : Nat) : isoDiagAt n % 2 = 0 := by unfold isoDiagAt; omega

/-- A choice brings `ISO_DIAG` to its value after the step, without wrapping (assumption 12). -/
theorem chosenDiag_toNat {p : Stepper} {n : Word} (hi : p.index.toNat < n.toNat)
    (hd : p.diag.toNat = isoDiagAt p.index.toNat) :
    (chosenDiag (sel8 p) p.diag).toNat = isoDiagAt (p.index.toNat + 1) := by
  have hn := n.isLt
  have hle := isoDiagAt_le (p.index.toNat + 1)
  rw [sel8_eq_choice8 hd]
  rw [isoDiagAt_succ] at hle ⊢
  cases hb : choice8 p.index.toNat with
  | false => exact hd
  | true =>
    have hstep : (BitVec.ofNat 32 Config.diagStep).toNat = 2 := rfl
    simp only [chosenDiag, hb, if_true, BitVec.toNat_add, hd, hstep] at hle ⊢
    exact Nat.mod_eq_of_lt (by omega)

/-- A choice is shifted into `ISO_SEQ` (R37). -/
theorem chosenSeq_eq {p : Stepper} (hd : p.diag.toNat = isoDiagAt p.index.toNat) (hq : p.seq = isoSeqAt p.index.toNat) :
    (p.seq <<< 1) ||| (BitVec.ofBool (sel8 p)).setWidth 32 = isoSeqAt (p.index.toNat + 1) := by
  rw [sel8_eq_choice8 hd, hq, isoSeqAt]

/-! ## What may change under `Inv` -/

/-- The invariant says nothing of `CTRL`, of the model's own fields, or of the events still to come. -/
theorem Inv.frame (h : Inv s) (ctrl : Ctrl) (d : Nat) (r : Word) (evs : List Event) :
    Inv { s with ctrl := ctrl, draws := d, rdata := r, inputs := evs } :=
  { h with engine := h.engine.frame .. }

theorem Inv.withStatus (h : Inv s) {st : Status} (he : st.inStep)
    (hb : s.busy = true → st.done = false ∧ st.err = false) : Inv { s with status := st } :=
  { h with errorCode := he, busyFlags := hb, engine := h.engine.frame .. }

theorem Inv.withImem (h : Inv s) {m : Memory} (hm : m.wf) (hr : ∀ c ∈ m, c.1 < s.cfg.imemBytes) : Inv { s with imem := m } :=
  { h with imemCanonical := hm, imemInRange := hr, engine := h.engine.frame .. }

theorem Inv.withCache (h : Inv s) {c : Cache} (hc : ∀ k, (c.buf k).length = s.cfg.maxStride) : Inv { s with cache := c } :=
  { h with bufferLength := hc, engine := h.engine.frame .. }

/-- The engine's registers may become whatever fits the command, as long as the engine is running already. -/
theorem Inv.withEngine (h : Inv s) (hb : s.busy = true) {iso : Stepper} {y : Word} {m : Mask} {e : EngState}
    (hd : iso.diag.toNat % 2 = 0)
    (hf : EngineFits { s with iso := iso, rowCursor := y, engState := e, passMask := m }) :
    Inv { s with iso := iso, rowCursor := y, engState := e, passMask := m } :=
  { h with busyFlags := fun _ => h.busyFlags hb, diagEven := hd, engine := hf }

/-- A pass under way goes on to an interior row, whatever the cache then holds. -/
theorem Inv.toRow (h : Inv s) (hp : s.engState = .eInit ∨ s.engState = .eRow) {c : Cache} {d : Nat} {y : Word} {e : EngState}
    (hc : ∀ k, (c.buf k).length = s.cfg.maxStride) (he : e = .eRow) (h1 : 1 ≤ y.toNat) (h2 : y.toNat + 2 ≤ s.height) :
    Inv { s with cache := c, draws := d, rowCursor := y, engState := e } := by
  subst he
  have hb : s.busy = true := hp.elim (busy_of_engState · (by decide)) (busy_of_engState · (by decide))
  exact { h with
    bufferLength := hc
    busyFlags := fun _ => h.busyFlags hb
    engine := (h.engine.toRow hp h1 h2).frame .. }

theorem Inv.memWrite (h : Inv s) {a : Nat} {bs : Row} (ha : a + bs.length ≤ s.cfg.imemBytes) : Inv (memWrite a bs s) :=
  h.withImem (Memory.writeRow_wf h.imemCanonical a bs) (Memory.writeRow_inRange h.imemInRange ha)

theorem Inv.complete (h : Inv s) (code : ErrCode) : Inv (complete code s) :=
  { h with
    errorCode := Status.inStep_completed h.errorCode code
    busyFlags := by simp [State.busy]
    engine := engineFits_of_resting (.inl rfl) }

/-! ## The host's steps -/

theorem Inv.hostError (h : Inv s) : Inv (hostError s) := h.withStatus h.errorCode h.busyFlags

theorem Inv.accept (h : Inv s) (w : Word) : Inv (accept w s) :=
  { h with
    errorCode := Status.inStep_accepted s.status
    busyFlags := by simp
    engine := engineFits_of_resting (.inr rfl) }

/-- A `STATUS` write only clears flags (R24). -/
theorem Inv.clearStatus (h : Inv s) (v : Word) : Inv { s with status := s.status.clearedBy v } := by
  refine h.withStatus (Status.inStep_clearedBy h.errorCode v) fun hb => ?_
  obtain ⟨hdone, herr⟩ := h.busyFlags hb
  simp [Status.clearedBy, hdone, herr]

theorem engState_of_not_busy (h : ¬ s.busy = true) : s.engState = .idle := by simpa [State.busy] using h

theorem Inv.writeOperand (h : Inv s) (ops : Operands) : Inv (writeOperand ops s) := by
  unfold Machine.writeOperand
  split
  case isTrue => exact h.hostError
  case isFalse hb => exact { h with engine := engineFits_of_resting (.inl (engState_of_not_busy hb)) }

theorem Inv.regWrite (h : Inv s) (v : Word) (r : Reg) : Inv (r.write v s) := by
  cases r
  case ctrl => exact h.frame ..
  case status => exact h.clearStatus v
  case cmd =>
    simp only [Reg.write]
    split
    · exact h.hostError
    · exact h.accept v
  case imgBase | imgWidth | imgHeight | imgStride | isoSteps | seMask | shfSrc | shfDst | shfLen => exact h.writeOperand _
  case id | isoIndex | isoDiag | isoSeq | rowCursor | cfgMaxstride | cfgImembytes => exact h

/-- Every host transaction keeps the invariant. -/
theorem Inv.hostTransaction (h : Inv s) (x : HostTx) : Inv (hostTransaction x s) := by
  cases x with
  | regWrite off bits v =>
    rcases hostRegWrite_cases off bits v s with ⟨r, -, e⟩ | e | e <;> simp only [Machine.hostTransaction, e]
    · exact h.regWrite v r
    · exact h
    · exact h.hostError
  | regRead off bits =>
    simp only [Machine.hostTransaction, hostRegRead]
    split
    · split <;> exact h.frame ..
    · exact h.hostError.frame ..
  | imemWrite a v =>
    simp only [Machine.hostTransaction, hostImemWrite]
    split
    case isTrue ok =>
      obtain ⟨-, ha⟩ : s.busy = false ∧ a < s.cfg.imemBytes := by simpa [imemAccessOk] using ok
      exact h.memWrite (bs := [v]) ha
    case isFalse => exact h.hostError
  | imemRead a =>
    simp only [Machine.hostTransaction, hostImemRead]
    split
    · exact h.frame ..
    · exact h.hostError.frame ..

/-- The reset input keeps the invariant: the parameters stay, IMEM loses bytes, all else is as R231 (R230, R232). -/
theorem Inv.resetInput (h : Inv s) : Inv (resetInput s) where
  cfg := h.cfg
  imemCanonical := resetInput_imem_wf h.imemCanonical
  imemInRange c hc := h.imemInRange c (Memory.mem_of_mem_erase hc)
  bufferLength k := by simp [Machine.resetInput, Cache.buf]
  errorCode := Status.inStep_accepted State.reset.status
  busyFlags hb := by simp [State.busy] at hb
  diagEven := rfl
  engine := engineFits_of_resting (.inl rfl)

/-! ## The engine's steps -/

/-- A valid command begins its work in a state that fits it (R101). -/
theorem Inv.beginOf (h : Inv s) (he : s.engState = .validate) (hv : validate s.command s = .ok) :
    Inv (beginOf s.command s) := by
  have hb : s.busy = true := busy_of_engState he (by decide)
  rcases beginOf_cases s.command s with ⟨code, e, -⟩ | ⟨hc, hl, e⟩ | ⟨i, hc, hi, ⟨-, e⟩ | ⟨hh, e⟩⟩ | ⟨hc, e⟩ <;> rw [e]
  · exact h.complete code
  · refine h.withEngine hb h.diagEven (engineFits_of_shift rfl hc ?_ hl)
    rcases hc with hc | hc <;> rw [hc] at hv <;> exact hv
  · exact (h.withEngine (m := passMaskOf s i) hb h.diagEven (engineFits_of_resting (.inr he))).complete .ok
  · exact h.withEngine hb h.diagEven (engineFits_of_singlePass rfl hc hi hv hh rfl)
  · refine h.withEngine hb rfl (engineFits_of_iSelect (n := 0) rfl hc ?_ rfl (Nat.zero_le _) rfl rfl)
    rw [hc] at hv; exact hv

/-- What every pass relies on: its rows fit the buffers and lie within IMEM (R104). -/
theorem Inv.passRange (h : Inv s) (hp : s.engState = .eInit ∨ s.engState = .eRow) :
    3 ≤ s.height ∧ s.stride ≤ s.cfg.maxStride ∧ s.rowAddr s.height ≤ s.cfg.imemBytes := by
  obtain ⟨herodes, hv, hh, -⟩ := h.engine.pass hp
  obtain ⟨-, -, -, -, -, hs, hr⟩ := validateImage_ok (validateImage_of_erodes herodes hv)
  exact ⟨hh, hs, hr⟩

theorem Inv.shiftRow {f : Row → Row} {k : Fin 9} {t : State} (h : Inv s) (hf : ∀ bs, (f bs).length = bs.length)
    (ht : shiftRow f k s = .next t) : Inv t := by
  obtain ⟨-, hdst, hlen, rfl⟩ := shiftRow_next ht
  have hfit (j : Fin 9) : s.shiftLen ≤ (s.cache.buf j).length := by rw [h.bufferLength]; exact hlen
  have hcache : Inv { s with cache :=
      (s.cache.write 1 (memRead s s.shiftSrc s.shiftLen)).write k (f (memRead s s.shiftSrc s.shiftLen)) } := by
    refine h.withCache fun j => ?_
    have h1 (j) : ((s.cache.write 1 (memRead s s.shiftSrc s.shiftLen)).buf j).length = s.cfg.maxStride := by
      rw [Cache.length_write _ _ _ _ (by simpa using hfit 1), h.bufferLength]
    rw [Cache.length_write _ _ _ _ (by rw [h1]; simpa [hf] using hlen), h1]
  exact ((hcache.frame ..).memWrite (by simpa [hf] using hdst)).complete .ok

theorem Inv.initDone (h : Inv s) (he : s.engState = .eInit) : Inv (initDone s) := by
  have hp : s.engState = .eInit ∨ s.engState = .eRow := .inl he
  obtain ⟨hh, hs, -⟩ := h.passRange hp
  rw [initDone_eq]
  exact h.toRow hp (nbcInit_length s _ h.bufferLength hs) rfl (by decide) hh

/-- Writing the row at `ROW_CURSOR`, an interior row, stays within IMEM. -/
theorem Inv.rowWritten (h : Inv s) (he : s.engState = .eRow) : Inv (rowWritten s) := by
  obtain ⟨-, hs, hr⟩ := h.passRange (.inr he)
  obtain ⟨-, hy⟩ := h.engine.row he
  refine h.memWrite ?_
  rw [length_windowRow s _ h.bufferLength hs, ← rowAddr_succ]
  exact (rowAddr_mono s (by omega)).trans hr

theorem Inv.rowAdvanced (h : Inv s) (he : s.engState = .eRow) (hlt : s.rowCursor.toNat + 2 < s.height) :
    Inv (rowAdvanced s) := by
  obtain ⟨-, hs, -⟩ := h.passRange (.inr he)
  have hsucc := rowCursor_succ hlt
  rw [rowAdvanced_eq]
  exact (h.rowWritten he).toRow (.inr he) (nbcAdvance_length (Machine.rowWritten s) _ _ h.bufferLength hs) he (by omega)
    (show (s.rowCursor + 1).toNat + 2 ≤ s.height by omega)

/-- The end of a pass completes the command, or counts a step of `ERODE_ISO` and selects the next (R101, R183). -/
theorem Inv.passEnd (h : Inv s) (he : s.engState = .eRow) : Inv (passEndOf s.command s) := by
  rcases passEndOf_cases s.command s with ⟨-, e⟩ | ⟨hc, e⟩ <;> rw [e]
  · exact h.complete .ok
  · obtain ⟨-, hv, -, -⟩ := h.engine.pass (.inr he)
    obtain ⟨hi, hd, hq⟩ := h.engine.stepping (.inr he) hc
    rw [hc] at hv
    exact h.withEngine (busy_of_engState he (by decide)) h.diagEven
      (engineFits_of_iSelect rfl hc hv (isoIndex_succ hi) hi hd hq)

theorem Inv.eRow {t : State} (h : Inv s) (he : s.engState = .eRow) (ht : eRow (passEndOf s.command) s = .next t) : Inv t := by
  obtain ⟨-, ⟨hlt, -, rfl⟩ | ⟨-, -, rfl⟩⟩ := eRow_next ht
  · exact h.rowAdvanced he hlt
  · exact (h.rowWritten he).passEnd he

/-- `I_SELECT` completes the command, or counts a choice and goes on to its pass, or to the next choice where the image has
no interior row (R183). -/
theorem Inv.iSelect (h : Inv s) (he : s.engState = .iSelect) : Inv (iSelect s) := by
  have hb : s.busy = true := busy_of_engState he (by decide)
  obtain ⟨hc, hv, hi, hd, hq⟩ := h.engine.select he
  have hlt (hne : s.iso.index ≠ s.ops.isoSteps) : s.iso.index.toNat < s.ops.isoSteps.toNat :=
    lt_of_le_of_ne hi fun heq => hne (BitVec.eq_of_toNat_eq heq)
  have hdiag (hne) := chosenDiag_toNat (hlt hne) hd
  have heven (hne : s.iso.index ≠ s.ops.isoSteps) : (chosenDiag (sel8 s.iso) s.iso.diag).toNat % 2 = 0 := by
    rw [hdiag hne]; exact isoDiagAt_even _
  rcases iSelect_cases s with ⟨-, e⟩ | ⟨hne, -, e⟩ | ⟨hne, hh, e⟩ <;> rw [e]
  · exact h.complete .ok
  · exact h.withEngine hb (heven hne)
      (engineFits_of_iSelect rfl hc hv (isoIndex_succ (hlt hne)) (hlt hne) (hdiag hne) (chosenSeq_eq hd hq))
  · have hmask : chosenMask (sel8 s.iso) = isoMask s.iso.index.toNat := by rw [sel8_eq_choice8 hd]; rfl
    exact h.withEngine hb (heven hne)
      (engineFits_of_isoPass rfl hc hv hh hmask (hlt hne) (hdiag hne) (chosenSeq_eq hd hq))

/-- The engine's turn keeps the invariant. -/
theorem Inv.engineTurn {t : State} (h : Inv s) (ht : engineTurn s = .next t) : Inv t := by
  rcases engineTurn_next ht with
    ⟨-, rfl⟩ | ⟨-, -, rfl⟩ | ⟨he, hv, rfl⟩ | ⟨-, -, ht⟩ | ⟨-, -, ht⟩ | ⟨he, ht⟩ | ⟨he, ht⟩ | ⟨he, rfl⟩
  · exact h
  · exact h.complete _
  · exact h.beginOf he hv
  · exact h.shiftRow length_shiftL ht
  · exact h.shiftRow length_shiftR ht
  · obtain ⟨-, -, rfl⟩ := eInit_next ht
    exact h.initDone he
  · exact h.eRow he ht
  · exact h.iSelect he

/-- Every step of either agent keeps the invariant. -/
theorem Inv.step {t : State} (h : Inv s) (ht : step s = .next t) : Inv t := by
  rcases step_next ht with ⟨-, ht⟩ | ⟨rest, -, ht⟩ | ⟨x, rest, -, rfl⟩ | ⟨rest, -, rfl⟩
  · exact h.engineTurn ht
  · exact (h.frame _ _ _ rest).engineTurn ht
  · exact (h.frame _ _ _ rest).hostTransaction x
  · exact (h.frame _ _ _ rest).resetInput

/-- Settles O51: the engine's turn, a host transaction and the reset input each keep the invariant. -/
theorem everyStepKeepsTheInvariant : Obligations.EveryStepKeepsTheInvariant := fun _ _ h ht => h.step ht

/-! ## No fault (R15) -/

/-- Under the invariant the engine always has a micro-step of R101, and validation has ruled out every range fault. -/
theorem Inv.engineTurn_answers (h : Inv s) : ∃ t, Machine.engineTurn s = .next t := by
  rw [engineTurn_eq_microStep]
  unfold microStep
  cases he : s.engState with
  | idle => exact ⟨_, rfl⟩
  | validate => exact ⟨_, rfl⟩
  | shift =>
    obtain ⟨hc, hv, -⟩ := h.engine.shift he
    obtain ⟨hlen, hsrc, hdst⟩ := validateShift_ok hv
    rcases hc with hc | hc <;> rw [hc] <;> exact ⟨_, shiftRow_answers _ _ s hsrc hdst hlen⟩
  | eInit =>
    obtain ⟨hh, hs, hr⟩ := h.passRange (.inl he)
    exact ⟨_, eInit_answers s ((rowAddr_mono s hh).trans hr) hs⟩
  | eRow =>
    obtain ⟨-, hs, hr⟩ := h.passRange (.inr he)
    obtain ⟨-, hy⟩ := h.engine.row he
    rcases Nat.lt_or_eq_of_le hy with hlt | heq
    · exact ⟨_, eRow_advances _ s hlt ((rowAddr_mono s hlt).trans hr) hs⟩
    · exact ⟨_, eRow_ends _ s heq ((rowAddr_mono s (by omega)).trans hr) hs⟩
  | iSelect => exact ⟨_, rfl⟩

/-- Settles O53: the host's step and the reset always answer, and so does the engine's turn under the invariant. -/
theorem nothingHangsOrTraps : Obligations.NothingHangsOrTraps := by
  intro s h
  unfold Machine.step
  split
  · exact h.engineTurn_answers
  · exact (h.frame _ _ _ _).engineTurn_answers
  · exact ⟨_, rfl⟩
  · exact ⟨_, rfl⟩

end Sys2Proof.Machine
end

section
/-! PROOFS. The register map (R21 to R43): which register an offset selects, what a write of each kind of register does, and
what reads return afterwards. -/

namespace Sys2Proof.Machine

variable {s t : State}

/-! ## Offsets -/

theorem Reg.offset_le (r : Reg) : r.offset.toNat ≤ 0x48 := by cases r <;> decide

/-- The offsets above the last register are reserved (R41). -/
theorem Reg.ofOffset_reserved {off : BitVec 8} (h : 0x4C ≤ off.toNat) : Reg.ofOffset off = none := by
  refine List.find?_eq_none.2 fun r _ hr => ?_
  have := r.offset_le
  rw [beq_iff_eq.1 hr] at this
  omega

theorem regAccessOk_iff (off : BitVec 8) (bits : Nat) : regAccessOk off bits = true ↔ bits = 32 ∧ off.toNat % 4 = 0 := by
  simp [regAccessOk]

/-! ## What a write does -/

/-- A write to a read-only register does nothing (R41). -/
theorem Reg.write_readOnly {r : Reg} (hr : r ∈ readOnlyRegs) (v : Word) (s : State) : r.write v s = s := by
  revert r
  simp [readOnlyRegs, Reg.write]

/-- `SE_MASK` reads as its nine bits (R31). -/
theorem setWidth_seMask (m : Mask) : m.setWidth 32 = 0#23 ++ m := by
  simp [BitVec.setWidth_eq_append (show 9 ≤ 32 by omega)]

/-- What `SE_MASK` stores of a word reads back as the word's bits 8:0 (R31). -/
theorem setWidth_setWidth_seMask (v : Word) : (v.setWidth 9).setWidth 32 = v &&& 0x1FF#32 := by
  have h := Nat.and_two_pow_sub_one_eq_mod v.toNat 9
  refine BitVec.eq_of_toNat_eq ?_
  simp only [BitVec.toNat_setWidth, BitVec.toNat_and]
  norm_num at h ⊢
  omega

/-- The operand registers after a write of `v` to `r` that is taken (R26 to R34). -/
def Operands.put (o : Operands) (v : Word) : Reg → Operands
  | .imgBase => { o with imgBase := v }
  | .imgWidth => { o with imgWidth := v }
  | .imgHeight => { o with imgHeight := v }
  | .imgStride => { o with imgStride := v }
  | .isoSteps => { o with isoSteps := v }
  | .seMask => { o with seMask := v.setWidth 9 }
  | .shfSrc => { o with shfSrc := v }
  | .shfDst => { o with shfDst := v }
  | .shfLen => { o with shfLen := v }
  | _ => o

/-- The nine operand registers, as cases. -/
theorem mem_operandRegs {r : Reg} : r ∈ operandRegs ↔
    r = .imgBase ∨ r = .imgWidth ∨ r = .imgHeight ∨ r = .imgStride ∨ r = .isoSteps ∨ r = .seMask ∨ r = .shfSrc ∨
      r = .shfDst ∨ r = .shfLen := by
  simp [operandRegs]

/-- A write to an operand register (R43). -/
theorem Reg.write_operand {r : Reg} (hr : r ∈ operandRegs) (v : Word) (s : State) :
    r.write v s = writeOperand (s.ops.put v r) s := by
  rcases mem_operandRegs.1 hr with rfl | rfl | rfl | rfl | rfl | rfl | rfl | rfl | rfl <;> rfl

theorem writeOperand_busy (h : s.busy = true) (o : Operands) : writeOperand o s = hostError s := if_pos h

theorem writeOperand_idle (h : s.busy = false) (o : Operands) : writeOperand o s = { s with ops := o } := by
  simp [writeOperand, h]

/-- A register that is no operand register does not read the operands. -/
theorem Reg.read_ops {r : Reg} (hr : r ∉ operandRegs) (o : Operands) (s : State) :
    Reg.read { s with ops := o } r = Reg.read s r := by
  cases r <;> first | rfl | exact absurd (by decide) hr

/-- An operand register reads back what was stored (R26 to R34). -/
theorem Reg.read_put_self {r : Reg} (hr : r ∈ operandRegs) (v : Word) (s : State) :
    Reg.read { s with ops := s.ops.put v r } r = if r = .seMask then v &&& 0x1FF#32 else v := by
  by_cases h : r = .seMask
  · subst h
    exact setWidth_setWidth_seMask v
  · rw [if_neg h]
    rcases mem_operandRegs.1 hr with rfl | rfl | rfl | rfl | rfl | rfl | rfl | rfl | rfl <;> first | rfl | exact absurd rfl h

/-- A store to one register leaves what every other register reads as. -/
theorem Reg.read_put_ne {r r' : Reg} (h : r' ≠ r) (v : Word) (s : State) :
    Reg.read { s with ops := s.ops.put v r } r' = Reg.read s r' := by
  by_cases hr' : r' ∈ operandRegs
  · rcases mem_operandRegs.1 hr' with rfl | rfl | rfl | rfl | rfl | rfl | rfl | rfl | rfl <;>
      cases r <;> first | rfl | exact absurd rfl h
  · exact Reg.read_ops hr' _ s

/-! ## Acceptance and the operand registers -/

theorem hostTransaction_cmdWrite (w : Word) (s : State) :
    hostTransaction (.regWrite 0x0C#8 32 w) s = if s.busy then hostError s else accept w s :=
  hostTransaction_regWrite .cmd w s

/-- Settles O6: a `CMD` write is acceptance while idle and a protocol error while busy. -/
theorem commandWriteAcceptedOrRefused : Obligations.CommandWriteAcceptedOrRefused := by
  refine ⟨fun s w h => ?_, fun s w h => ?_, hostTransaction_regRead .cmd, rfl⟩
  · rw [hostTransaction_cmdWrite, h]; rfl
  · rw [hostTransaction_cmdWrite, h]; rfl

/-- Settles O8: the write is that of `Operands.put`, taken while idle. -/
theorem operandWriteWhileIdleStores : Obligations.OperandWriteWhileIdleStores := by
  intro s r v hs hr
  rw [hostTransaction_regWrite, Reg.write_operand hr, writeOperand_idle hs]
  exact ⟨Reg.read_put_self hr v s, fun r' h => Reg.read_put_ne h v s, rfl⟩

/-! ## Access width, offsets and the register map -/

/-- A register access of another width or offset is a protocol error (R42). -/
theorem hostTransaction_badAccess {off : BitVec 8} {bits : Nat} (h : bits ≠ 32 ∨ off.toNat % 4 ≠ 0) (v : Word)
    (s : State) :
    hostTransaction (.regWrite off bits v) s = hostError s ∧
    hostTransaction (.regRead off bits) s = { hostError s with rdata := 0 } := by
  have hbad : ¬ regAccessOk off bits = true := by
    rw [regAccessOk_iff]; tauto
  exact ⟨if_neg hbad, if_neg hbad⟩

/-- A register read of the defined width and a multiple-of-4 offset has no side effect (R42). -/
theorem hostTransaction_regRead_rdata {off : BitVec 8} (h : off.toNat % 4 = 0) (s : State) :
    hostTransaction (.regRead off 32) s = { s with rdata := (hostTransaction (.regRead off 32) s).rdata } := by
  have hok : regAccessOk off 32 = true := (regAccessOk_iff off 32).2 ⟨rfl, h⟩
  simp only [hostTransaction, hostRegRead, hok, if_true]
  split <;> rfl

/-- Settles O9: the offsets listed are those of `Reg.all`, and a 32-bit read there returns `Reg.read`. -/
theorem registerAccessWidthAndOffset : Obligations.RegisterAccessWidthAndOffset := by
  refine ⟨fun s off bits v h => hostTransaction_badAccess h v s, fun s off h => hostTransaction_regRead_rdata h s,
    fun s off r h => ?_, fun s => ?_⟩
  · have hmap : (off, r) ∈ Reg.all.map fun r => (r.offset, r) := h
    obtain ⟨r', -, hr⟩ := List.mem_map.1 hmap
    obtain ⟨rfl, rfl⟩ := Prod.mk.inj hr
    exact hostTransaction_regRead r' s
  · exact ⟨rfl, rfl, rfl, rfl, rfl, rfl, rfl, rfl, rfl, setWidth_seMask _, rfl, rfl, rfl, rfl, rfl, rfl, rfl, rfl, rfl⟩

/-- A transaction at a reserved offset: a write does nothing, a read returns 0 (R41). -/
theorem hostTransaction_reserved {off : BitVec 8} (h4 : off.toNat % 4 = 0) (h : 0x4C ≤ off.toNat) (v : Word) (s : State) :
    hostTransaction (.regWrite off 32 v) s = s ∧ hostTransaction (.regRead off 32) s = { s with rdata := 0 } := by
  have hok : regAccessOk off 32 = true := (regAccessOk_iff off 32).2 ⟨rfl, h4⟩
  simp [hostTransaction, hostRegWrite, hostRegRead, hok, Reg.ofOffset_reserved h]

/-- A transaction that writes a read-only register does nothing (R41). -/
theorem hostTransaction_regWrite_readOnly {r : Reg} (hr : r ∈ readOnlyRegs) (v : Word) (s : State) :
    hostTransaction (.regWrite r.offset 32 v) s = s :=
  (hostTransaction_regWrite r v s).trans (Reg.write_readOnly hr v s)

/-- Settles O10: no register starts at a reserved offset, and the other offsets listed are those of `readOnlyRegs`. -/
theorem reservedAndReadOnlyWritesIgnored : Obligations.ReservedAndReadOnlyWritesIgnored := by
  refine ⟨fun s off v h4 h => hostTransaction_reserved h4 h v s, fun s off v h => ?_⟩
  have hmap : off ∈ readOnlyRegs.map Reg.offset := h
  obtain ⟨r, hr, rfl⟩ := List.mem_map.1 hmap
  exact hostTransaction_regWrite_readOnly hr v s

/-! ## The parameters -/

theorem engineTurn_cfg (h : engineTurn s = .next t) : t.cfg = s.cfg := by
  obtain ⟨hcfg, -⟩ := engineTurn_frame h
  exact hcfg

/-- No step of either agent, nor the reset input, changes a parameter (R8). -/
theorem step_cfg (h : step s = .next t) : t.cfg = s.cfg := by
  rcases step_next h with ⟨-, h⟩ | ⟨rest, -, h⟩ | ⟨x, rest, -, rfl⟩ | ⟨rest, -, rfl⟩
  · exact engineTurn_cfg h
  · exact (engineTurn_cfg h :)
  · exact (hostTransaction_frame x _).1
  · rfl

/-- Settles O16: the three registers are read-only, and no step of either agent writes `cfg`. -/
theorem identityAndParametersFixed : Obligations.IdentityAndParametersFixed := by
  refine ⟨fun s => ⟨hostTransaction_regRead .id s, hostTransaction_regRead .cfgMaxstride s,
      hostTransaction_regRead .cfgImembytes s⟩, fun s v => ⟨?_, ?_, ?_⟩, fun s t h => step_cfg h⟩
  · exact hostTransaction_regWrite_readOnly (r := .id) (by decide) v s
  · exact hostTransaction_regWrite_readOnly (r := .cfgMaxstride) (by decide) v s
  · exact hostTransaction_regWrite_readOnly (r := .cfgImembytes) (by decide) v s

/-! ## The operands while a command runs -/

theorem engineTurn_ops (h : engineTurn s = .next t) : t.ops = s.ops := by
  obtain ⟨-, -, -, hops, -⟩ := engineTurn_frame h
  exact hops

/-- Settles O7: a busy engine refuses operand writes, and neither the engine nor another transaction changes an operand. -/
theorem operandsConstantWhileBusy : Obligations.OperandsConstantWhileBusy := by
  refine ⟨fun s off v hs hoff => ?_, fun s t hs hreset h => ?_⟩
  · have hmap : off ∈ operandRegs.map Reg.offset := hoff
    obtain ⟨r, hr, rfl⟩ := List.mem_map.1 hmap
    rw [hostTransaction_regWrite, Reg.write_operand hr, writeOperand_busy hs]; rfl
  · rcases step_next h with ⟨-, h⟩ | ⟨rest, -, h⟩ | ⟨x, rest, -, rfl⟩ | ⟨rest, hi, -⟩
    · exact engineTurn_ops h
    · exact (engineTurn_ops h :)
    · obtain ⟨c, st, d, e, -⟩ := hostTransaction_busy x { s with inputs := rest } hs
      rw [e]
    · simp [hi] at hreset

end Sys2Proof.Machine
end

section
/-! PROOFS. The host's side of the state: `STATUS`, `CTRL`, and what a micro-step of the engine neither reads nor changes (R23,
R24, R35 to R38, R103, R106). -/

namespace Sys2Proof.Machine

variable {s t : State}

/-! ## The layout of `STATUS` and `CTRL` -/

/-- The four flag bits of `STATUS` (R24). -/
theorem getLsbD_statusWord (s : State) :
    (statusWord s).getLsbD 0 = s.busy ∧ (statusWord s).getLsbD 1 = s.status.done ∧
    (statusWord s).getLsbD 2 = s.status.err ∧ (statusWord s).getLsbD 3 = s.status.herr := by
  simp only [statusWord, BitVec.getLsbD_append]
  simp

/-- The fields of `STATUS` above the flags (R24). -/
theorem extractLsb'_statusWord (s : State) :
    (statusWord s).extractLsb' 4 4 = 0 ∧ (statusWord s).extractLsb' 8 4 = s.status.errCode.toBits ∧
    (statusWord s).extractLsb' 12 20 = 0 := by
  refine ⟨?_, ?_, ?_⟩ <;> refine BitVec.eq_of_getLsbD_eq fun i hi => ?_ <;>
    simp only [statusWord, BitVec.getLsbD_extractLsb', BitVec.getLsbD_append]
  all_goals interval_cases i <;> simp

/-- `CTRL` reads back as bits 1:0 of what was written (R23). -/
theorem ctrlWord_ctrlOfWord (v : Word) : ctrlWord (ctrlOfWord v) = v &&& 3#32 := by
  refine BitVec.eq_of_getLsbD_eq fun i hi => ?_
  simp only [ctrlWord, ctrlOfWord, BitVec.getLsbD_append, BitVec.getLsbD_and]
  match i, hi with
  | 0, _ => simp
  | 1, _ => simp
  | i + 2, _ => simp [BitVec.getLsbD_ofNat, Nat.testBit_succ]

/-- What a write of `v` to `STATUS` leaves of each field (R24). -/
theorem clearedBy_fields (st : Status) (v : Word) :
    (st.clearedBy v).done = (if v.getLsbD 1 then false else st.done) ∧
    (st.clearedBy v).err = (if v.getLsbD 2 then false else st.err) ∧
    (st.clearedBy v).errCode = (if v.getLsbD 2 then .ok else st.errCode) ∧
    (st.clearedBy v).herr = (if v.getLsbD 3 then false else st.herr) := by
  have hclear (f x : Bool) : (f && !x) = if x then false else f := by cases x <;> simp
  exact ⟨hclear _ _, hclear _ _, rfl, hclear _ _⟩

/-! ## What a host transaction can do -/

/-- Everything a host transaction can do: change `CTRL`, `STATUS` and what the host reads, or, while idle, be accepted as a
command (R100), or access an operand register or IMEM (R43, R65). -/
theorem hostTransaction_cases (x : HostTx) (s : State) :
    (∃ (c : Ctrl) (st : Status) (d : Word), hostTransaction x s = { s with ctrl := c, status := st, rdata := d } ∧
      (st = s.status ∨ st = { s.status with herr := true } ∨ ∃ v : Word, st = s.status.clearedBy v)) ∨
    (s.busy = false ∧ ((∃ w, hostTransaction x s = accept w s) ∨
      ∃ (o : Operands) (m : Memory) (n : Nat) (d : Word),
        hostTransaction x s = { s with ops := o, imem := m, draws := n, rdata := d })) := by
  by_cases hb : s.busy = true
  · exact .inl (hostTransaction_busy x s hb)
  · rw [Bool.not_eq_true] at hb
    cases x with
    | regWrite off bits v =>
      rcases hostRegWrite_cases off bits v s with ⟨r, -, he⟩ | he | he <;> simp only [hostTransaction, he]
      · by_cases hr : r ∈ operandRegs
        · rw [Reg.write_operand hr, writeOperand_idle hb]
          exact .inr ⟨hb, .inr ⟨_, _, _, _, rfl⟩⟩
        · cases r
          case cmd => exact .inr ⟨hb, .inl ⟨v, by simp [Reg.write, hb]⟩⟩
          case status => exact .inl ⟨_, _, _, rfl, .inr (.inr ⟨v, rfl⟩)⟩
          all_goals first
            | exact .inl ⟨_, _, _, rfl, .inl rfl⟩
            | exact absurd (by decide) hr
      · exact .inl ⟨_, _, _, rfl, .inl rfl⟩
      · exact .inl ⟨_, _, _, rfl, .inr (.inl rfl)⟩
    | regRead off bits =>
      simp only [hostTransaction, hostRegRead]
      split
      · split <;> exact .inl ⟨_, _, _, rfl, .inl rfl⟩
      · exact .inl ⟨_, _, _, rfl, .inr (.inl rfl)⟩
    | imemWrite a v =>
      simp only [hostTransaction, hostImemWrite]
      split
      · exact .inr ⟨hb, .inr ⟨_, _, _, _, rfl⟩⟩
      · exact .inl ⟨_, _, _, rfl, .inr (.inl rfl)⟩
    | imemRead a =>
      simp only [hostTransaction, hostImemRead]
      split
      · exact .inr ⟨hb, .inr ⟨_, _, _, _, rfl⟩⟩
      · exact .inl ⟨_, _, _, rfl, .inr (.inl rfl)⟩

/-- No host transaction sets `DONE` or `ERR` or reports a code (R24). -/
theorem hostTransaction_status (x : HostTx) (s : State) :
    ((hostTransaction x s).status.done = true → s.status.done = true) ∧
    ((hostTransaction x s).status.err = true → s.status.err = true) ∧
    ((hostTransaction x s).status.errCode = .ok ∨ (hostTransaction x s).status.errCode = s.status.errCode) := by
  rcases hostTransaction_cases x s with ⟨c, st, d, e, rfl | rfl | ⟨v, rfl⟩⟩ | ⟨-, ⟨w, e⟩ | ⟨o, m, n, d, e⟩⟩ <;> rw [e]
  · simp
  · simp
  · simp only [Status.clearedBy, Bool.and_eq_true]
    refine ⟨And.left, And.left, ?_⟩
    split <;> simp
  · simp [Status.accepted]
  · simp

/-! ## What the engine neither reads nor changes -/

/-- The rows of R101 for the command `c`, which need not stand in `CMD`. -/
def turnOf (c : Decoded) (s : State) : Result :=
  microStep (fun s => onValid (validate c s) (beginOf c) s) (shiftOf c) (passEndOf c) s

theorem exec_eq_turnOf (i : Instr) (s : State) : exec i s = turnOf (.legal i) s := exec_eq_microStep i s

theorem engineTurn_eq_turnOf (s : State) : engineTurn s = turnOf s.command s := by
  rw [engineTurn_eq_microStep]
  simp only [turnOf, microStep]

/-- `s` with another content of all that is the host's alone: `CTRL`, `STATUS.HERR`, the value it read and the events to
come. -/
def State.withHostSide (c : Ctrl) (e : Bool) (d : Word) (l : List Event) (s : State) : State :=
  { s with ctrl := c, status := { s.status with herr := e }, rdata := d, inputs := l }

section
variable (c : Ctrl) (e : Bool) (d : Word) (l : List Event)

theorem complete_withHostSide (code : ErrCode) (s : State) :
    complete code (s.withHostSide c e d l) = (complete code s).withHostSide c e d l := by cases code <;> rfl

theorem beginShift_withHostSide (s : State) :
    beginShift (s.withHostSide c e d l) = (beginShift s).withHostSide c e d l :=
  (apply_ite (State.withHostSide c e d l) (s.shiftLen = 0) (complete .ok s) { s with engState := .shift }).symm

theorem beginPass_withHostSide (m : Mask) (s : State) :
    beginPass m (s.withHostSide c e d l) = (beginPass m s).withHostSide c e d l :=
  (apply_ite (State.withHostSide c e d l) (s.height < 3) (complete .ok { s with passMask := m })
    { s with passMask := m, engState := .eInit }).symm

theorem beginOf_withHostSide (k : Decoded) (s : State) :
    beginOf k (s.withHostSide c e d l) = (beginOf k s).withHostSide c e d l := by
  rcases k with i | why
  · cases i with
    | nop => rfl
    | shl => exact beginShift_withHostSide c e d l s
    | shr => exact beginShift_withHostSide c e d l s
    | erode4 => exact beginPass_withHostSide c e d l mask4 s
    | erode8 => exact beginPass_withHostSide c e d l mask8 s
    | erodem => exact beginPass_withHostSide c e d l s.ops.seMask s
    | erodeIso => rfl
  · rfl

theorem passEndOf_withHostSide (k : Decoded) (s : State) :
    passEndOf k (s.withHostSide c e d l) = (passEndOf k s).withHostSide c e d l := by
  rcases k with i | why
  · cases i <;> rfl
  · rfl

theorem iSelect_withHostSide (s : State) :
    iSelect (s.withHostSide c e d l) = (iSelect s).withHostSide c e d l := by
  by_cases h : s.iso.index = s.ops.isoSteps
  · rw [show iSelect s = _ from if_pos h]; exact if_pos h
  · rw [show iSelect s = _ from if_neg h]; exact if_neg h

theorem shiftRow_withHostSide {f : Row → Row} {k : Fin 9} (h : shiftRow f k s = .next t) :
    shiftRow f k (s.withHostSide c e d l) = .next (t.withHostSide c e d l) := by
  obtain ⟨hsrc, hdst, hlen, rfl⟩ := shiftRow_next h
  exact shiftRow_answers f k (s.withHostSide c e d l) hsrc hdst hlen

theorem eInit_withHostSide (h : eInit s = .next t) :
    eInit (s.withHostSide c e d l) = .next (t.withHostSide c e d l) := by
  obtain ⟨hr, hl, rfl⟩ := eInit_next h
  exact eInit_answers (s.withHostSide c e d l) hr hl

theorem eRow_withHostSide (k : Decoded) (h : eRow (passEndOf k) s = .next t) :
    eRow (passEndOf k) (s.withHostSide c e d l) = .next (t.withHostSide c e d l) := by
  obtain ⟨hl, ⟨hy, hr, rfl⟩ | ⟨hy, hr, rfl⟩⟩ := eRow_next h
  · exact eRow_advances _ (s.withHostSide c e d l) hy hr hl
  · rw [← passEndOf_withHostSide]
    exact eRow_ends _ (s.withHostSide c e d l) hy hr hl

theorem validate_withHostSide (k : Decoded) (s : State) : validate k (s.withHostSide c e d l) = validate k s := rfl

/-- The engine's turn neither reads nor changes the host's side. -/
theorem turnOf_withHostSide {k : Decoded} (h : turnOf k s = .next t) :
    turnOf k (s.withHostSide c e d l) = .next (t.withHostSide c e d l) := by
  have hst : (s.withHostSide c e d l).engState = s.engState := rfl
  rcases microStep_next h with ⟨he, rfl⟩ | ⟨he, rfl⟩ | ⟨he, h⟩ | ⟨he, h⟩ | ⟨he, h⟩ | ⟨he, rfl⟩ <;>
    simp only [turnOf, microStep, hst, he]
  · rw [onValid_eq, onValid_eq, validate_withHostSide, beginOf_withHostSide, complete_withHostSide, ← apply_ite]
  · rcases shiftOf_next h with ⟨rfl, h⟩ | ⟨rfl, h⟩
    · exact shiftRow_withHostSide c e d l h
    · exact shiftRow_withHostSide c e d l h
  · exact eInit_withHostSide c e d l h
  · exact eRow_withHostSide c e d l k h
  · rw [iSelect_withHostSide]

end

/-- The engine's turn keeps the host's side: it commutes with putting there what stands there. -/
theorem turnOf_hostSide {k : Decoded} (h : turnOf k s = .next t) :
    t = t.withHostSide s.ctrl s.status.herr s.rdata s.inputs := by
  have h' := turnOf_withHostSide s.ctrl s.status.herr s.rdata s.inputs h
  exact Host.Outcome.next.inj (h.symm.trans h')

/-- No micro-step of any command changes `HERR` (R24). -/
theorem exec_herr {i : Instr} (h : exec i s = .next t) : t.status.herr = s.status.herr := by
  rw [exec_eq_turnOf] at h
  rw [turnOf_hostSide h]; rfl

/-- The engine's turn neither depends on `CTRL` nor changes it (R23). -/
theorem engineTurn_withCtrl (c : Ctrl) (h : engineTurn s = .next t) :
    engineTurn { s with ctrl := c } = .next { t with ctrl := c } := by
  rw [engineTurn_eq_turnOf] at h ⊢
  have hctrl : { t with ctrl := c } = t.withHostSide c s.status.herr s.rdata s.inputs := by
    rw [turnOf_hostSide h]; rfl
  rw [hctrl]
  exact turnOf_withHostSide c s.status.herr s.rdata s.inputs h

/-- Settles O11: the layout bit by bit, the fields a `STATUS` write leaves, and who changes which field. -/
theorem statusFieldsAndWhoSetsThem : Obligations.StatusFieldsAndWhoSetsThem := by
  refine ⟨fun s => ?_, by decide, fun s v => ?_, by decide, fun s => rfl, fun s code hc => ?_, fun s t x rest hi h => ?_,
    fun i s t h => exec_herr h⟩
  · obtain ⟨hbusy, hdone, herr, hherr⟩ := getLsbD_statusWord s
    obtain ⟨hlow, hcode, hhigh⟩ := extractLsb'_statusWord s
    exact ⟨hbusy, hdone, herr, hherr, hlow, hcode, hhigh⟩
  · exact ⟨s.status.clearedBy v, hostTransaction_regWrite .status v s, clearedBy_fields s.status v⟩
  · rw [complete, completed_error _ _ hc]
  · have ht : t = hostTransaction x { s with inputs := rest } := by
      simp only [step, hi] at h
      exact (Host.Outcome.next.inj h).symm
    rw [ht]
    exact hostTransaction_status x { s with inputs := rest }

/-- Settles O12: a `CTRL` write stores `ctrlOfWord`, and `CTRL` is part of the host's side, which the engine's turn neither reads
nor changes. -/
theorem ctrlStoresTwoEnableBits : Obligations.CtrlStoresTwoEnableBits := by
  refine ⟨fun s v => ⟨ctrlOfWord v, hostTransaction_regWrite .ctrl v s, rfl, rfl, ?_⟩, by decide,
    fun c s t h => engineTurn_withCtrl c h⟩
  have hw : hostTransaction (.regWrite 0x04#8 32 v) s = { s with ctrl := ctrlOfWord v } := hostTransaction_regWrite .ctrl v s
  rw [hw]
  exact ctrlWord_ctrlOfWord v

/-! ## The frame of a command (R35 to R38) -/

/-- Under the invariant only `ERODE_ISO` writes the stepper's registers (R35 to R37). -/
theorem engineTurn_iso (hs : Inv s) (hc : s.command ≠ .legal .erodeIso) (h : engineTurn s = .next t) :
    t.iso = s.iso := by
  rcases engineTurn_next h with
    ⟨-, rfl⟩ | ⟨-, -, rfl⟩ | ⟨-, -, rfl⟩ | ⟨-, -, h⟩ | ⟨-, -, h⟩ | ⟨-, h⟩ | ⟨-, h⟩ | ⟨he, rfl⟩
  · rfl
  · rfl
  · rcases beginOf_cases s.command s with ⟨code, e, -⟩ | ⟨-, -, e⟩ | ⟨i, -, -, ⟨-, e⟩ | ⟨-, e⟩⟩ | ⟨hi, -⟩
    · rw [e]; rfl
    · rw [e]
    · rw [e]; rfl
    · rw [e]
    · exact absurd hi hc
  · obtain ⟨-, -, -, rfl⟩ := shiftRow_next h; rfl
  · obtain ⟨-, -, -, rfl⟩ := shiftRow_next h; rfl
  · obtain ⟨-, -, rfl⟩ := eInit_next h
    rw [initDone_eq]
  · obtain ⟨-, ⟨-, -, rfl⟩ | ⟨-, -, rfl⟩⟩ := eRow_next h
    · rw [rowAdvanced_eq]
    · rcases passEndOf_cases s.command (rowWritten s) with ⟨-, e⟩ | ⟨hi, -⟩
      · rw [e]; rfl
      · exact absurd hi hc
  · exact absurd (hs.engine.select he).1 hc

/-- Under the invariant the turn of a command that runs no pass leaves the engine as it is, completes, goes on to `SHIFT`, or
performs the shift. -/
theorem engineTurn_of_not_erodes (hs : Inv s) (hc : erodes s.command = false) (h : engineTurn s = .next t) :
    t = s ∨ (∃ code, t = complete code s) ∨ t = { s with engState := .shift } ∨
    ((s.command = .legal .shl ∨ s.command = .legal .shr) ∧ ∃ f k, shiftRow f k s = .next t) := by
  have hpass : ¬ (s.engState = .eInit ∨ s.engState = .eRow) := fun he => by
    obtain ⟨herodes, -⟩ := hs.engine.pass he
    simp [hc] at herodes
  rcases engineTurn_next h with
    ⟨-, rfl⟩ | ⟨-, -, rfl⟩ | ⟨-, -, rfl⟩ | ⟨-, hk, h⟩ | ⟨-, hk, h⟩ | ⟨he, -⟩ | ⟨he, -⟩ | ⟨he, -⟩
  · exact .inl rfl
  · exact .inr (.inl ⟨_, rfl⟩)
  · rcases beginOf_cases s.command s with ⟨code, e, -⟩ | ⟨-, -, e⟩ | ⟨i, hi, hpasses, -⟩ | ⟨hi, -⟩
    · exact .inr (.inl ⟨code, e⟩)
    · exact .inr (.inr (.inl e))
    · rcases hpasses with rfl | rfl | rfl <;> simp [hi, erodes] at hc
    · simp [hi, erodes] at hc
  · exact .inr (.inr (.inr ⟨.inl hk, _, _, h⟩))
  · exact .inr (.inr (.inr ⟨.inr hk, _, _, h⟩))
  · exact absurd (.inl he) hpass
  · exact absurd (.inr he) hpass
  · obtain ⟨hk, -⟩ := hs.engine.select he
    simp [hk, erodes] at hc

/-- A command that runs no pass leaves `ROW_CURSOR`, `PASS_MASK` and `NBC_TOP` (R38, R45, R46). -/
theorem engineTurn_pass_registers (hs : Inv s) (hc : erodes s.command = false) (h : engineTurn s = .next t) :
    t.rowCursor = s.rowCursor ∧ t.passMask = s.passMask ∧ t.cache.top = s.cache.top := by
  rcases engineTurn_of_not_erodes hs hc h with rfl | ⟨code, rfl⟩ | rfl | ⟨-, f, k, h⟩
  · exact ⟨rfl, rfl, rfl⟩
  · exact ⟨rfl, rfl, rfl⟩
  · exact ⟨rfl, rfl, rfl⟩
  · obtain ⟨-, -, -, rfl⟩ := shiftRow_next h
    exact ⟨rfl, rfl, rfl⟩

/-- `NOP` touches neither IMEM nor the cache (R110). -/
theorem engineTurn_nop (hs : Inv s) (hc : s.command = .legal .nop) (h : engineTurn s = .next t) :
    t.imem = s.imem ∧ t.cache = s.cache := by
  have he : erodes s.command = false := by rw [hc]; rfl
  rcases engineTurn_of_not_erodes hs he h with rfl | ⟨code, rfl⟩ | rfl | ⟨hk, -⟩
  · exact ⟨rfl, rfl⟩
  · exact ⟨rfl, rfl⟩
  · exact ⟨rfl, rfl⟩
  · simp [hc] at hk

/-- Settles O49: what no command changes, what only `ERODE_ISO` changes, and what only a pass or a shift changes. -/
theorem commandFrames : Obligations.CommandFrames := by
  intro i s t hs hc h
  have ht : engineTurn s = .next t := (engineTurn_legal hc).trans h
  refine ⟨engineTurn_frame ht, fun hi => ?_, fun hi => ?_, fun hi => ?_⟩
  · exact engineTurn_iso hs (by simpa [hc] using hi) ht
  · exact engineTurn_pass_registers hs (by rcases hi with rfl | rfl | rfl <;> rw [hc] <;> rfl) ht
  · exact engineTurn_nop hs (hi ▸ hc) ht

end Sys2Proof.Machine
end

section
/-! PROOFS. `PASS_MASK` and `NBC_BUF` are written before they are read (R45, R46): a state and the same state with other
contents of the two stay in step, because each is equal from the micro-step that writes it to the last one that reads it. -/

namespace Sys2Proof.Machine

variable {s t : State} {m : Mask} {b : Vector Row 9}

/-- `s` with other contents of `PASS_MASK` and `NBC_BUF`. -/
def State.withScratch (m : Mask) (b : Vector Row 9) (s : State) : State :=
  { s with passMask := m, cache := { s.cache with bufs := b } }

/-- The contents `m` and `b` agree with those of `s` where the engine may read them before it writes them: `PASS_MASK` during a
pass, the first `IMG_STRIDE` bytes of every buffer once `E_INIT` has loaded them. -/
structure ScratchAgrees (s : State) (m : Mask) (b : Vector Row 9) : Prop where
  mask : s.engState = .eInit ∨ s.engState = .eRow → m = s.passMask
  bufs : s.engState = .eRow → ∀ k : Fin 9,
    (Cache.buf { s.cache with bufs := b } k).take s.stride = (s.cache.buf k).take s.stride

/-- Outside a pass nothing has to agree. -/
theorem scratchAgrees_of_no_pass (h1 : s.engState ≠ .eInit) (h2 : s.engState ≠ .eRow) : ScratchAgrees s m b :=
  ⟨fun h => (h.elim h1 h2).elim, fun h => (h2 h).elim⟩

/-- `r` answers `t` with some other contents of the scratch, and they agree with those of `t`. -/
def StaysInStep (r : Result) (t : State) : Prop :=
  ∃ (m : Mask) (b : Vector Row 9), r = .next (t.withScratch m b) ∧ ScratchAgrees t m b

/-! ## The micro-steps -/

theorem scratchAgrees_complete (code : ErrCode) (s : State) : ScratchAgrees (complete code s) m b :=
  scratchAgrees_of_no_pass (by simp) (by simp)

theorem complete_withScratch (code : ErrCode) (s : State) :
    StaysInStep (.next (complete code (s.withScratch m b))) (complete code s) :=
  ⟨m, b, rfl, scratchAgrees_complete code s⟩

/-- Entering a pass writes `PASS_MASK`. -/
theorem beginPass_withScratch (m' : Mask) (s : State) :
    StaysInStep (.next (beginPass m' (s.withScratch m b))) (beginPass m' s) := by
  by_cases h : s.height < 3
  · have e (u : State) (hu : u.height < 3) : beginPass m' u = complete .ok { u with passMask := m' } := if_pos hu
    rw [e s h, e (s.withScratch m b) h]
    exact ⟨m', b, rfl, scratchAgrees_complete _ _⟩
  · have e (u : State) (hu : ¬ u.height < 3) : beginPass m' u = { u with passMask := m', engState := .eInit } := if_neg hu
    rw [e s h, e (s.withScratch m b) h]
    exact ⟨m', b, rfl, fun _ => rfl, nofun⟩

theorem beginShift_withScratch (s : State) : StaysInStep (.next (beginShift (s.withScratch m b))) (beginShift s) := by
  by_cases h : s.shiftLen = 0
  · have e (u : State) (hu : u.shiftLen = 0) : beginShift u = complete .ok u := if_pos hu
    rw [e s h, e (s.withScratch m b) h]
    exact complete_withScratch _ _
  · have e (u : State) (hu : u.shiftLen ≠ 0) : beginShift u = { u with engState := .shift } := if_neg hu
    rw [e s h, e (s.withScratch m b) h]
    exact ⟨m, b, rfl, nofun, nofun⟩

/-- `VALIDATE` does not read the scratch. -/
theorem beginOf_withScratch (c : Decoded) (s : State) :
    StaysInStep (.next (beginOf c (s.withScratch m b))) (beginOf c s) := by
  rcases c with i | why
  · cases i with
    | nop => exact complete_withScratch _ _
    | shl => exact beginShift_withScratch s
    | shr => exact beginShift_withScratch s
    | erode4 => exact beginPass_withScratch mask4 s
    | erode8 => exact beginPass_withScratch mask8 s
    | erodem => exact beginPass_withScratch s.ops.seMask s
    | erodeIso => exact ⟨m, b, rfl, nofun, nofun⟩
  · exact complete_withScratch _ _

/-- `I_SELECT` does not read the scratch, and where it goes on it writes `PASS_MASK`. -/
theorem iSelect_withScratch (s : State) : StaysInStep (.next (iSelect (s.withScratch m b))) (iSelect s) := by
  by_cases h : s.iso.index = s.ops.isoSteps
  · have e (u : State) (hu : u.iso.index = u.ops.isoSteps) : iSelect u = complete .ok u := if_pos hu
    rw [e s h, e (s.withScratch m b) h]
    exact complete_withScratch _ _
  · have hrow : (iSelect s).engState ≠ .eRow := by
      rcases iSelect_cases s with ⟨-, e⟩ | ⟨-, -, e⟩ | ⟨-, -, e⟩ <;> simp [e]
    have e : iSelect (s.withScratch m b) = (iSelect s).withScratch (iSelect s).passMask b := by
      rw [show iSelect s = _ from if_neg h]
      exact if_neg h
    exact ⟨(iSelect s).passMask, b, congrArg _ e, fun _ => rfl, fun he => absurd he hrow⟩

theorem shiftRow_withScratch {f : Row → Row} {k : Fin 9} (h : shiftRow f k s = .next t) :
    StaysInStep (shiftRow f k (s.withScratch m b)) t := by
  obtain ⟨hsrc, hdst, hlen, rfl⟩ := shiftRow_next h
  exact ⟨m, _, shiftRow_answers f k (s.withScratch m b) hsrc hdst hlen, scratchAgrees_complete _ _⟩

theorem initDone_withScratch (s : State) :
    initDone (s.withScratch m b) = (initDone s).withScratch m (nbcInit (s.withScratch m b)).cache.bufs := by
  rw [initDone_eq, initDone_eq]; rfl

/-- `E_INIT` loads the first `IMG_STRIDE` bytes of every buffer. -/
theorem eInit_withScratch (hs : ScratchAgrees s m b) (he : s.engState = .eInit) (h : eInit s = .next t) :
    StaysInStep (eInit (s.withScratch m b)) t := by
  obtain ⟨hr, hl, rfl⟩ := eInit_next h
  refine ⟨m, _, (eInit_answers (s.withScratch m b) hr hl).trans (congrArg _ (initDone_withScratch s)), ?_, ?_⟩
  · intro _
    rw [hs.mask (.inl he), initDone_eq]
  · intro _ k
    obtain ⟨g, v, rfl⟩ := exists_slotIndex k
    rw [initDone_stride]
    exact (nbcInit_take (s.withScratch m b) g v).trans (nbcInit_take s g v).symm

theorem windowRow_withScratch (hs : ScratchAgrees s m b) (he : s.engState = .eRow) :
    windowRow (s.withScratch m b) = windowRow s := by
  have hm : (s.withScratch m b).passMask = s.passMask := hs.mask (.inr he)
  unfold windowRow
  rw [hm]
  congr 1
  funext r c
  exact hs.bufs he _

theorem rowWritten_withScratch (hs : ScratchAgrees s m b) (he : s.engState = .eRow) :
    rowWritten (s.withScratch m b) = (rowWritten s).withScratch m b := by
  unfold rowWritten
  rw [windowRow_withScratch hs he]; rfl

theorem rowAdvanced_withScratch (hs : ScratchAgrees s m b) (he : s.engState = .eRow) :
    rowAdvanced (s.withScratch m b) = (rowAdvanced s).withScratch m (rowAdvanced (s.withScratch m b)).cache.bufs := by
  unfold rowAdvanced
  rw [rowWritten_withScratch hs he]
  generalize rowWritten s = u
  rfl

/-- An `E_ROW` that advances loads the one buffer group it replaces. -/
theorem scratchAgrees_rowAdvanced (hs : ScratchAgrees s m b) (he : s.engState = .eRow) :
    ScratchAgrees (rowAdvanced s) m (rowAdvanced (s.withScratch m b)).cache.bufs := by
  have hm : (rowAdvanced s).passMask = s.passMask := by rw [rowAdvanced_eq]
  refine ⟨fun _ => (hs.mask (.inr he)).trans hm.symm, fun _ k => ?_⟩
  obtain ⟨g, v, rfl⟩ := exists_slotIndex k
  rw [rowAdvanced_stride]
  show ((nbcAdvance _ (rowWritten (s.withScratch m b))).cache.buf _).take _ = ((nbcAdvance _ (rowWritten s)).cache.buf _).take _
  rw [rowWritten_withScratch hs he]
  by_cases hg : g = s.cache.top
  · subst hg
    exact (nbcAdvance_take_new ((rowWritten s).withScratch m b) _ v).trans (nbcAdvance_take_new (rowWritten s) _ v).symm
  · rw [nbcAdvance_buf_old (rowWritten s) _ _ _ hg, nbcAdvance_buf_old ((rowWritten s).withScratch m b) _ _ _ hg]
    exact hs.bufs he _

theorem passEndOf_withScratch (c : Decoded) (s : State) :
    StaysInStep (.next (passEndOf c (s.withScratch m b))) (passEndOf c s) := by
  rcases passEndOf_cases c s with ⟨hc, e⟩ | ⟨rfl, e⟩ <;> rw [e]
  · have e' : passEndOf c (s.withScratch m b) = complete .ok (s.withScratch m b) :=
      ((passEndOf_cases c _).resolve_right fun h => hc h.1).2
    rw [e']
    exact complete_withScratch _ _
  · exact ⟨m, b, rfl, nofun, nofun⟩

/-- `E_ROW` reads what `E_INIT` and earlier `E_ROW`s have written. -/
theorem eRow_withScratch (c : Decoded) (hs : ScratchAgrees s m b) (he : s.engState = .eRow)
    (h : eRow (passEndOf c) s = .next t) : StaysInStep (eRow (passEndOf c) (s.withScratch m b)) t := by
  obtain ⟨hl, ⟨hy, hr, rfl⟩ | ⟨hy, hr, rfl⟩⟩ := eRow_next h
  · rw [eRow_advances _ (s.withScratch m b) hy hr hl, rowAdvanced_withScratch hs he]
    exact ⟨m, _, rfl, scratchAgrees_rowAdvanced hs he⟩
  · rw [eRow_ends _ (s.withScratch m b) hy hr hl, rowWritten_withScratch hs he]
    exact passEndOf_withScratch c _

/-- The engine's turn takes both states to states that are in step again. -/
theorem engineTurn_withScratch (hs : ScratchAgrees s m b) (h : engineTurn s = .next t) :
    StaysInStep (engineTurn (s.withScratch m b)) t := by
  rw [engineTurn_eq_microStep] at h ⊢
  have hc : (s.withScratch m b).command = s.command := rfl
  have hv : validate s.command (s.withScratch m b) = validate s.command s := rfl
  have hst : (s.withScratch m b).engState = s.engState := rfl
  rcases microStep_next h with ⟨he, rfl⟩ | ⟨he, rfl⟩ | ⟨he, h⟩ | ⟨he, h⟩ | ⟨he, h⟩ | ⟨he, rfl⟩ <;>
    simp only [microStep, hst, he, hc, hv]
  · exact ⟨m, b, rfl, hs⟩
  · simp only [onValid_eq]
    split
    · exact beginOf_withScratch _ s
    · exact complete_withScratch _ _
  · rcases shiftOf_next h with ⟨hc, h⟩ | ⟨hc, h⟩ <;> rw [hc]
    · exact shiftRow_withScratch h
    · exact shiftRow_withScratch h
  · exact eInit_withScratch hs he h
  · exact eRow_withScratch _ hs he h
  · exact iSelect_withScratch s

/-! ## A step of either agent, and a run -/

theorem Reg.write_withScratch (r : Reg) (v : Word) (s : State) :
    r.write v (s.withScratch m b) = (r.write v s).withScratch m b := by
  by_cases hr : r ∈ operandRegs
  · rw [Reg.write_operand hr, Reg.write_operand hr]
    exact (apply_ite (State.withScratch m b) (s.busy = true) (hostError s) { s with ops := s.ops.put v r }).symm
  · cases r
    case cmd => exact (apply_ite (State.withScratch m b) (s.busy = true) (hostError s) (accept v s)).symm
    all_goals first | rfl | exact absurd (by decide) hr

/-- No host transaction shows the scratch or depends on it. -/
theorem hostTransaction_withScratch (x : HostTx) (s : State) :
    hostTransaction x (s.withScratch m b) = (hostTransaction x s).withScratch m b := by
  cases x with
  | regWrite off bits v =>
    simp only [hostTransaction, hostRegWrite]
    split
    · split
      · exact Reg.write_withScratch _ v s
      · rfl
    · rfl
  | regRead off bits =>
    simp only [hostTransaction, hostRegRead]
    split
    · split
      · rename_i r _
        cases r <;> rfl
      · rfl
    · rfl
  | imemWrite a v =>
    exact (apply_ite (State.withScratch m b) (imemAccessOk s a = true) { s with imem := s.imem.set a v } (hostError s)).symm
  | imemRead a =>
    exact (apply_ite (State.withScratch m b) (imemAccessOk s a = true)
      { drew 1 s with rdata := (s.imem.readByte a s.draws).setWidth 32 } { hostError s with rdata := 0 }).symm

/-- A host transaction leaves the engine where it is or, accepted as a command, puts it in `VALIDATE` (R100). -/
theorem hostTransaction_engState (x : HostTx) (s : State) :
    (hostTransaction x s).engState = s.engState ∨ (hostTransaction x s).engState = .validate := by
  rcases hostTransaction_cases x s with ⟨c, st, d, e, -⟩ | ⟨-, ⟨w, e⟩ | ⟨o, m, n, d, e⟩⟩ <;> rw [e]
  · exact .inl rfl
  · exact .inr rfl
  · exact .inl rfl

theorem ScratchAgrees.hostTransaction (hs : ScratchAgrees s m b) (x : HostTx) :
    ScratchAgrees (hostTransaction x s) m b := by
  cases hb : s.busy with
  | true =>
    obtain ⟨c, st, d, e, -⟩ := hostTransaction_busy x s hb
    rw [e]
    exact ⟨hs.mask, hs.bufs⟩
  | false =>
    have hi : s.engState = .idle := by simpa [State.busy] using hb
    rcases hostTransaction_engState x s with e | e <;> refine scratchAgrees_of_no_pass ?_ ?_ <;> rw [e] <;> simp [hi]

theorem step_withScratch (hs : ScratchAgrees s m b) (h : step s = .next t) : StaysInStep (step (s.withScratch m b)) t := by
  rcases step_next h with ⟨hi, h⟩ | ⟨rest, hi, h⟩ | ⟨x, rest, hi, rfl⟩ | ⟨rest, hi, rfl⟩
  all_goals
    have hi' : (s.withScratch m b).inputs = _ := hi
    simp only [step, hi']
  · exact engineTurn_withScratch hs h
  · exact engineTurn_withScratch (s := { s with inputs := rest }) ⟨hs.mask, hs.bufs⟩ h
  · have hs' : ScratchAgrees { s with inputs := rest } m b := ⟨hs.mask, hs.bufs⟩
    exact ⟨m, b, congrArg _ (hostTransaction_withScratch x { s with inputs := rest }), hs'.hostTransaction x⟩
  · exact ⟨_, _, rfl, scratchAgrees_of_no_pass nofun nofun⟩

theorem run_withScratch (k : Nat) (hs : ScratchAgrees s m b) (h : run k s = .next t) :
    StaysInStep (run k (s.withScratch m b)) t := by
  induction k generalizing s m b with
  | zero => cases h; exact ⟨m, b, rfl, hs⟩
  | succ k ih =>
    unfold run at h
    split at h
    · rename_i u hu
      obtain ⟨m', b', hu', hs'⟩ := step_withScratch hs hu
      rw [run_succ_of_step hu']
      exact ih hs' h
    · cases h
    · cases h

/-- Settles O56: in `IDLE` nothing has to agree, and every later step keeps the two runs in step. -/
theorem unspecifiedContentsAreInvisible : Obligations.UnspecifiedContentsAreInvisible := by
  intro s t m bufs k hi h
  have hs : ScratchAgrees s m bufs := scratchAgrees_of_no_pass (by simp [hi]) (by simp [hi])
  obtain ⟨m', b', h', -⟩ := run_withScratch k hs h
  exact ⟨t.withScratch m' b', h', rfl⟩

end Sys2Proof.Machine
end

section
/-! PROOFS. Who writes IMEM: the engine its destination and no other byte (R68, R161), the host one byte through its port while
the engine is idle (R64, R65). -/

namespace Sys2Proof.Machine

variable {s t : State} {a : Nat}

/-! ## The engine's writes -/

theorem engineWrites_shift (he : s.engState = .shift) :
    engineWrites s a ↔ s.shiftDst ≤ a ∧ a < s.shiftDst + s.shiftLen := by
  rw [engineWrites, he]

theorem engineWrites_eRow (he : s.engState = .eRow) :
    engineWrites s a ↔
      s.rowAddr s.rowCursor.toNat ≤ a ∧ a < s.rowAddr s.rowCursor.toNat + s.stride := by
  rw [engineWrites, he]

/-- `VALIDATE` writes no IMEM byte, whatever the command begins. -/
theorem beginOf_imem (c : Decoded) (s : State) : (beginOf c s).imem = s.imem := by
  rcases beginOf_cases c s with ⟨code, e, -⟩ | ⟨-, -, e⟩ | ⟨i, -, -, ⟨-, e⟩ | ⟨-, e⟩⟩ | ⟨-, e⟩ <;> simp [e]

/-- Ending a pass writes no IMEM byte. -/
theorem passEndOf_imem (c : Decoded) (s : State) : (passEndOf c s).imem = s.imem := by
  rcases passEndOf_cases c s with ⟨-, e⟩ | ⟨-, e⟩ <;> simp [e, endIsoPass]

theorem iSelect_imem (s : State) : (iSelect s).imem = s.imem := by
  rcases iSelect_cases s with ⟨-, e⟩ | ⟨-, -, e⟩ | ⟨-, -, e⟩ <;> simp [e]

/-- A shift whose result is as long as its source leaves every byte outside the destination (R126, R127). -/
theorem get?_shiftRow_out {f : Row → Row} {k : Fin 9} (hf : ∀ bs, (f bs).length = bs.length)
    (h : shiftRow f k s = .next t) (ha : a < s.shiftDst ∨ s.shiftDst + s.shiftLen ≤ a) :
    t.imem.get? a = s.imem.get? a := by
  obtain ⟨-, -, -, rfl⟩ := shiftRow_next h
  exact Memory.get?_writeRow_out _ _ _ _ (by rwa [hf, length_memRead])

/-- `E_ROW` leaves every byte outside the row at `ROW_CURSOR`, whether it advances or ends the pass (R163). -/
theorem get?_eRow_out {c : Decoded} (hb : ∀ k : Fin 9, (s.cache.buf k).length = s.cfg.maxStride)
    (h : eRow (passEndOf c) s = .next t)
    (ha : a < s.rowAddr s.rowCursor.toNat ∨ s.rowAddr s.rowCursor.toNat + s.stride ≤ a) :
    t.imem.get? a = s.imem.get? a := by
  obtain ⟨hs, hcases⟩ := eRow_next h
  have hout := get?_rowWritten_out s _ hb hs a ha
  rcases hcases with ⟨-, -, rfl⟩ | ⟨-, -, rfl⟩
  · exact hout
  · rw [passEndOf_imem]; exact hout

/-- The micro-step of any command, also one that does not stand in `CMD`, leaves every byte it may not write (R68). -/
theorem get?_turnOf_out {c : Decoded} (hb : ∀ k : Fin 9, (s.cache.buf k).length = s.cfg.maxStride)
    (h : turnOf c s = .next t) (ha : ¬ engineWrites s a) : t.imem.get? a = s.imem.get? a := by
  rcases microStep_next h with ⟨-, rfl⟩ | ⟨-, rfl⟩ | ⟨he, h⟩ | ⟨-, h⟩ | ⟨he, h⟩ | ⟨-, rfl⟩
  · rfl
  · rw [onValid_eq]
    split
    · rw [beginOf_imem]
    · rfl
  · have hout : a < s.shiftDst ∨ s.shiftDst + s.shiftLen ≤ a := by rw [engineWrites_shift he] at ha; omega
    rcases shiftOf_next h with ⟨-, h⟩ | ⟨-, h⟩
    · exact get?_shiftRow_out length_shiftL h hout
    · exact get?_shiftRow_out length_shiftR h hout
  · obtain ⟨-, -, rfl⟩ := eInit_next h
    rw [initDone_imem]
  · exact get?_eRow_out hb h (by rw [engineWrites_eRow he] at ha; omega)
  · rw [iSelect_imem]

/-- Settles O48: `SHIFT` and `E_ROW` write their destination, and no other micro-step writes IMEM. -/
theorem engineWritesOnlyItsDestination : Obligations.EngineWritesOnlyItsDestination := by
  intro i s t hb h a ha
  rw [exec_eq_turnOf] at h
  exact get?_turnOf_out hb h ha

/-! ## The host's byte port -/

theorem imemAccessOk_iff (s : State) (a : Nat) :
    imemAccessOk s a = true ↔ s.busy = false ∧ a < s.cfg.imemBytes := by
  simp [imemAccessOk]

theorem hostTransaction_imemWrite (h : imemAccessOk s a = true) (v : Byte) :
    hostTransaction (.imemWrite a v) s = { s with imem := s.imem.set a v } := if_pos h

theorem hostTransaction_imemRead (h : imemAccessOk s a = true) :
    hostTransaction (.imemRead a) s =
      { s with rdata := (s.imem.readByte a s.draws).setWidth 32, draws := s.draws + 1 } := if_pos h

/-- An access of the byte port while busy or out of range is a protocol error (R65). -/
theorem hostTransaction_badImemAccess (h : ¬ imemAccessOk s a = true) (v : Byte) :
    hostTransaction (.imemWrite a v) s = hostError s ∧
    hostTransaction (.imemRead a) s = { hostError s with rdata := 0 } := ⟨if_neg h, if_neg h⟩

/-- Settles O14: an access is a protocol error or takes effect as `imemAccessOk` says, and then it is `Memory.set` or
`Memory.readByte` at its address. -/
theorem hostByteAccess : Obligations.HostByteAccess := by
  refine ⟨fun s a v h => hostTransaction_badImemAccess ?_ v, fun s a v hb ha => ?_, fun s a hb ha => ?_⟩
  · rw [imemAccessOk_iff]
    rintro ⟨hidle, hlt⟩
    rcases h with hbusy | hge
    · simp [hidle] at hbusy
    · omega
  · rw [hostTransaction_imemWrite ((imemAccessOk_iff s a).2 ⟨hb, ha⟩)]
    exact ⟨Memory.get?_set_self _ _ _, fun a' hne => Memory.get?_set_ne _ _ hne, rfl⟩
  · rw [hostTransaction_imemRead ((imemAccessOk_iff s a).2 ⟨hb, ha⟩)]
    exact ⟨fun v hv => congrArg (BitVec.setWidth 32) (Memory.readByte_of_get? hv s.draws), rfl⟩

end Sys2Proof.Machine
end

section
/-! PROOFS. Command words (R80 to R86): the decoder answers the command whose fields the word has, or that the word's fields
are ill formed; what an illegal word does; and what the assembler's lines stand for (R87, R88). -/

namespace Sys2Proof.Machine

variable {s : State} {w : Word}

/-! ## Fields and words -/

/-- A word is its fields written side by side (R80). -/
theorem toWord_ofWord (w : Word) : (CmdFields.ofWord w).toWord = w := by
  have hrsv : w.extractLsb' 6 26 ++ w.extractLsb' 4 2 = w.extractLsb' 4 28 :=
    BitVec.extractLsb'_append_extractLsb'_eq_extractLsb' rfl
  have hw : w.extractLsb' 4 28 ++ w.extractLsb' 0 4 = w.extractLsb' 0 32 :=
    BitVec.extractLsb'_append_extractLsb'_eq_extractLsb' rfl
  rw [CmdFields.toWord, CmdFields.ofWord, hrsv, hw, BitVec.extractLsb'_eq_self]

/-- The seven words of R84. -/
theorem encode_words :
    encode .nop = 0x00000000#32 ∧ encode .shl = 0x00000001#32 ∧ encode .shr = 0x00000002#32 ∧
    encode .erode4 = 0x00000003#32 ∧ encode .erode8 = 0x00000013#32 ∧ encode .erodem = 0x00000023#32 ∧
    encode .erodeIso = 0x00000004#32 := by decide

theorem roundTrip (i : Instr) : Laws.RoundTrip.Statement i := by
  cases i with
  | nop => exact Laws.RoundTrip.nop
  | shl => exact Laws.RoundTrip.shl
  | shr => exact Laws.RoundTrip.shr
  | erode4 => exact Laws.RoundTrip.erode4
  | erode8 => exact Laws.RoundTrip.erode8
  | erodem => exact Laws.RoundTrip.erodem
  | erodeIso => exact Laws.RoundTrip.erodeIso

theorem decode_encode (i : Instr) : decode (encode i) = .legal i := by
  obtain ⟨-, h, -⟩ := roundTrip i
  exact h

theorem fields_wellFormed (i : Instr) : i.fields.wellFormed = true := by
  obtain ⟨h, -⟩ := roundTrip i
  exact h

/-- Ill-formed fields are those that R80, R82 or R83 rules out. -/
theorem wellFormed_eq_false (f : CmdFields) : f.wellFormed = false ↔
    5 ≤ f.op.toNat ∨ (f.op = 3#4 ∧ f.se = 3#2) ∨ (f.op ≠ 3#4 ∧ f.se ≠ 0#2) ∨ f.rsv ≠ 0#26 := by
  simp only [CmdFields.wellFormed, CmdFields.reservedClear, CmdFields.opDefined, CmdFields.elementDefined,
    CmdFields.elementOnlyForErode, Bool.and_eq_false_iff, Bool.or_eq_false_iff, Bool.not_eq_false', Bool.and_eq_true,
    decide_eq_false_iff_not, beq_iff_eq, beq_eq_false_iff_ne, Nat.not_le, Nat.lt_iff_add_one_le]
  tauto

/-! ## What a word decodes to -/

/-- Everything `OP` and `SE` can select with `RSV` clear: the command that has them, or nothing where they are ill formed (R82,
R83). -/
theorem decodeFields_cases (op : BitVec 4) (se : BitVec 2) :
    (∃ i, decodeFields op se = .legal i ∧ i.fields = ⟨op, se, 0⟩) ∨
    (∃ why, decodeFields op se = .illegal why ∧ CmdFields.wellFormed ⟨op, se, 0⟩ = false) := by
  simp only [wellFormed_eq_false]
  unfold decodeFields
  obtain rfl | h3 := eq_or_ne op 3#4
  · obtain rfl | h0 := eq_or_ne se 0#2
    · exact .inl ⟨.erode4, rfl, rfl⟩
    obtain rfl | h1 := eq_or_ne se 1#2
    · exact .inl ⟨.erode8, rfl, rfl⟩
    obtain rfl | h2 := eq_or_ne se 2#2
    · exact .inl ⟨.erodem, rfl, rfl⟩
    exact .inr ⟨.reservedElement, by simp [h0, h1, h2], .inr (.inl ⟨rfl, by bv_omega⟩)⟩
  obtain rfl | hse := eq_or_ne se 0#2
  · obtain rfl | h0 := eq_or_ne op 0#4
    · exact .inl ⟨.nop, rfl, rfl⟩
    obtain rfl | h1 := eq_or_ne op 1#4
    · exact .inl ⟨.shl, rfl, rfl⟩
    obtain rfl | h2 := eq_or_ne op 2#4
    · exact .inl ⟨.shr, rfl, rfl⟩
    obtain rfl | h4 := eq_or_ne op 4#4
    · exact .inl ⟨.erodeIso, rfl, rfl⟩
    exact .inr ⟨.reservedOp, by simp [h0, h1, h2, h3, h4], .inl (by bv_omega)⟩
  · exact .inr ⟨.elementWithoutErode, by simp [h3, hse], .inr (.inr (.inl ⟨h3, hse⟩))⟩

/-- Everything a word can decode to: the command that has its fields, or ILLEGAL where they are ill formed (R84, R85). -/
theorem decode_cases (w : Word) :
    (∃ i, decode w = .legal i ∧ CmdFields.ofWord w = i.fields) ∨
    (∃ why, decode w = .illegal why ∧ (CmdFields.ofWord w).wellFormed = false) := by
  by_cases hr : (CmdFields.ofWord w).rsv = 0#26
  · have hd : decode w = decodeFields (CmdFields.ofWord w).op (CmdFields.ofWord w).se := if_neg (not_not_intro hr)
    have hf : CmdFields.ofWord w = ⟨(CmdFields.ofWord w).op, (CmdFields.ofWord w).se, 0⟩ := congrArg (CmdFields.mk _ _) hr
    rcases decodeFields_cases (CmdFields.ofWord w).op (CmdFields.ofWord w).se with ⟨i, hi, he⟩ | ⟨why, hi, hw⟩
    · exact .inl ⟨i, hd.trans hi, hf.trans he.symm⟩
    · exact .inr ⟨why, hd.trans hi, by rw [hf, hw]⟩
  · exact .inr ⟨.reservedBits, if_pos hr, (wellFormed_eq_false _).2 (.inr (.inr (.inr hr)))⟩

/-- A word with the fields of a command is that command's word. -/
theorem encode_eq_of_fields {i : Instr} (h : CmdFields.ofWord w = i.fields) : encode i = w := by
  rw [encode, ← h, toWord_ofWord]

theorem decode_eq_legal_iff (w : Word) (i : Instr) : decode w = .legal i ↔ encode i = w := by
  constructor
  · intro h
    rcases decode_cases w with ⟨j, hj, he⟩ | ⟨why, hw, -⟩
    · rw [h] at hj
      cases hj
      exact encode_eq_of_fields he
    · rw [h] at hw
      cases hw
  · rintro rfl
    exact decode_encode i

/-- The illegal words are those with ill-formed fields (R85). -/
theorem decode_illegal_iff (w : Word) : (∃ why, decode w = .illegal why) ↔ (CmdFields.ofWord w).wellFormed = false := by
  rcases decode_cases w with ⟨i, hi, he⟩ | ⟨why, hi, hw⟩
  · simp [hi, he, fields_wellFormed]
  · simp [hi, hw]

/-- Settles O1: a word that decodes to a command has that command's fields, and fields determine the word. -/
theorem decodeInvertsEncodeOnSevenWords : Obligations.DecodeInvertsEncodeOnSevenWords := by
  refine ⟨decode_eq_legal_iff, fun w h => ?_, encode_words⟩
  rcases decode_cases w with ⟨i, -, he⟩ | ⟨why, hw, -⟩
  · exact absurd (encode_eq_of_fields he) (h i)
  · exact ⟨why, hw⟩

/-! ## Illegal words -/

/-- The step of a command that fails a check. -/
theorem step_validate_error (he : s.engState = .validate) (hi : s.inputs = []) (hv : validate s.command s ≠ .ok) :
    step s = .next (complete (validate s.command s) s) := by
  rw [step_of_no_inputs hi, engineTurn_eq_microStep]
  simp only [microStep, he, onValid_eq, if_neg hv]

/-- Settles O2: the illegal words are the ill-formed ones, and every check of one answers `E_CMD`. -/
theorem illegalWordsCompleteWithECmd : Obligations.IllegalWordsCompleteWithECmd := by
  refine ⟨fun w => (decode_illegal_iff w).trans (wellFormed_eq_false _), fun w s h => ?_, fun s why hc he hi => ?_⟩
  · rw [hostTransaction_cmdWrite, h]; rfl
  · have hv : validate s.command s = .cmd := by rw [hc]; rfl
    rw [step_validate_error he hi (by rw [hv]; decide), hv]
    rfl

/-- Settles O3: the first seven words are those of `encode`, written out. -/
theorem writtenOutWordsDecode : Obligations.WrittenOutWordsDecode :=
  ⟨decode_encode .nop, decode_encode .shl, decode_encode .shr, decode_encode .erode4, decode_encode .erode8,
    decode_encode .erodem, decode_encode .erodeIso, by decide⟩

/-! ## The assembler -/

theorem assemble_singleton (a : Asm) : assemble [a] = a.expand := List.flatMap_singleton _ _

/-- A command's line is one `CMD` write of its word (R88). -/
theorem triple_command (i : Instr) :
    (assemble [.command i]).map HostTx.triple = [some (.w32, 0x0C, some (encode i).toNat)] := rfl

/-- Settles O17: a line of its own is its expansion. -/
theorem pseudoInstructionsExpand : Obligations.PseudoInstructionsExpand := by
  refine ⟨?_, fun _ _ _ => ⟨assemble_singleton _, assemble_singleton _⟩, fun _ => assemble_singleton _,
    fun _ => assemble_singleton _, fun _ _ _ _ => assemble_singleton _, fun _ => assemble_singleton _, assemble_singleton _⟩
  simp only [List.map_cons, List.map_nil, triple_command]
  decide

end Sys2Proof.Machine
end

section
/-! PROOFS. How a command begins: the step that runs it (R100, R101), the checks of R104, and what `VALIDATE` makes of a command that
passes or fails them (R101, R103). -/

namespace Sys2Proof.Machine

variable {s t : State} {i : Instr}

/-! ## The step that runs a command (R100, R101) -/

/-- Settles O4: the engine's turn decodes `CMD`. -/
theorem stepRunsDecodedCommand : Obligations.StepRunsDecodedCommand := by
  refine fun s i hc => ⟨fun hi => ?_, fun rest hi => ?_⟩
  · exact (step_of_no_inputs hi).trans (engineTurn_legal hc)
  · simp only [step, hi]
    exact engineTurn_legal (s := { s with inputs := rest }) hc

/-- Settles O5: the number of a command's word is that word again, and the placed engine event is the one the step takes. -/
theorem placedWordRunsNext : Obligations.PlacedWordRunsNext := by
  intro s i
  have hw : BitVec.ofNat 32 ((encode i).toNat % 2 ^ 32) = encode i := by
    rw [Nat.mod_eq_of_lt (encode i).isLt, BitVec.ofNat_toNat, BitVec.setWidth_eq]
  rw [State.withFetchWord, hw]
  exact (stepRunsDecodedCommand { accept (encode i) s with inputs := .engine :: s.inputs } i (decode_encode i)).2 s.inputs rfl

/-! ## The checks (R103, R104) -/

/-- The checks of an erosion command, each as what it demands (R104): of `ERODEM` a nonzero mask, then of every one a valid
image. -/
theorem validate_erodes (h : erodes (.legal i) = true) (s : State) :
    validate (.legal i) s =
      if ¬ (i = .erodem → s.ops.seMask ≠ 0) then .mask
      else if ¬ (s.stride ≠ 0 ∧ s.stride % 8 = 0) then .stride
      else if s.height = 0 then .height
      else if ¬ (s.ops.imgWidth.toNat ≠ 0 ∧ s.ops.imgWidth.toNat ≤ 8 * s.stride) then .width
      else if ¬ s.stride ≤ s.cfg.maxStride then .capacity
      else if ¬ s.ops.imgBase.toNat + s.stride * s.height ≤ s.cfg.imemBytes then .range
      else .ok := by
  rcases erodes_cases h with h | h | h | h <;> cases h <;>
    simp [validate, validateErodem, validateImage, Classical.or_iff_not_imp_left]

theorem validate_shift (h : i = .shl ∨ i = .shr) (s : State) : validate (.legal i) s = validateShift s := by
  rcases h with rfl | rfl <;> rfl

/-- Settles O27: each code is answered where its own check fails and those before it pass. -/
theorem validationReportsFirstFailingCheck : Obligations.ValidationReportsFirstFailingCheck := by
  refine fun s => ⟨fun _ => rfl, rfl, fun i hi => ?_, fun i hi => ?_⟩
  · simp only [validate_shift hi, validateShift, ite_eq_iff, reduceCtorEq, and_false, and_true, or_false, false_or, gt_iff_lt,
      not_or, not_lt, and_self]
  · simp only [validate_erodes hi, ite_eq_iff, reduceCtorEq, and_false, and_true, or_false, false_or, not_not, ne_eq,
      and_self]

/-- The `VALIDATE` micro-step of a command that passes the checks. -/
theorem exec_validate_ok (he : s.engState = .validate) (hv : validate (.legal i) s = .ok) :
    exec i s = .next (beginOf (.legal i) s) := by
  rw [exec_eq_microStep]
  simp only [microStep, he, onValid_eq, hv, if_true]

/-- The `VALIDATE` micro-step of a command that fails a check. -/
theorem exec_validate_error (he : s.engState = .validate) (hv : validate (.legal i) s ≠ .ok) :
    exec i s = .next (complete (validate (.legal i) s) s) := by
  rw [exec_eq_microStep]
  simp only [microStep, he, onValid_eq, if_neg hv]

theorem complete_error {code : ErrCode} (h : code ≠ .ok) (s : State) :
    complete code s = { s with status := { s.status with done := true, err := true, errCode := code }, engState := .idle } := by
  rw [complete, completed_error _ _ h]

/-- Settles O29: the checks are functions of the operands and the parameters, and a failing command completes. -/
theorem validationReadsOnlyOperands : Obligations.ValidationReadsOnlyOperands := by
  refine ⟨fun c s s' ho hc => ?_, fun i s t he hv h => ?_⟩
  · have hs : s' = { s' with ops := s.ops, cfg := s.cfg } := by rw [← ho, ← hc]
    rw [hs]; rfl
  · rw [exec_validate_error he hv] at h
    cases h; rfl

/-- Settles O23: nothing is checked of a `NOP`. -/
theorem nopCompletes : Obligations.NopCompletes :=
  ⟨by decide, fun _ he => exec_validate_ok he rfl, _, rfl, by decide⟩

/-- Settles O24: the four cases of the two checks and the length. -/
theorem shiftValidateOutcomes : Obligations.ShiftValidateOutcomes := by
  intro i s hi he
  obtain ⟨-, -, hshift, -⟩ := validationReportsFirstFailingCheck s
  obtain ⟨hcap, hrange, hok⟩ := hshift i hi
  have herror (code : ErrCode) (hne : code ≠ .ok) (hv : validate (.legal i) s = code) : exec i s = .next { s with
      status := { s.status with done := true, err := true, errCode := code }, engState := .idle } := by
    rw [exec_validate_error he (hv ▸ hne), hv, complete_error hne]
  have hbegin (hl : s.shiftLen ≤ s.cfg.maxStride) (hs : s.shiftSrc + s.shiftLen ≤ s.cfg.imemBytes)
      (hd : s.shiftDst + s.shiftLen ≤ s.cfg.imemBytes) : exec i s = .next (beginShift s) := by
    rw [exec_validate_ok he (hok.2 ⟨hl, hs, hd⟩)]
    rcases hi with rfl | rfl <;> rfl
  refine ⟨fun h => herror _ (by decide) (hcap.2 h), fun hl h => herror _ (by decide) (hrange.2 ⟨hl, h⟩),
    fun hl hs hd h0 => ?_, fun hl hs hd h0 => ?_⟩
  · rw [hbegin hl hs hd, beginShift, if_pos h0]; rfl
  · rw [hbegin hl hs hd, beginShift, if_neg h0.ne']

/-- Settles O31: a single pass begins with the element of its command, or ends there where no row is interior. -/
theorem passBeginsWithTheCommandsElement : Obligations.PassBeginsWithTheCommandsElement := by
  intro i m s hi he hv
  have hbegin : exec i s = .next (beginPass m s) := by
    rw [exec_validate_ok he hv]
    rcases hi with ⟨rfl, rfl⟩ | ⟨rfl, rfl⟩ | ⟨rfl, rfl⟩ <;> rfl
  refine ⟨fun h => ?_, fun h => ?_⟩
  · rw [hbegin]; simp only [beginPass, if_neg (Nat.not_lt.2 h)]
  · rw [hbegin]; simp only [beginPass, if_pos h]; rfl

end Sys2Proof.Machine
end

section
/-! PROOFS. Completion (R106): a command's last micro-step ends with `complete`, and no other micro-step changes `STATUS`. -/

namespace Sys2Proof.Machine

variable {s t : State} {i : Instr}

/-- A micro-step from `s` to `t` is a command's last one, with `complete` as its last action, or the engine goes on and `STATUS`
stays. -/
def CompletesOrGoesOn (s t : State) : Prop :=
  (∃ (code : ErrCode) (u : State), u.status = s.status ∧ u.ops = s.ops ∧ t = complete code u) ∨
    (t.busy = true ∧ t.status = s.status)

theorem completesOrGoesOn_complete {u : State} (code : ErrCode) (hst : u.status = s.status) (hops : u.ops = s.ops) :
    CompletesOrGoesOn s (complete code u) :=
  .inl ⟨code, u, hst, hops, rfl⟩

theorem completesOrGoesOn_beginOf (c : Decoded) (s : State) : CompletesOrGoesOn s (beginOf c s) := by
  rcases beginOf_cases c s with ⟨code, e, -⟩ | ⟨-, -, e⟩ | ⟨i, -, -, ⟨-, e⟩ | ⟨-, e⟩⟩ | ⟨-, e⟩ <;> rw [e]
  · exact completesOrGoesOn_complete code rfl rfl
  · exact .inr ⟨rfl, rfl⟩
  · exact completesOrGoesOn_complete .ok rfl rfl
  · exact .inr ⟨rfl, rfl⟩
  · exact .inr ⟨rfl, rfl⟩

theorem completesOrGoesOn_shiftRow {f : Row → Row} {k : Fin 9} (h : shiftRow f k s = .next t) : CompletesOrGoesOn s t := by
  obtain ⟨-, -, -, rfl⟩ := shiftRow_next h
  exact completesOrGoesOn_complete .ok rfl rfl

theorem completesOrGoesOn_eRow {c : Decoded} (he : s.engState = .eRow) (h : eRow (passEndOf c) s = .next t) :
    CompletesOrGoesOn s t := by
  obtain ⟨-, ⟨-, -, rfl⟩ | ⟨-, -, rfl⟩⟩ := eRow_next h
  · exact .inr ⟨busy_of_engState ((rowAdvanced_engState s).trans he) (by decide), by rw [rowAdvanced_eq]⟩
  · rcases passEndOf_cases c (rowWritten s) with ⟨-, e⟩ | ⟨-, e⟩ <;> rw [e]
    · exact completesOrGoesOn_complete .ok rfl rfl
    · exact .inr ⟨rfl, rfl⟩

theorem completesOrGoesOn_iSelect (s : State) : CompletesOrGoesOn s (iSelect s) := by
  rcases iSelect_cases s with ⟨-, e⟩ | ⟨-, -, e⟩ | ⟨-, -, e⟩ <;> rw [e]
  · exact completesOrGoesOn_complete .ok rfl rfl
  · exact .inr ⟨rfl, rfl⟩
  · exact .inr ⟨rfl, rfl⟩

/-- Every micro-step of a running command, also of one that does not stand in `CMD`. -/
theorem completesOrGoesOn_turnOf {c : Decoded} (hb : s.busy = true) (h : turnOf c s = .next t) : CompletesOrGoesOn s t := by
  rcases microStep_next h with ⟨he, -⟩ | ⟨-, rfl⟩ | ⟨-, h⟩ | ⟨-, h⟩ | ⟨he, h⟩ | ⟨-, rfl⟩
  · simp [State.busy, he] at hb
  · rw [onValid_eq]
    split
    · exact completesOrGoesOn_beginOf c s
    · exact completesOrGoesOn_complete _ rfl rfl
  · rcases shiftOf_next h with ⟨-, h⟩ | ⟨-, h⟩
    · exact completesOrGoesOn_shiftRow h
    · exact completesOrGoesOn_shiftRow h
  · obtain ⟨-, -, rfl⟩ := eInit_next h
    exact .inr ⟨rfl, by rw [initDone_eq]⟩
  · exact completesOrGoesOn_eRow he h
  · exact completesOrGoesOn_iSelect s

/-- Settles O30: a micro-step completes, and then `IDLE` is entered, or goes on with `STATUS` as it was. -/
theorem completionIsTheLastAction : Obligations.CompletionIsTheLastAction := by
  refine ⟨fun code s => ?_, fun i s t hb h => ?_⟩
  · by_cases hc : code = .ok
    · subst hc; rfl
    · rw [complete_error hc, if_neg hc, if_neg hc]
  · rw [exec_eq_turnOf] at h
    rcases completesOrGoesOn_turnOf hb h with ⟨code, u, hst, hops, rfl⟩ | ⟨hbusy, hst⟩
    · exact ⟨fun _ => ⟨code, u, hst, hops, rfl⟩, fun hbusy => by simp [State.busy] at hbusy⟩
    · exact ⟨fun hidle => by simp [hbusy] at hidle, fun _ => hst⟩

end Sys2Proof.Machine
end

section
/-! PROOFS. How long a command runs (R102): the micro-steps left in each state of the engine, of which every micro-step takes one. -/

namespace Sys2Proof.Machine

variable {s t : State}

/-! ## How many micro-steps are left (R102) -/

/-- The micro-steps of one step of `ERODE_ISO`: `I_SELECT`, and, with an interior row, `E_INIT` and an `E_ROW` for each. -/
def isoStepLength (s : State) : Nat := if s.height < 3 then 1 else s.height

/-- The micro-steps left once `ERODE_ISO` has taken `n` steps and selects the next. -/
def selectionsLeft (s : State) (n : Nat) : Nat := (s.ops.isoSteps.toNat - n) * isoStepLength s + 1

/-- The micro-steps left after the pass in progress: none but for `ERODE_ISO`, which counts the step and selects again. -/
def leftAfterPass (s : State) : Nat :=
  if s.command = .legal .erodeIso then selectionsLeft s (s.iso.index.toNat + 1) else 0

/-- The micro-steps left until `IDLE`, in each state of the engine (R101, R102). -/
def stepsLeft (s : State) : Nat :=
  match s.engState with
  | .idle => 0
  | .validate => microSteps s
  | .shift => 1
  | .eInit => (s.height - 1) + leftAfterPass s
  | .eRow => (s.height - 1 - s.rowCursor.toNat) + leftAfterPass s
  | .iSelect => selectionsLeft s s.iso.index.toNat

theorem stepsLeft_complete (code : ErrCode) (s : State) : stepsLeft (complete code s) = 0 := rfl

theorem stepsLeft_shift (he : s.engState = .shift) : stepsLeft s = 1 := by rw [stepsLeft, he]

theorem stepsLeft_validate (he : s.engState = .validate) : stepsLeft s = microSteps s := by rw [stepsLeft, he]

theorem stepsLeft_eInit (he : s.engState = .eInit) : stepsLeft s = s.height - 1 + leftAfterPass s := by rw [stepsLeft, he]

theorem stepsLeft_eRow (he : s.engState = .eRow) : stepsLeft s = s.height - 1 - s.rowCursor.toNat + leftAfterPass s := by
  rw [stepsLeft, he]

theorem stepsLeft_iSelect (he : s.engState = .iSelect) : stepsLeft s = selectionsLeft s s.iso.index.toNat := by
  rw [stepsLeft, he]

theorem leftAfterPass_iso (hc : s.command = .legal .erodeIso) :
    leftAfterPass s = selectionsLeft s (s.iso.index.toNat + 1) := if_pos hc

theorem leftAfterPass_single (hc : s.command ≠ .legal .erodeIso) : leftAfterPass s = 0 := if_neg hc

/-- No step left to select: `I_SELECT` completes the command. -/
theorem selectionsLeft_self (s : State) : selectionsLeft s s.ops.isoSteps.toNat = 1 := by
  rw [selectionsLeft, Nat.sub_self, Nat.zero_mul]

/-- A step to select takes its own micro-steps. -/
theorem selectionsLeft_succ {n : Nat} (h : n < s.ops.isoSteps.toNat) :
    selectionsLeft s n = isoStepLength s + selectionsLeft s (n + 1) := by
  have hn : s.ops.isoSteps.toNat - n = s.ops.isoSteps.toNat - (n + 1) + 1 := by omega
  rw [selectionsLeft, selectionsLeft, hn, Nat.succ_mul]
  omega

/-! ## Every micro-step takes one of them -/

theorem stepsLeft_beginShift (s : State) : stepsLeft (beginShift s) + 1 = if s.shiftLen = 0 then 1 else 2 := by
  unfold beginShift
  split <;> rfl

/-- A single pass: `E_INIT` and an `E_ROW` for each interior row. -/
theorem stepsLeft_beginPass (m : Mask) (hc : s.command ≠ .legal .erodeIso) :
    stepsLeft (beginPass m s) + 1 = if s.height < 3 then 1 else 1 + 1 + (s.height - 2) := by
  simp only [beginPass]
  split
  · rfl
  · have hleft : stepsLeft { s with passMask := m, engState := .eInit } = s.height - 1 + leftAfterPass s := rfl
    rw [hleft, leftAfterPass_single hc]
    omega

/-- All of `ERODE_ISO`: `IMG_HEIGHT` micro-steps for each step with an interior row, one for each step without. -/
theorem stepsLeft_beginIso (s : State) : stepsLeft (beginIso s) + 1 =
    if s.height < 3 then 1 + (s.ops.isoSteps.toNat + 1)
    else 1 + (s.ops.isoSteps.toNat + 1) + s.ops.isoSteps.toNat * (s.height - 1) := by
  have h : stepsLeft (beginIso s) = s.ops.isoSteps.toNat * isoStepLength s + 1 := rfl
  rw [h, isoStepLength]
  split
  case isTrue => omega
  case isFalse hh =>
    have hmul : s.ops.isoSteps.toNat * s.height = s.ops.isoSteps.toNat * (s.height - 1) + s.ops.isoSteps.toNat := by
      rw [← Nat.mul_succ, Nat.succ_eq_add_one, Nat.sub_add_cancel (by omega)]
    omega

/-- `VALIDATE` is the first of the micro-steps that R102 counts. -/
theorem microSteps_eq (hv : validate s.command s = .ok) : microSteps s = stepsLeft (beginOf s.command s) + 1 := by
  rw [microSteps, if_pos hv]
  cases hc : s.command with
  | illegal why => rw [hc] at hv; cases hv
  | legal i =>
    cases i with
    | nop => rfl
    | shl => exact (stepsLeft_beginShift s).symm
    | shr => exact (stepsLeft_beginShift s).symm
    | erode4 => exact (stepsLeft_beginPass mask4 (by simp [hc])).symm
    | erode8 => exact (stepsLeft_beginPass mask8 (by simp [hc])).symm
    | erodem => exact (stepsLeft_beginPass s.ops.seMask (by simp [hc])).symm
    | erodeIso => exact (stepsLeft_beginIso s).symm

theorem stepsLeft_initDone (hh : 3 ≤ s.height) (he : s.engState = .eInit) : stepsLeft s = stepsLeft (initDone s) + 1 := by
  have hleft : stepsLeft (initDone s) = s.height - 1 - 1 + leftAfterPass s := by rw [initDone_eq]; rfl
  rw [hleft, stepsLeft_eInit he]
  omega

theorem stepsLeft_rowAdvanced (he : s.engState = .eRow) (hy : s.rowCursor.toNat + 2 < s.height) :
    stepsLeft s = stepsLeft (rowAdvanced s) + 1 := by
  have hleft : stepsLeft (rowAdvanced s) = s.height - 1 - (s.rowCursor + 1).toNat + leftAfterPass s := by
    rw [stepsLeft_eRow ((rowAdvanced_engState s).trans he), rowAdvanced_eq]; rfl
  rw [hleft, stepsLeft_eRow he, rowCursor_succ hy]
  omega

/-- The last `E_ROW` of a pass; a step of `ERODE_ISO` is then counted without wrapping. -/
theorem stepsLeft_passEnd (hi : s.command = .legal .erodeIso → s.iso.index.toNat < s.ops.isoSteps.toNat)
    (he : s.engState = .eRow) (hy : s.rowCursor.toNat + 2 = s.height) :
    stepsLeft s = stepsLeft (passEndOf s.command (rowWritten s)) + 1 := by
  rw [stepsLeft_eRow he]
  rcases passEndOf_cases s.command (rowWritten s) with ⟨hc, e⟩ | ⟨hc, e⟩ <;> rw [e]
  · rw [leftAfterPass_single hc, stepsLeft_complete]
    omega
  · have hleft : stepsLeft (endIsoPass (rowWritten s)) = selectionsLeft s (s.iso.index + 1).toNat := rfl
    rw [hleft, isoIndex_succ (hi hc), leftAfterPass_iso hc]
    omega

theorem stepsLeft_iSelect_turn (h : Inv s) (he : s.engState = .iSelect) : stepsLeft s = stepsLeft (iSelect s) + 1 := by
  obtain ⟨hc, -, hi, -⟩ := h.engine.select he
  have hlt (hne : s.iso.index ≠ s.ops.isoSteps) : s.iso.index.toNat < s.ops.isoSteps.toNat :=
    lt_of_le_of_ne hi fun heq => hne (BitVec.eq_of_toNat_eq heq)
  rw [stepsLeft_iSelect he]
  rcases iSelect_cases s with ⟨heq, e⟩ | ⟨hne, hh, e⟩ | ⟨hne, hh, e⟩
  · rw [e, heq, selectionsLeft_self, stepsLeft_complete]
  · have hleft : stepsLeft (iSelect s) = selectionsLeft s (s.iso.index + 1).toNat := by rw [e]; rfl
    rw [hleft, isoIndex_succ (hlt hne), selectionsLeft_succ (hlt hne), isoStepLength, if_pos hh, Nat.add_comm]
  · have hleft : stepsLeft (iSelect s) = s.height - 1 + leftAfterPass s := by rw [e]; rfl
    rw [hleft, leftAfterPass_iso hc, selectionsLeft_succ (hlt hne), isoStepLength, if_neg (Nat.not_lt.2 hh)]
    omega

/-- Each micro-step of a running command takes one of those left. -/
theorem stepsLeft_engineTurn (h : Inv s) (hb : s.busy = true) (ht : engineTurn s = .next t) : stepsLeft s = stepsLeft t + 1 := by
  rcases engineTurn_next ht with
    ⟨he, -⟩ | ⟨he, hv, rfl⟩ | ⟨he, hv, rfl⟩ | ⟨he, -, ht⟩ | ⟨he, -, ht⟩ | ⟨he, ht⟩ | ⟨he, ht⟩ | ⟨he, rfl⟩
  · simp [State.busy, he] at hb
  · rw [stepsLeft_validate he, microSteps, if_neg hv, stepsLeft_complete]
  · rw [stepsLeft_validate he, microSteps_eq hv]
  · obtain ⟨-, -, -, rfl⟩ := shiftRow_next ht
    rw [stepsLeft_shift he, stepsLeft_complete]
  · obtain ⟨-, -, -, rfl⟩ := shiftRow_next ht
    rw [stepsLeft_shift he, stepsLeft_complete]
  · obtain ⟨-, -, rfl⟩ := eInit_next ht
    obtain ⟨hh, -⟩ := h.passRange (.inl he)
    exact stepsLeft_initDone hh he
  · obtain ⟨-, ⟨hy, -, rfl⟩ | ⟨hy, -, rfl⟩⟩ := eRow_next ht
    · exact stepsLeft_rowAdvanced he hy
    · exact stepsLeft_passEnd (fun hc => (h.engine.stepping (.inr he) hc).1) he hy
  · exact stepsLeft_iSelect_turn h he

/-- With micro-steps left a command runs. -/
theorem busy_of_stepsLeft (hn : stepsLeft s ≠ 0) : s.busy = true := by
  by_contra hb
  rw [stepsLeft, engState_of_not_busy hb] at hn
  exact hn rfl

/-- With none left the engine is in `IDLE`. -/
theorem engState_of_stepsLeft_zero (h : Inv s) (hn : stepsLeft s = 0) : s.engState = .idle := by
  refine engState_of_not_busy fun hb => ?_
  obtain ⟨t, ht⟩ := h.engineTurn_answers
  simp [stepsLeft_engineTurn h hb ht] at hn

/-- With the engine alone, a command runs for as long as micro-steps are left, and then is at its end. -/
theorem run_stepsLeft {n : Nat} (h : Inv s) (hi : s.inputs = []) (hn : stepsLeft s = n) :
    (∃ t, run n s = .next t ∧ t.engState = .idle) ∧ ∀ j < n, ∃ u, run j s = .next u ∧ u.busy = true := by
  induction n generalizing s with
  | zero => exact ⟨⟨s, rfl, engState_of_stepsLeft_zero h hn⟩, nofun⟩
  | succ n ih =>
    have hb : s.busy = true := busy_of_stepsLeft (by omega)
    obtain ⟨t, ht⟩ := h.engineTurn_answers
    have hstep : step s = .next t := (step_of_no_inputs hi).trans ht
    have hinputs : t.inputs = [] := by rw [step_inputs hstep, hi]; rfl
    have hleft := stepsLeft_engineTurn h hb ht
    obtain ⟨hend, hbusy⟩ := ih (h.engineTurn ht) hinputs (by omega)
    refine ⟨by rwa [run_succ_of_step hstep], fun j hj => ?_⟩
    cases j with
    | zero => exact ⟨s, rfl, hb⟩
    | succ j => rw [run_succ_of_step hstep]; exact hbusy j (by omega)

/-- Settles O54: after acceptance the micro-steps left are those of R102, and each step takes one. -/
theorem commandsEndAfterTheirMicroSteps : Obligations.CommandsEndAfterTheirMicroSteps :=
  fun _ h he hi => run_stepsLeft h hi (stepsLeft_validate he)

end Sys2Proof.Machine
end

section
/-! PROOFS. The interleaving (R107): while a command runs, what the engine sees is changed by its own micro-steps alone. -/

namespace Sys2Proof.Machine

variable {s s' t : State}

/-- A state is its engine view with its own host's side. -/
theorem withHostSide_engineView (s : State) :
    s.engineView.withHostSide s.ctrl s.status.herr s.rdata s.inputs = s := rfl

/-- What the engine sees of its turn depends on what it sees of the state alone. -/
theorem engineTurn_of_engineView (hv : s'.engineView = s.engineView) (h : engineTurn s = .next t) :
    ∃ t', engineTurn s' = .next t' ∧ t'.engineView = t.engineView := by
  have hs' : s' = s.withHostSide s'.ctrl s'.status.herr s'.rdata s'.inputs := by
    rw [← withHostSide_engineView s', hv]; rfl
  have hc : s'.command = s.command := by rw [hs']; rfl
  rw [engineTurn_eq_turnOf] at h ⊢
  refine ⟨t.withHostSide s'.ctrl s'.status.herr s'.rdata s'.inputs, ?_, rfl⟩
  rw [hc, hs']
  exact turnOf_withHostSide _ _ _ _ h

/-- While busy there is nothing for a `STATUS` write to clear but `HERR` (R24, R100). -/
theorem clearedBy_busy (h : Inv s) (hb : s.busy = true) (v : Word) :
    s.status.clearedBy v = { s.status with herr := (s.status.clearedBy v).herr } := by
  obtain ⟨hdone, herr⟩ := h.busyFlags hb
  have hcode : s.status.errCode = .ok := by
    by_contra hne
    simp [h.errorCode.2 hne] at herr
  simp [Status.clearedBy, hdone, herr, hcode]

/-- While a command runs no host transaction changes what the engine sees (R107). -/
theorem hostTransaction_engineView (h : Inv s) (hb : s.busy = true) (x : HostTx) :
    (hostTransaction x s).engineView = s.engineView := by
  obtain ⟨c, st, d, e, rfl | rfl | ⟨v, rfl⟩⟩ := hostTransaction_busy x s hb <;> rw [e]
  · rfl
  · rfl
  · rw [clearedBy_busy h hb]; rfl

/-- A step that is no reset shows the engine what it saw, or what its own turn gives. -/
theorem step_engineView (h : Inv s) (hb : s.busy = true) (hr : Event.reset ∉ s.inputs) (ht : step s = .next t) :
    t.engineView = s.engineView ∨ ∃ u, engineTurn s = .next u ∧ u.engineView = t.engineView := by
  rcases step_next ht with ⟨-, ht⟩ | ⟨rest, -, ht⟩ | ⟨x, rest, -, rfl⟩ | ⟨rest, hi, -⟩
  · exact .inr ⟨t, ht, rfl⟩
  · exact .inr (engineTurn_of_engineView (s' := s) (s := { s with inputs := rest }) rfl ht)
  · exact .inl (hostTransaction_engineView (h.frame _ _ _ rest) hb x)
  · simp [hi] at hr

/-- A run without resets against a run of the engine alone, from states that show the engine the same. -/
theorem run_engineView {k : Nat} (h : Inv s) (hr : Event.reset ∉ s.inputs)
    (hb : ∀ j < k, ∃ u, run j s = .next u ∧ u.busy = true) (ht : run k s = .next t) (hi : s'.inputs = [])
    (hv : s'.engineView = s.engineView) :
    ∃ (j : Nat) (t' : State), j ≤ k ∧ run j s' = .next t' ∧ t'.engineView = t.engineView := by
  induction k generalizing s s' with
  | zero => cases ht; exact ⟨0, s', le_rfl, rfl, hv⟩
  | succ k ih =>
    obtain ⟨s₀, hs₀, hbusy⟩ := hb 0 (by omega)
    cases hs₀
    obtain ⟨u, hu⟩ := nothingHangsOrTraps s h
    have hrest : Event.reset ∉ u.inputs := fun hm => hr (List.mem_of_mem_tail (step_inputs hu ▸ hm))
    have hlater (j) (hj : j < k) : ∃ w, run j u = .next w ∧ w.busy = true := by
      rw [← run_succ_of_step hu]; exact hb (j + 1) (by omega)
    rw [run_succ_of_step hu] at ht
    rcases step_engineView h hbusy hr hu with hsame | ⟨w, hw, hwu⟩
    · obtain ⟨j, t', hj, hrun, ht'⟩ := ih (h.step hu) hrest hlater ht hi (hv.trans hsame.symm)
      exact ⟨j, t', by omega, hrun, ht'⟩
    · obtain ⟨u', hu', huv⟩ := engineTurn_of_engineView hv hw
      have hstep : step s' = .next u' := (step_of_no_inputs hi).trans hu'
      have hinputs : u'.inputs = [] := by rw [step_inputs hstep, hi]; rfl
      obtain ⟨j, t', hj, hrun, ht'⟩ := ih (h.step hu) hrest hlater ht hinputs (huv.trans hwu)
      exact ⟨j + 1, t', by omega, by rw [run_succ_of_step hstep]; exact hrun, ht'⟩

/-- Settles O55: the state without its events shows the engine the same. -/
theorem resultIndependentOfInterleaving : Obligations.ResultIndependentOfInterleaving :=
  fun _ _ _ h hr hb ht => run_engineView h hr hb ht rfl rfl

end Sys2Proof.Machine
end

section
/-! PROOFS. The row shifts as functions: one integer identity for each shift (R125), of which the pixel forms (R121, R122), the word
form (R124) and the round trips (R129) are consequences. -/

namespace Sys2Proof.Machine

variable {bs : Row} {p : Nat}

/-! ## The row as one big-endian integer (R125) -/

@[simp] theorem rowToNat_nil : rowToNat [] = 0 := rfl

theorem foldl_bigEndian (bs : Row) (n : Nat) :
    bs.foldl (fun acc b => acc * 256 + b.toNat) n = n * 2 ^ (8 * bs.length) + rowToNat bs := by
  induction bs generalizing n with
  | nil => simp
  | cons b bs ih =>
    rw [rowToNat, List.foldl_cons, List.foldl_cons, ih, ih (0 * 256 + b.toNat), List.length_cons]
    ring

@[simp] theorem rowToNat_cons (b : Byte) (bs : Row) : rowToNat (b :: bs) = b.toNat * 2 ^ (8 * bs.length) + rowToNat bs := by
  rw [rowToNat, List.foldl_cons, foldl_bigEndian]; simp

theorem rowToNat_lt (bs : Row) : rowToNat bs < 2 ^ (8 * bs.length) := by
  induction bs with
  | nil => simp
  | cons b bs ih =>
    calc rowToNat (b :: bs) < b.toNat * 2 ^ (8 * bs.length) + 2 ^ (8 * bs.length) := by
          rw [rowToNat_cons]; exact Nat.add_lt_add_left ih _
      _ = (b.toNat + 1) * 2 ^ (8 * bs.length) := (Nat.add_one_mul ..).symm
      _ ≤ 2 ^ 8 * 2 ^ (8 * bs.length) := Nat.mul_le_mul_right _ b.isLt
      _ = 2 ^ (8 * (b :: bs).length) := by rw [List.length_cons]; ring

/-- Pixel `p` is the `p`-th bit of the integer from the top (R61). -/
theorem pix_eq_testBit (hp : p < 8 * bs.length) : pix bs p = (rowToNat bs).testBit (8 * bs.length - 1 - p) := by
  induction bs generalizing p with
  | nil => simp at hp
  | cons b bs ih =>
    rw [List.length_cons] at hp ⊢
    rw [rowToNat_cons, Nat.mul_comm, Nat.testBit_two_pow_mul_add _ (rowToNat_lt bs)]
    rcases Nat.lt_or_ge p 8 with h8 | h8
    · have hbyte : p / 8 = 0 := by omega
      have hbit : 8 * (bs.length + 1) - 1 - p - 8 * bs.length = 7 - p % 8 := by omega
      rw [if_neg (by omega), hbit, pix, hbyte]; rfl
    · have hbyte : p / 8 = (p - 8) / 8 + 1 := by omega
      have hbit : 8 * (bs.length + 1) - 1 - p = 8 * bs.length - 1 - (p - 8) := by omega
      rw [if_pos (by omega), hbit, ← ih (by omega), pix, pix, hbyte, List.getD_cons_succ]
      congr 2; omega

/-! ## One byte of a shift, as numbers -/

/-- A byte of a left shift and the bit that leaves it hold the doubled byte and the bit that enters. -/
theorem toNat_shiftL_byte (b c : Byte) :
    ((b <<< 1) ||| (c >>> 7)).toNat + (b >>> 7).toNat * 2 ^ 8 = 2 * b.toNat + (c >>> 7).toNat := by
  have hout (x : Byte) : (x >>> 7).toNat = x.toNat / 2 ^ 7 := by rw [BitVec.toNat_ushiftRight, Nat.shiftRight_eq_div_pow]
  have hdouble : (b <<< 1).toNat = 2 ^ 1 * (b.toNat % 2 ^ 7) := by rw [BitVec.toNat_shiftLeft, Nat.shiftLeft_eq]; omega
  rw [BitVec.toNat_or, hdouble, ← Nat.two_pow_add_eq_or_of_lt (by rw [hout]; omega), hout, hout]
  omega

theorem toNat_and_one (b : Byte) : (b &&& 1).toNat = b.toNat % 2 := Nat.and_one_is_mod _

/-- A byte of a right shift is the byte halved, with the bit that enters at the top. -/
theorem toNat_shiftR_byte (prev b : Byte) :
    ((b >>> 1) ||| ((prev &&& 1) <<< 7)).toNat = (prev &&& 1).toNat * 2 ^ 7 + b.toNat / 2 := by
  have htop : ((prev &&& 1) <<< 7).toNat = 2 ^ 7 * (prev &&& 1).toNat := by
    rw [BitVec.toNat_shiftLeft, Nat.shiftLeft_eq, toNat_and_one]; omega
  have hhalf : (b >>> 1).toNat = b.toNat / 2 := by rw [BitVec.toNat_ushiftRight, Nat.shiftRight_eq_div_pow]
  rw [BitVec.toNat_or, Nat.or_comm, htop, hhalf, ← Nat.two_pow_add_eq_or_of_lt (by omega), Nat.mul_comm]

/-! ## The integer form (R125) -/

/-- The left shift and the bit that leaves the row make up the doubled integer. -/
theorem rowToNat_shiftL_add (bs : Row) :
    rowToNat (shiftL bs) + (bs.headD 0 >>> 7).toNat * 2 ^ (8 * bs.length) = 2 * rowToNat bs := by
  induction bs with
  | nil => rfl
  | cons b bs ih =>
    have hb := toNat_shiftL_byte b (bs.headD 0)
    rw [shiftL, rowToNat_cons, length_shiftL, List.headD_cons, List.length_cons, rowToNat_cons]
    linear_combination ih + 2 ^ (8 * bs.length) * hb

theorem rowToNat_shiftL (bs : Row) : rowToNat (shiftL bs) = (rowToNat bs * 2) % 2 ^ (8 * bs.length) := by
  have hlt : rowToNat (shiftL bs) < 2 ^ (8 * bs.length) := length_shiftL bs ▸ rowToNat_lt (shiftL bs)
  rw [Nat.mul_comm, ← rowToNat_shiftL_add, Nat.add_mul_mod_self_right, Nat.mod_eq_of_lt hlt]

/-- The right shift halves the integer with the bit that enters the row above it. -/
theorem rowToNat_shiftRFrom (prev : Byte) (bs : Row) :
    rowToNat (shiftRFrom prev bs) = ((prev &&& 1).toNat * 2 ^ (8 * bs.length) + rowToNat bs) / 2 := by
  induction bs generalizing prev with
  | nil => simp [shiftRFrom]
  | cons b bs ih =>
    have hb : 2 * (b.toNat / 2) + (b &&& 1).toNat = b.toNat := by rw [toNat_and_one]; exact Nat.div_add_mod _ _
    rw [shiftRFrom, rowToNat_cons, length_shiftRFrom, ih, toNat_shiftR_byte, ← Nat.mul_add_div (by decide : 2 > 0)]
    congr 1
    rw [rowToNat_cons, List.length_cons]
    linear_combination 2 ^ (8 * bs.length) * hb

theorem rowToNat_shiftR (bs : Row) : rowToNat (shiftR bs) = rowToNat bs / 2 := by
  rw [shiftR, rowToNat_shiftRFrom]; simp

/-- Settles O21: by the byte's own identity, carried along the row. -/
theorem shiftIntegerForm : Obligations.ShiftIntegerForm :=
  ⟨fun bs => ⟨length_shiftL bs, length_shiftR bs, rowToNat_shiftL bs, rowToNat_shiftR bs⟩, rfl, rfl⟩

/-! ## The pixel forms (R121, R122) -/

theorem pix_shiftL (hp : p < 8 * bs.length) :
    pix (shiftL bs) p = if p + 1 < 8 * bs.length then pix bs (p + 1) else false := by
  rw [pix_eq_testBit (by rwa [length_shiftL]), length_shiftL, rowToNat_shiftL, Nat.testBit_mod_two_pow]
  split
  · rename_i hnext
    have hbit : 8 * bs.length - 1 - p = 8 * bs.length - 1 - (p + 1) + 1 := by omega
    rw [pix_eq_testBit hnext, hbit, Nat.testBit_succ, Nat.mul_div_cancel _ (by decide)]
    simp; omega
  · have hbit : 8 * bs.length - 1 - p = 0 := by omega
    simp [hbit]

theorem pix_shiftR (hp : p < 8 * bs.length) : pix (shiftR bs) p = if 1 ≤ p then pix bs (p - 1) else false := by
  rw [pix_eq_testBit (by rwa [length_shiftR]), length_shiftR, rowToNat_shiftR, ← Nat.testBit_add_one]
  split
  · rw [pix_eq_testBit (by omega)]
    congr 1; omega
  · have hbit : 8 * bs.length - 1 - p + 1 = 8 * bs.length := by omega
    rw [hbit, Nat.testBit_lt_two_pow (rowToNat_lt bs)]

/-- Settles O18: doubling the integer moves every bit one place up. -/
theorem shiftLeftTakesNextPixel : Obligations.ShiftLeftTakesNextPixel :=
  fun bs => ⟨length_shiftL bs, fun _ hp => pix_shiftL hp⟩

/-- Settles O19: halving the integer moves every bit one place down. -/
theorem shiftRightTakesPreviousPixel : Obligations.ShiftRightTakesPreviousPixel :=
  fun bs => ⟨length_shiftR bs, fun _ hp => pix_shiftR hp⟩

/-! ## The round trips (R129) -/

theorem pix_shiftR_shiftL (hp : p < 8 * bs.length) : pix (shiftR (shiftL bs)) p = if p = 0 then false else pix bs p := by
  rw [pix_shiftR (by rwa [length_shiftL])]
  rcases p with - | q
  · rfl
  · rw [if_pos (by omega), Nat.add_sub_cancel, pix_shiftL (by omega), if_pos hp, if_neg (by omega)]

theorem pix_shiftL_shiftR (hp : p < 8 * bs.length) :
    pix (shiftL (shiftR bs)) p = if p = 8 * bs.length - 1 then false else pix bs p := by
  rw [pix_shiftL (by rwa [length_shiftR]), length_shiftR]
  by_cases hlast : p = 8 * bs.length - 1
  · rw [if_pos hlast, if_neg (by omega)]
  · rw [if_neg hlast, if_pos (by omega), pix_shiftR (by omega), if_pos (by omega), Nat.add_sub_cancel]

/-- Settles O22: each trip composes the two pixel forms. -/
theorem shiftRoundTripClearsOneEdge : Obligations.ShiftRoundTripClearsOneEdge :=
  fun bs _ => ⟨by simp, by simp, fun _ hp => ⟨pix_shiftR_shiftL hp, pix_shiftL_shiftR hp⟩⟩

/-! ## The word form (R124) -/

/-- The chunk that a logical word reads. -/
theorem pix_chunk {j : Nat} (hp : p < 64) : pix ((bs.drop (8 * j)).take 8) p = pix bs (64 * j + p) := by
  have hbyte : (64 * j + p) / 8 = 8 * j + p / 8 := by omega
  have hbit : (64 * j + p) % 8 = p % 8 := by omega
  have h8 : p / 8 < 8 := by omega
  rw [pix, pix, hbyte, hbit]
  simp [List.getD, h8]

/-- Bit `i` of word `j` is the `i`-th pixel from the end of the word's eight bytes (R63). -/
theorem getLsbD_wordAt {i j : Nat} (hj : j < bs.length / 8) (hi : i < 64) :
    (wordAt bs j).getLsbD i = pix bs (64 * j + (63 - i)) := by
  have hlen : ((bs.drop (8 * j)).take 8).length = 8 := by simp; omega
  have hbit : 8 * 8 - 1 - (63 - i) = i := by omega
  rw [← pix_chunk (by omega), pix_eq_testBit (by omega), hlen, hbit, wordAt, BitVec.getLsbD_ofNat]
  simp [hi]

/-- The bit that enters a word at the bottom. -/
theorem getLsbD_topBit (c : Byte) {i : Nat} (hi : i < 64) :
    ((c >>> 7).setWidth 64).getLsbD i = (decide (i = 0) && c.getLsbD 7) := by
  rcases i with - | i
  · simp
  · simp [hi, BitVec.getLsbD_of_ge c (7 + (i + 1)) (by omega)]

/-- The bit that enters a word at the top. -/
theorem getLsbD_lowBit (c : Byte) {i : Nat} (hi : i < 64) :
    ((c &&& 1).setWidth 64 <<< 63).getLsbD i = (decide (i = 63) && c.getLsbD 0) := by
  by_cases h : i = 63
  · subst h; simp
  · have h63 : i < 63 := by omega
    simp [h, h63]

theorem wordAt_shiftL {j : Nat} (hj : j < bs.length / 8) :
    wordAt (shiftL bs) j = (wordAt bs j <<< 1) |||
      (if 8 * j + 8 < bs.length then (bs.getD (8 * j + 8) 0 >>> 7).setWidth 64 else 0) := by
  refine BitVec.eq_of_getLsbD_eq fun i hi => ?_
  rw [getLsbD_wordAt (by rwa [length_shiftL]) hi, pix_shiftL (by omega), BitVec.getLsbD_or, BitVec.getLsbD_shiftLeft]
  rcases i with - | i
  · have hnext : pix bs (64 * j + 64) = (bs.getD (8 * j + 8) 0).getLsbD 7 := by
      rw [pix]; congr <;> omega
    have hin : 64 * j + 64 < 8 * bs.length ↔ 8 * j + 8 < bs.length := by omega
    simp only [Nat.sub_zero, Nat.add_assoc, Nat.reduceAdd, hnext, hin]
    split
    · rw [getLsbD_topBit _ hi]; simp
    · simp
  · have hpix : 64 * j + (63 - (i + 1)) + 1 = 64 * j + (63 - i) := by omega
    rw [if_pos (by omega), hpix, ← getLsbD_wordAt hj (by omega)]
    split
    · rw [getLsbD_topBit _ hi]; simp [hi]
    · simp [hi]

theorem wordAt_shiftR {j : Nat} (hj : j < bs.length / 8) :
    wordAt (shiftR bs) j = (wordAt bs j >>> 1) |||
      (if 1 ≤ j then (bs.getD (8 * j - 1) 0 &&& 1).setWidth 64 <<< 63 else 0) := by
  refine BitVec.eq_of_getLsbD_eq fun i hi => ?_
  rw [getLsbD_wordAt (by rwa [length_shiftR]) hi, pix_shiftR (by omega), BitVec.getLsbD_or, BitVec.getLsbD_ushiftRight]
  by_cases htop : i = 63
  · subst htop
    have hprev (h : 1 ≤ j) : pix bs (64 * j - 1) = (bs.getD (8 * j - 1) 0).getLsbD 0 := by
      rw [pix]; congr <;> omega
    have hin : 1 ≤ 64 * j ↔ 1 ≤ j := by omega
    simp only [Nat.sub_self, Nat.add_zero, hin]
    split
    · rw [getLsbD_lowBit _ hi, hprev ‹_›]; simp
    · simp
  · have hpix : 64 * j + (63 - i) - 1 = 64 * j + (63 - (1 + i)) := by omega
    rw [if_pos (by omega), hpix, ← getLsbD_wordAt hj (by omega)]
    split
    · rw [getLsbD_lowBit _ hi]; simp [htop]
    · simp

/-- Settles O20: the word form by pixels, the byte form as the shifts are defined. -/
theorem shiftWordAndByteForms : Obligations.ShiftWordAndByteForms := by
  refine fun bs => ⟨fun j hj => ⟨wordAt_shiftL hj, wordAt_shiftR hj⟩, fun k hk => ⟨?_, getD_shiftR bs k hk⟩⟩
  rw [getD_shiftL bs k hk]
  split
  · rfl
  · rw [List.getD_eq_default bs 0 (show bs.length ≤ k + 1 by omega)]; rfl

end Sys2Proof.Machine
end

section
/-! PROOFS. The shift commands `SHL` and `SHR`: their `SHIFT` micro-step (R126 to R128, R146) and the whole command. -/

namespace Sys2Proof.Machine

variable {s : State} {i : Instr} {f : Row → Row} {k : Fin 9}

/-- The command `i` shifts rows with `f`, and its result also goes to buffer `k` (R126, R127). -/
def ShiftsWith (i : Instr) (f : Row → Row) (k : Fin 9) : Prop :=
  (i = .shl ∧ f = shiftL ∧ k = 0) ∨ (i = .shr ∧ f = shiftR ∧ k = 2)

theorem ShiftsWith.length_eq (h : ShiftsWith i f k) (bs : Row) : (f bs).length = bs.length := by
  rcases h with ⟨-, rfl, -⟩ | ⟨-, rfl, -⟩
  · exact length_shiftL bs
  · exact length_shiftR bs

theorem ShiftsWith.ne_one (h : ShiftsWith i f k) : k ≠ 1 := by
  rcases h with ⟨-, -, rfl⟩ | ⟨-, -, rfl⟩ <;> decide

theorem ShiftsWith.exec_shift (h : ShiftsWith i f k) (he : s.engState = .shift) : exec i s = shiftRow f k s := by
  rw [exec_eq_microStep]
  simp only [microStep, he]
  rcases h with ⟨rfl, rfl, rfl⟩ | ⟨rfl, rfl, rfl⟩ <;> rfl

theorem ShiftsWith.beginOf_eq (h : ShiftsWith i f k) (hl : 0 < s.shiftLen) :
    beginOf (.legal i) s = { s with engState := .shift } := by
  rcases h with ⟨rfl, -, -⟩ | ⟨rfl, -, -⟩ <;> exact if_neg hl.ne'

theorem ShiftsWith.validate_eq (h : ShiftsWith i f k) : validate (.legal i) s = validateShift s := by
  rcases h with ⟨rfl, -, -⟩ | ⟨rfl, -, -⟩
  · exact validate_shift (.inl rfl) s
  · exact validate_shift (.inr rfl) s

/-! ## The cache after a shift (R146) -/

section
variable (c : Cache) {src res : Row} {n : Nat}

theorem Cache.take_scratch_source (hsrc : src.length = n) (hk : k ≠ 1) :
    (((c.write 1 src).write k res).buf 1).take n = src := by
  rw [← hsrc, Cache.buf_write_ne _ _ hk.symm, Cache.take_write_self]

theorem Cache.take_scratch_result (hres : res.length = n) : (((c.write 1 src).write k res).buf k).take n = res := by
  rw [← hres, Cache.take_write_self]

theorem Cache.drop_scratch (hsrc : src.length = n) (hres : res.length = n) (j : Fin 9) :
    (((c.write 1 src).write k res).buf j).drop n = (c.buf j).drop n := by
  rw [← hres, Cache.drop_write, hres, ← hsrc, Cache.drop_write]

theorem Cache.buf_scratch_ne {j : Fin 9} (h1 : j ≠ 1) (hk : j ≠ k) : ((c.write 1 src).write k res).buf j = c.buf j := by
  rw [Cache.buf_write_ne _ _ hk, Cache.buf_write_ne _ _ h1]

end

/-! ## The micro-step -/

/-- Settles O25: the source row is what the engine reads at the start of the micro-step. -/
theorem shiftStepWritesShiftedSource : Obligations.ShiftStepWritesShiftedSource := by
  intro i f k s (h : ShiftsWith i f k) he hsrc hdst hlen
  have hread : (memRead s s.shiftSrc s.shiftLen).length = s.shiftLen := length_memRead s _ _
  have hres : (f (memRead s s.shiftSrc s.shiftLen)).length = s.shiftLen := (h.length_eq _).trans hread
  refine ⟨_, memRead s s.shiftSrc s.shiftLen, (h.exec_shift he).trans (shiftRow_answers f k s hsrc hdst hlen), hread,
    fun n hn => getD_memRead s _ _ n hn, fun n hn => ?_, fun a ha => ?_, s.cache.take_scratch_source hread h.ne_one,
    s.cache.take_scratch_result hres, s.cache.drop_scratch hread hres, fun _ => s.cache.buf_scratch_ne, rfl, rfl⟩
  · exact Memory.get?_writeRow_in _ _ _ n (hres.symm ▸ hn)
  · exact Memory.get?_writeRow_out _ _ _ a (hres.symm ▸ ha)

/-! ## The whole command -/

/-- The two micro-steps of a valid shift of a written row leave the shifted row at the destination. -/
theorem ShiftsWith.run_two (h : ShiftsWith i f k) (he : s.engState = .validate) (hi : s.inputs = [])
    (hv : validateShift s = .ok) (hl : 0 < s.shiftLen) (hw : s.imem.holds s.shiftSrc s.shiftLen) (hc : s.command = .legal i) :
    ∃ t : State, run 2 s = .next t ∧ t.engState = .idle ∧ t.status = { s.status with done := true } ∧
      t.imem.holds s.shiftDst s.shiftLen ∧
      t.imem.rowOf s.shiftDst s.shiftLen = f (s.imem.rowOf s.shiftSrc s.shiftLen) := by
  obtain ⟨hcap, hsrc, hdst⟩ := validateShift_ok hv
  obtain ⟨t, src, hexec, hlen, hread, hwrite, -, -, -, -, -, -, ht⟩ :=
    shiftStepWritesShiftedSource i f k { s with engState := .shift } h rfl hsrc hdst hcap
  have hfirst : step s = .next { s with engState := .shift } := by
    rw [step_validate_ok he hi (by rw [hc, h.validate_eq]; exact hv), hc, h.beginOf_eq hl]
  have hsecond : step { s with engState := .shift } = .next t :=
    ((stepRunsDecodedCommand { s with engState := .shift } i hc).1 hi).trans hexec
  have hrow : s.imem.rowOf s.shiftSrc s.shiftLen = src :=
    Memory.rowOf_of_get? hlen fun n hn => by
      obtain ⟨b, hb⟩ := Option.isSome_iff_exists.1 (hw n hn)
      rw [hread n hn b hb]; exact hb
  refine ⟨t, ?_, by rw [ht], by rw [ht], fun n hn => Option.isSome_iff_exists.2 ⟨_, hwrite n hn⟩, ?_⟩
  · rw [run_succ_of_step hfirst, run_succ_of_step hsecond]; rfl
  · rw [hrow]; exact Memory.rowOf_of_get? ((h.length_eq src).trans hlen) hwrite

/-- Settles O26: the pixel forms of the two shifts, of the row at the source. -/
theorem shiftCommandMovesPixels : Obligations.ShiftCommandMovesPixels := by
  intro s _ he hi hv hl hw
  have hlen : (s.imem.rowOf s.shiftSrc s.shiftLen).length = s.shiftLen := Memory.length_rowOf _ _ _
  refine ⟨fun hc => ?_, fun hc => ?_⟩
  · obtain ⟨t, hrun, hidle, hst, hholds, hrow⟩ := ShiftsWith.run_two (.inl ⟨rfl, rfl, rfl⟩) he hi hv hl hw hc
    exact ⟨t, hrun, hidle, hst, hholds, fun p hp => by rw [hrow, pix_shiftL (by rwa [hlen]), hlen]⟩
  · obtain ⟨t, hrun, hidle, hst, hholds, hrow⟩ := ShiftsWith.run_two (.inr ⟨rfl, rfl, rfl⟩) he hi hv hl hw hc
    exact ⟨t, hrun, hidle, hst, hholds, fun p hp => by rw [hrow, pix_shiftR (by rwa [hlen])]⟩

end Sys2Proof.Machine
end

section
/-! PROOFS. The window at an `E_ROW` (R145, R148): what a pass establishes in it and every step keeps, and the original rows that
it holds throughout a pass. -/

namespace Sys2Proof.Machine

variable {s t : State}

/-! ## The window, step by step -/

/-- Outside `E_ROW` nothing is asked of the window. -/
theorem window_of_engState (h : s.engState ≠ .eRow) : Window s :=
  ⟨fun he => absurd he h, fun he => absurd he h, fun he => absurd he h⟩

/-- The window says nothing of the host's side of the state. -/
theorem Window.frame (h : Window s) (ctrl : Ctrl) (st : Status) (r : Word) (evs : List Event) :
    Window { s with ctrl := ctrl, status := st, rdata := r, inputs := evs } :=
  ⟨h.variants, h.cursorRow, h.belowRow⟩

/-- The engine's turn reaches an `E_ROW` only from `E_INIT`, or from an `E_ROW` that advances (R101). -/
theorem engineTurn_to_eRow (h : engineTurn s = .next t) (ht : t.engState = .eRow) :
    (s.engState = .eInit ∧ t = initDone s) ∨
    (s.engState = .eRow ∧ s.rowCursor.toNat + 2 < s.height ∧ t = rowAdvanced s) := by
  rcases engineTurn_next h with
    ⟨he, rfl⟩ | ⟨-, -, rfl⟩ | ⟨-, -, rfl⟩ | ⟨-, -, h⟩ | ⟨-, -, h⟩ | ⟨he, h⟩ | ⟨he, h⟩ | ⟨he, rfl⟩
  · rw [he] at ht; cases ht
  · cases ht
  · rcases beginOf_cases s.command s with ⟨code, e, -⟩ | ⟨-, -, e⟩ | ⟨i, -, -, ⟨-, e⟩ | ⟨-, e⟩⟩ | ⟨-, e⟩ <;>
      rw [e] at ht <;> cases ht
  · obtain ⟨-, -, -, rfl⟩ := shiftRow_next h; cases ht
  · obtain ⟨-, -, -, rfl⟩ := shiftRow_next h; cases ht
  · obtain ⟨-, -, rfl⟩ := eInit_next h
    exact .inl ⟨he, rfl⟩
  · obtain ⟨-, ⟨hlt, -, rfl⟩ | ⟨-, -, rfl⟩⟩ := eRow_next h
    · exact .inr ⟨he, hlt, rfl⟩
    · rcases passEndOf_cases s.command (rowWritten s) with ⟨-, e⟩ | ⟨-, e⟩ <;> rw [e] at ht <;> cases ht
  · rcases iSelect_cases s with ⟨-, e⟩ | ⟨-, -, e⟩ | ⟨-, -, e⟩ <;> rw [e] at ht <;> cases ht

/-- `E_INIT` establishes the window, with rows 1 and 2 at and below the cursor (R162). -/
theorem window_initDone (s : State) : Window (initDone s) where
  variants _ lr v := by rw [windowBuf_initDone, windowBuf_initDone, variant_one]
  cursorRow _ k hk b hb := by
    rw [initDone_stride] at hk
    rw [initDone_imem, initDone_rowAddr] at hb
    rw [windowBuf_initDone, variant_one]
    exact getD_initRow s 1 k hk b hb
  belowRow _ k hk b hb := by
    rw [initDone_stride] at hk
    rw [initDone_imem, initDone_rowAddr] at hb
    rw [windowBuf_initDone, variant_one]
    exact getD_initRow s 2 k hk b hb

/-- `E_ROW` of a pass under way leaves every byte below its row. -/
theorem get?_rowWritten_below (h : Inv s) (he : s.engState = .eRow) {a : Nat}
    (ha : s.rowAddr (s.rowCursor.toNat + 1) ≤ a) : (rowWritten s).imem.get? a = s.imem.get? a := by
  obtain ⟨-, hs, -⟩ := h.passRange (.inr he)
  rw [rowAddr_succ] at ha
  exact get?_rowWritten_out s _ h.bufferLength hs a (.inr ha)

/-- An `E_ROW` that advances keeps the window: the row below the cursor is not yet written when the cursor reaches it, and the
row loaded is as IMEM holds it (R144, R148). -/
theorem Window.rowAdvanced (hw : Window s) (h : Inv s) (he : s.engState = .eRow)
    (hlt : s.rowCursor.toNat + 2 < s.height) : Window (rowAdvanced s) where
  variants _ lr v := by
    obtain ⟨h0, h1, h2⟩ := windowBuf_rowAdvanced s v
    obtain ⟨i0, i1, i2⟩ := windowBuf_rowAdvanced s 1
    match lr with
    | 0 => rw [h0, i0]; exact hw.variants he 1 v
    | 1 => rw [h1, i1]; exact hw.variants he 2 v
    | 2 => rw [h2, i2, variant_one]
  cursorRow _ k hk b hb := by
    obtain ⟨-, h1, -⟩ := windowBuf_rowAdvanced s 1
    rw [rowAdvanced_stride] at hk
    rw [rowAdvanced_imem, rowAdvanced_rowAddr, rowAdvanced_rowCursor, rowCursor_succ hlt,
      get?_rowWritten_below h he (Nat.le_add_right _ k)] at hb
    rw [h1]
    exact hw.belowRow he k hk b hb
  belowRow _ k hk b hb := by
    obtain ⟨-, -, h2⟩ := windowBuf_rowAdvanced s 1
    rw [rowAdvanced_stride] at hk
    rw [rowAdvanced_imem, rowAdvanced_rowAddr, rowAdvanced_rowCursor, rowCursor_succ hlt] at hb
    rw [h2, variant_one]
    exact getD_memRead (rowWritten s) _ _ k hk b hb

/-- The engine's turn keeps the window. -/
theorem Window.engineTurn (hw : Window s) (h : Inv s) (ht : engineTurn s = .next t) : Window t := by
  by_cases he : t.engState = .eRow
  · rcases engineTurn_to_eRow ht he with ⟨-, rfl⟩ | ⟨hs, hlt, rfl⟩
    · exact window_initDone s
    · exact hw.rowAdvanced h hs hlt
  · exact window_of_engState he

/-- A host transaction keeps the window: during a pass it reaches neither IMEM nor the operands (R43, R65). -/
theorem Window.hostTransaction (hw : Window s) (x : HostTx) : Window (hostTransaction x s) := by
  by_cases hb : s.busy = true
  · obtain ⟨c, st, d, e, -⟩ := hostTransaction_busy x s hb
    rw [e]
    exact hw.frame c st d s.inputs
  · have hi := engState_of_not_busy hb
    rcases hostTransaction_engState x s with e | e <;> exact window_of_engState (by rw [e]; simp [hi])

/-- Settles O52: only `E_INIT` and an advancing `E_ROW` reach an `E_ROW`; the host and the reset input touch no window. -/
theorem everyStepKeepsTheWindow : Obligations.EveryStepKeepsTheWindow := by
  intro s t h hw ht
  rcases step_next ht with ⟨-, ht⟩ | ⟨rest, -, ht⟩ | ⟨x, rest, -, rfl⟩ | ⟨rest, -, rfl⟩
  · exact hw.engineTurn h ht
  · exact (hw.frame _ _ _ rest).engineTurn (h.frame _ _ _ rest) ht
  · exact (hw.frame _ _ _ rest).hostTransaction x
  · exact window_of_engState (by simp)

/-! ## The original rows of a pass -/

/-- The state in which the `E_ROW` of row `k + 1` begins, in a pass that the engine runs alone from `E_INIT`. -/
def passState (s : State) : Nat → State
  | 0 => initDone s
  | k + 1 => rowAdvanced (passState s k)

/-- Row `y` of the image as the pass reads it: rows 0 and 1 at `E_INIT`, every later row as it enters the window. -/
def passRow (s : State) : Nat → Row
  | 0 => initRow s 0
  | 1 => initRow s 1
  | y + 2 => (passState s y).windowBuf 2 1

/-- When the `E_ROW` of row `k + 1` begins, window row `lr` holds row `k + lr` in its three variants (R145). -/
theorem windowBuf_passState (s : State) (k : Nat) (lr v : Fin 3) :
    (passState s k).windowBuf lr v = variant (passRow s (k + lr.val)) v := by
  induction k generalizing lr with
  | zero =>
    rw [passState, windowBuf_initDone]
    match lr with
    | 0 => rfl
    | 1 => rfl
    | 2 => rw [← variant_one (initRow s 2), ← windowBuf_initDone]; rfl
  | succ k ih =>
    obtain ⟨h0, h1, h2⟩ := windowBuf_rowAdvanced (passState s k) v
    match lr with
    | 0 => exact h0.trans (ih 1)
    | 1 => exact h1.trans (ih 2)
    | 2 =>
      obtain ⟨-, -, i2⟩ := windowBuf_rowAdvanced (passState s k) 1
      rw [variant_one] at i2
      exact h2.trans (congrArg (variant · v) i2.symm)

/-- What holds of the state `t` in which the `E_ROW` of row `k + 1` begins, in a pass that the engine runs alone from the
`E_INIT` at `s`: the invariants, and that the rows from `k + 1` on stand in IMEM as when the pass began. -/
structure BeginsRow (s : State) (k : Nat) (t : State) : Prop where
  inv : Inv t
  window : Window t
  engState : t.engState = .eRow
  rowCursor : t.rowCursor.toNat = k + 1
  ops : t.ops = s.ops
  inputs : t.inputs = []
  unwritten : ∀ a, s.rowAddr (k + 1) ≤ a → t.imem.get? a = s.imem.get? a

theorem BeginsRow.stride {k : Nat} (h : BeginsRow s k t) : t.stride = s.stride := by simp [State.stride, h.ops]

theorem BeginsRow.height {k : Nat} (h : BeginsRow s k t) : t.height = s.height := by simp [State.height, h.ops]

theorem BeginsRow.rowAddr {k : Nat} (h : BeginsRow s k t) (y : Nat) : t.rowAddr y = s.rowAddr y := by
  simp [State.rowAddr, State.stride, h.ops]

/-- Each byte of the row below the cursor stands in the window as it stood in IMEM when the pass began. -/
theorem BeginsRow.getD_below {k n : Nat} (h : BeginsRow s k t) (hn : n < s.stride) {b : Byte}
    (hb : s.imem.get? (s.rowAddr (k + 2) + n) = some b) : (t.windowBuf 2 1).getD n 0 = b := by
  have ha : s.rowAddr (k + 1) ≤ s.rowAddr (k + 2) + n := (rowAddr_mono s (by omega)).trans (Nat.le_add_right _ _)
  refine h.window.belowRow h.engState n (by rwa [h.stride]) b ?_
  rw [h.rowCursor, h.rowAddr, h.unwritten _ ha]
  exact hb

/-- `E_INIT` goes on to the `E_ROW` of row 1. -/
theorem beginsRow_initDone (h : Inv s) (he : s.engState = .eInit) (hi : s.inputs = []) :
    step s = .next (initDone s) ∧ BeginsRow s 0 (initDone s) := by
  obtain ⟨hh, hs, hr⟩ := h.passRange (.inl he)
  have hstep : step s = .next (initDone s) := step_eInit he hi ((rowAddr_mono s hh).trans hr) hs
  refine ⟨hstep, h.initDone he, window_initDone s, rfl, rfl, ?_, ?_, fun a _ => by rw [initDone_imem]⟩
  · rw [initDone_eq]
  · rw [step_inputs hstep, hi]; rfl

/-- An `E_ROW` before the last interior row goes on to the next. -/
theorem BeginsRow.advance {k : Nat} (h : BeginsRow s k t) (hk : k + 4 ≤ s.height) :
    step t = .next (rowAdvanced t) ∧ BeginsRow s (k + 1) (rowAdvanced t) := by
  obtain ⟨-, hs, hr⟩ := h.inv.passRange (.inr h.engState)
  have hlt : t.rowCursor.toNat + 2 < t.height := by rw [h.rowCursor, h.height]; omega
  have hstep : step t = .next (Machine.rowAdvanced t) :=
    step_eRow_advances h.engState h.inputs hlt ((rowAddr_mono t hlt).trans hr) hs
  refine ⟨hstep, h.inv.rowAdvanced h.engState hlt, h.window.rowAdvanced h.inv h.engState hlt, ?_, ?_, ?_, ?_, fun a ha => ?_⟩
  · rw [rowAdvanced_engState, h.engState]
  · rw [rowAdvanced_rowCursor, rowCursor_succ hlt, h.rowCursor]
  · rw [rowAdvanced_eq]; exact h.ops
  · rw [step_inputs hstep, h.inputs]; rfl
  · rw [rowAdvanced_imem, get?_rowWritten_below h.inv h.engState (by rwa [h.rowCursor, h.rowAddr])]
    exact h.unwritten a ((rowAddr_mono s (by omega)).trans ha)

/-- The `E_ROW` of row `k + 1` begins after `k + 1` micro-steps of a pass. -/
theorem run_passState (h : Inv s) (he : s.engState = .eInit) (hi : s.inputs = []) {k : Nat} (hk : k + 3 ≤ s.height) :
    run (k + 1) s = .next (passState s k) ∧ BeginsRow s k (passState s k) := by
  induction k with
  | zero =>
    obtain ⟨hstep, hrow⟩ := beginsRow_initDone h he hi
    exact ⟨by rw [run_succ_of_step hstep]; rfl, hrow⟩
  | succ k ih =>
    obtain ⟨hrun, hrow⟩ := ih (by omega)
    obtain ⟨hstep, hnext⟩ := hrow.advance hk
    exact ⟨by rw [run_add hrun, run_succ_of_step hstep]; rfl, hnext⟩

/-- A row of a pass is one stride long. -/
theorem length_passRow (h : Inv s) (he : s.engState = .eInit) (hi : s.inputs = []) {y : Nat} (hy : y < s.height) :
    (passRow s y).length = s.stride := by
  match y with
  | 0 => exact length_initRow s 0
  | 1 => exact length_initRow s 1
  | y + 2 =>
    obtain ⟨-, hrow⟩ := run_passState h he hi hy
    obtain ⟨-, hs, -⟩ := hrow.inv.passRange (.inr hrow.engState)
    rw [passRow, State.windowBuf, List.length_take, hrow.inv.bufferLength, Nat.min_eq_left hs, hrow.stride]

/-- A row of a pass has every byte that IMEM held when the pass began. -/
theorem getD_passRow (h : Inv s) (he : s.engState = .eInit) (hi : s.inputs = []) {y n : Nat} (hy : y < s.height)
    (hn : n < s.stride) {b : Byte} (hb : s.imem.get? (s.rowAddr y + n) = some b) : (passRow s y).getD n 0 = b := by
  match y with
  | 0 => exact getD_initRow s 0 n hn b hb
  | 1 => exact getD_initRow s 1 n hn b hb
  | y + 2 =>
    obtain ⟨-, hrow⟩ := run_passState h he hi hy
    exact hrow.getD_below hn hb

/-- The image as a pass from `E_INIT` reads it. -/
def passImage (s : State) : List Row := (List.range s.height).map (passRow s)

@[simp] theorem length_passImage (s : State) : (passImage s).length = s.height := by simp [passImage]

theorem getD_passImage (s : State) {y : Nat} (hy : y < s.height) : (passImage s).getD y [] = passRow s y :=
  getD_map_range _ _ _ hy

/-- Settles O36: the original rows are those the pass reads, and each is read before the pass writes it. -/
theorem windowHoldsOriginalRows : Obligations.WindowHoldsOriginalRows := by
  intro s h he hi
  refine ⟨passImage s, length_passImage s, fun y hy => ?_, fun y hy n hn b hb => ?_, fun y h1 h2 => ?_⟩
  · rw [getD_passImage s hy]; exact length_passRow h he hi hy
  · rw [getD_passImage s hy]; exact getD_passRow h he hi hy hn hb
  · obtain ⟨k, rfl⟩ := Nat.exists_eq_add_of_le' h1
    obtain ⟨hrun, hrow⟩ := run_passState h he hi (k := k) (by omega)
    refine ⟨passState s k, hrun, hrow.engState, hrow.rowCursor, fun lr v => ?_⟩
    rw [Nat.add_sub_cancel, getD_passImage s (by omega)]
    exact windowBuf_passState s k lr v

end Sys2Proof.Machine
end

section
/-! PROOFS. A pass as a function on the rows of an image (R160, R165): which pixels each output pixel reads, and what follows for
whole images (R170, R171). -/

namespace Sys2Proof.Machine

variable {m m' : Mask} {rows : List Row} {len : Nat}

/-! ## The pixel form of an output row (R165) -/

/-- Variant `c` of a row shows at pixel `x` the row's pixel `x + 1 - c`, background outside the row. -/
theorem pix_variant {bs : Row} (hl : bs.length = len) (c : Fin 3) {x : Nat} (hx : x < 8 * len) :
    pix (variant bs c) x = true ↔ c.val ≤ x + 1 ∧ x + 1 - c.val < 8 * len ∧ pix bs (x + 1 - c.val) = true := by
  subst hl
  match c with
  | 0 =>
    show pix (shiftL bs) x = true ↔ _
    rw [pix_shiftL hx]
    simp
  | 1 => simp [hx]
  | 2 =>
    show pix (shiftR bs) x = true ↔ _
    rw [pix_shiftR hx]
    rcases x with - | x
    · simp
    · simp; omega

theorem erodeRow_eq_andActive (m : Mask) (win : Fin 3 → Row) :
    erodeRow m (win 0) (win 1) (win 2) = andActive m (win 1).length (fun r c => variant (win r) c) := by
  unfold erodeRow
  congr 1
  funext r c
  match r with
  | 0 => rfl
  | 1 => rfl
  | 2 => rfl

/-- A pixel of an output row is set exactly when every active position reads a set pixel. -/
theorem pix_erodeRow (m : Mask) {win : Fin 3 → Row} (hl : ∀ r, (win r).length = len) {x : Nat} (hx : x < 8 * len) :
    pix (erodeRow m (win 0) (win 1) (win 2)) x = true ↔
      ∀ r c : Fin 3, maskBit m r c = true →
        c.val ≤ x + 1 ∧ x + 1 - c.val < 8 * len ∧ pix (win r) (x + 1 - c.val) = true := by
  have hvar (r c : Fin 3) : (variant (win r) c).length = len := (length_variant _ c).trans (hl r)
  rw [erodeRow_eq_andActive, hl, pix_andActive m len _ hvar x hx]
  simp only [pix_variant (hl _) _ hx]

/-- Settles O34: an active position reads the variant of its column in the row of its index. -/
theorem elementPositionGeometry : Obligations.ElementPositionGeometry :=
  fun m _ _ hl _ hx => pix_erodeRow m hl hx

/-! ## The pixel form of a pass (R160) -/

theorem length_getD_rows (h : ∀ row ∈ rows, row.length = len) {y : Nat} (hy : y < rows.length) :
    (rows.getD y []).length = len := by
  rw [List.getD_eq_getElem _ _ hy]
  exact h _ (List.getElem_mem hy)

/-- A pass keeps the length of every row. -/
theorem length_getD_erodePass (m : Mask) (h : ∀ row ∈ rows, row.length = len) {y : Nat} (hy : y < rows.length) :
    ((erodePass m rows).getD y []).length = len := by
  by_cases hin : 1 ≤ y ∧ y + 1 < rows.length
  · have hcur := length_getD_rows h hy
    rw [erodePass_interior m rows y hin.1 hin.2, length_erodeRow, hcur]
    · rw [length_getD_rows h (by omega), hcur]
    · rw [length_getD_rows h hin.2, hcur]
  · rw [erodePass_edge m rows y hin]
    exact length_getD_rows h hy

/-- A pixel of an interior row is set exactly when every active position reads a set pixel of the rows around it. -/
theorem pix_erodePass (m : Mask) (h : ∀ row ∈ rows, row.length = len) {y : Nat} (h1 : 1 ≤ y) (h2 : y + 1 < rows.length)
    {x : Nat} (hx : x < 8 * len) :
    pix ((erodePass m rows).getD y []) x = true ↔
      ∀ r c : Fin 3, maskBit m r c = true →
        c.val ≤ x + 1 ∧ x + 1 - c.val < 8 * len ∧ pix (rows.getD (y - 1 + r.val) []) (x + 1 - c.val) = true := by
  rw [erodePass_interior m rows y h1 h2]
  obtain ⟨k, rfl⟩ := Nat.exists_eq_add_of_le' h1
  exact pix_erodeRow m (win := fun r => rows.getD (k + r.val) []) (fun r => length_getD_rows h (by omega)) hx

/-- An element with the centre only clears pixels (R170). -/
theorem pix_of_pix_erodePass (h : ∀ row ∈ rows, row.length = len) (hm : m.getLsbD 4 = true) {y x : Nat}
    (hx : x < 8 * len) (hp : pix ((erodePass m rows).getD y []) x = true) : pix (rows.getD y []) x = true := by
  by_cases hy : 1 ≤ y ∧ y + 1 < rows.length
  · obtain ⟨-, -, hcentre⟩ := (pix_erodePass m h hy.1 hy.2 hx).1 hp 1 1 hm
    obtain ⟨k, rfl⟩ := Nat.exists_eq_add_of_le' hy.1
    exact hcentre
  · rwa [erodePass_edge m rows y hy] at hp

/-- A larger element leaves fewer pixels (R170). -/
theorem pix_erodePass_anti (h : ∀ row ∈ rows, row.length = len)
    (hm : ∀ r c : Fin 3, maskBit m r c = true → maskBit m' r c = true) {y x : Nat} (hx : x < 8 * len)
    (hp : pix ((erodePass m' rows).getD y []) x = true) : pix ((erodePass m rows).getD y []) x = true := by
  by_cases hy : 1 ≤ y ∧ y + 1 < rows.length
  · rw [pix_erodePass m' h hy.1 hy.2 hx] at hp
    exact (pix_erodePass m h hy.1 hy.2 hx).2 fun r c hrc => hp r c (hm r c hrc)
  · rw [erodePass_edge m' rows y hy] at hp
    rwa [erodePass_edge m rows y hy]

/-! ## The all-background image (R170) -/

/-- Rows of equal length with equal pixels are equal. -/
theorem row_ext_pix {a b : Row} (ha : a.length = len) (hb : b.length = len) (h : ∀ x < 8 * len, pix a x = pix b x) :
    a = b := by
  refine List.ext_getElem (ha.trans hb.symm) fun n hna hnb => BitVec.eq_of_getLsbD_eq fun j hj => ?_
  have hbyte : (8 * n + (7 - j)) / 8 = n := by omega
  have hbit : 7 - (8 * n + (7 - j)) % 8 = j := by omega
  have hp := h (8 * n + (7 - j)) (by omega)
  rwa [pix, pix, hbyte, hbit, List.getD_eq_getElem _ _ hna, List.getD_eq_getElem _ _ hnb] at hp

theorem pix_replicate_zero (n x : Nat) : pix (List.replicate n 0) x = false := by
  unfold pix
  by_cases hx : x / 8 < n
  · rw [List.getD_replicate _ hx]; simp
  · rw [List.getD_eq_default _ _ (by simpa using hx)]; simp

/-- An element that is not empty has an active position. -/
theorem exists_maskBit (hm : m ≠ 0) : ∃ r c : Fin 3, maskBit m r c = true := by
  by_contra hnone
  push Not at hnone
  refine hm (BitVec.eq_of_getLsbD_eq fun k hk => ?_)
  have hr : k / 3 < 3 := by omega
  have hoff := hnone ⟨k / 3, hr⟩ ⟨k % 3, Nat.mod_lt _ (by decide)⟩
  simpa [maskBit, Nat.div_add_mod] using hoff

/-- A pass with any element but the empty one keeps the all-background image. -/
theorem erodePass_of_zero (hm : m ≠ 0) (h : ∀ row ∈ rows, row = List.replicate len 0) : erodePass m rows = rows := by
  have hlen (row) (hrow : row ∈ rows) : row.length = len := by rw [h row hrow, List.length_replicate]
  have hzero {y : Nat} (hy : y < rows.length) : rows.getD y [] = List.replicate len 0 := by
    rw [List.getD_eq_getElem _ _ hy]; exact h _ (List.getElem_mem hy)
  refine List.ext_getElem (length_erodePass m rows) fun y hy1 hy2 => ?_
  rw [← List.getD_eq_getElem _ [] hy1, ← List.getD_eq_getElem _ [] hy2]
  by_cases hy : 1 ≤ y ∧ y + 1 < rows.length
  · refine row_ext_pix (length_getD_erodePass m hlen hy2) (length_getD_rows hlen hy2) fun x hx => ?_
    rw [hzero hy2, pix_replicate_zero, Bool.eq_false_iff]
    intro hp
    obtain ⟨r, c, hrc⟩ := exists_maskBit hm
    obtain ⟨-, -, hread⟩ := (pix_erodePass m hlen hy.1 hy.2 hx).1 hp r c hrc
    rw [hzero (by omega), pix_replicate_zero] at hread
    cases hread
  · exact erodePass_edge m rows y hy

theorem isoMask_ne_zero (n : Nat) : isoMask n ≠ 0 := by
  unfold isoMask; split <;> decide

/-- The schedule keeps the all-background image. -/
theorem isoImage_of_zero (h : ∀ row ∈ rows, row = List.replicate len 0) (n : Nat) : isoImage n rows = rows := by
  induction n with
  | zero => rfl
  | succ n ih => rw [isoImage, ih, erodePass_of_zero (isoMask_ne_zero n) h]

/-- Settles O37: the centre makes a pass shrink, the 4-neighbour element is part of the 8-neighbour one, and an active position
that reads background clears the pixel. -/
theorem passShrinksAndOrdersElements : Obligations.PassShrinksAndOrdersElements := by
  refine fun rows len h => ⟨fun m hm => ⟨?_, ?_, ?_, ?_⟩, ?_, fun m hm h0 => ?_⟩
  · exact fun y _ x hx => pix_of_pix_erodePass h hm hx
  · exact erodePass_edge m rows 0 (by omega)
  · exact erodePass_edge m rows _ (by omega)
  · exact fun y _ x hx hp => Bool.eq_false_iff.2 fun hp' => Bool.eq_false_iff.1 hp (pix_of_pix_erodePass h hm hx hp')
  · exact fun y _ x hx => pix_erodePass_anti h (by decide) hx
  · exact ⟨erodePass_of_zero hm h0, isoImage_of_zero h0⟩

/-! ## The all-foreground image (R171) -/

/-- Settles O38: columns 0 and `W - 1` read background beside the image at the centre row, every other pixel reads foreground. -/
theorem edgeErosionOfFullImage : Obligations.EdgeErosionOfFullImage := by
  intro rows len width m hm h hw3 hw _ hfull
  have hpix {y : Nat} (hy : y < rows.length) {x : Nat} (hx : x < width) : pix (rows.getD y []) x = true := by
    rw [List.getD_eq_getElem _ _ hy]; exact hfull _ (List.getElem_mem hy) x hx
  have hcentreRow (c : Fin 3) : maskBit m 1 c = true := by
    rcases hm with rfl | rfl <;> revert c <;> decide
  refine ⟨fun hpad => ⟨fun y h1 h2 x hx => ?_, fun y hy x hx => ?_⟩, fun hwidth y h1 h2 hcur hadj => ?_⟩
  · rw [pix_erodePass m h h1 h2 hx]
    refine ⟨fun hp => ?_, fun ⟨hx1, hx2⟩ r c _ => ⟨by omega, by omega, hpix (by omega) (by omega)⟩⟩
    obtain ⟨-, hin, hright⟩ := hp 1 0 (hcentreRow 0)
    obtain ⟨hleft, -, -⟩ := hp 1 2 (hcentreRow 2)
    have hy : y - 1 + 1 < rows.length := by omega
    have hlt : x + 1 < width := by
      by_contra hge
      have hoff := hpad _ (List.getElem_mem hy) (x + 1) (by omega) hin
      rw [← List.getD_eq_getElem _ [] hy] at hoff
      exact Bool.eq_false_iff.1 hoff hright
    exact ⟨by simpa using hleft, hlt⟩
  · rw [erodePass_edge m rows y (by omega)]
    exact hpix (by omega) hx
  · rw [pix_erodePass m h h1 h2 (by omega)]
    have hcolumn (r : Fin 3) (hr : maskBit m r 0 = true) : pix (rows.getD (y - 1 + r.val) []) width = true := by
      obtain ⟨k, rfl⟩ := Nat.exists_eq_add_of_le' h1
      match r with
      | 1 => exact hcur
      | 0 =>
        rcases hm with rfl | rfl
        · exact absurd hr (by decide)
        · exact (hadj rfl).1
      | 2 =>
        rcases hm with rfl | rfl
        · exact absurd hr (by decide)
        · exact (hadj rfl).2
    refine fun r c hrc => ⟨by omega, by omega, ?_⟩
    by_cases hc : c = 0
    · subst hc
      rw [Nat.sub_add_cancel (by omega)]
      exact hcolumn r hrc
    · exact hpix (by omega) (by omega)

end Sys2Proof.Machine
end

section
/-! PROOFS. The erosion commands (R160 to R169): `ERODEM` with a built-in mask, the micro-steps `E_INIT` and `E_ROW`, and the whole
pass, whose result `ERODE_ISO` uses too. -/

namespace Sys2Proof.Machine

variable {s t : State} {i : Instr}

/-! ## `ERODEM` (R168) -/

/-- `ERODEM` with a mask that is not empty is the single pass with that mask. -/
theorem exec_erodem_of_seMask {m : Mask} (h : s.ops.seMask = m) (hm : m ≠ 0) :
    exec .erodem s = microStep (onValid (validateImage s) (beginPass m)) noShift endCommand s := by
  have hv : validateErodem s = validateImage s := if_neg (h ▸ hm)
  rw [← h, ← hv]
  rfl

/-- Settles O39: the mask check passes and the pass takes the same element. -/
theorem erodemWithBuiltInMasks : Obligations.ErodemWithBuiltInMasks :=
  fun _ => ⟨fun h => exec_erodem_of_seMask h (by decide), fun h => exec_erodem_of_seMask h (by decide)⟩

/-! ## `E_INIT` (R162) -/

theorem exec_eInit (he : s.engState = .eInit) : exec i s = eInit s := by
  rw [exec_eq_microStep]
  simp only [microStep, he]

/-- Settles O32: the rows are those that `NBCInit` reads. -/
theorem initLoadsFirstThreeRows : Obligations.InitLoadsFirstThreeRows := by
  intro i s _ he hr hs
  refine ⟨initDone s, initRow s, (exec_eInit he).trans (eInit_answers s hr hs), length_initRow s,
    fun g n hn => getD_initRow s g n hn, nbcInit_take s, nbcInit_drop s, rfl, ?_⟩
  rw [initDone_eq]

/-! ## `E_ROW` (R163) -/

theorem exec_eRow (he : s.engState = .eRow) : exec i s = eRow (passEndOf (.legal i)) s := by
  rw [exec_eq_microStep]
  simp only [microStep, he]

/-- A bit of the row that `E_ROW` writes is set exactly when it is set in every active buffer of the window (R141, R163). -/
theorem getLsbD_windowRow {len : Nat} (hb : ∀ k : Fin 9, (s.cache.buf k).length = len) (hs : s.stride ≤ len) {n j : Nat}
    (hn : n < s.stride) (hj : j < 8) :
    ((windowRow s).getD n 0).getLsbD j = true ↔
      ∀ r c : Fin 3, maskBit s.passMask r c = true → ((s.cache.buf (s.cache.slot r c)).getD n 0).getLsbD j = true := by
  have hlen (r c : Fin 3) : ((s.cache.buf (s.cache.slot r c)).take s.stride).length = s.stride := by simp [hb, hs]
  have htake (bs : Row) : (bs.take s.stride).getD n 0 = bs.getD n 0 := by simp [List.getD, hn]
  rw [windowRow, getLsbD_andActive _ _ _ hlen n hn j hj]
  simp only [htake]

/-- Settles O33: the row is written first, then the window advances, or the pass ends. -/
theorem rowStepWritesAndOfActiveBuffers : Obligations.RowStepWritesAndOfActiveBuffers := by
  intro i s _ he hy hr hs hb
  have hbytes : ∀ n < s.stride, ∃ out : Byte,
      (rowWritten s).imem.get? (s.rowAddr s.rowCursor.toNat + n) = some out ∧
      ∀ j < 8, (out.getLsbD j = true ↔ ∀ r c : Fin 3, maskBit s.passMask r c = true →
        ((s.cache.buf (s.cache.slot r c)).getD n 0).getLsbD j = true) :=
    fun n hn => ⟨_, get?_rowWritten_in s _ hb hs n hn, fun j hj => getLsbD_windowRow hb hs hn hj⟩
  have hframe := get?_rowWritten_out s _ hb hs
  rcases Nat.lt_or_eq_of_le hy with hlt | heq
  · refine ⟨rowAdvanced s, (exec_eRow he).trans (eRow_advances _ s hlt ((rowAddr_mono s hlt).trans hr) hs), hbytes, hframe,
      fun _ => ⟨?_, nbcAdvance_drop (rowWritten s) _, nbcAdvance_buf_old (rowWritten s) _, ?_, rowAdvanced_eq s⟩,
      fun heq => by omega, fun heq => by omega⟩
    · exact ⟨memRead (rowWritten s) (s.rowAddr (s.rowCursor.toNat + 2)) s.stride, length_memRead _ _ _,
        fun n hn => getD_memRead (rowWritten s) _ _ n hn, nbcAdvance_take_new (rowWritten s) _⟩
    · exact Fin.val_add s.cache.top 1
  · refine ⟨passEndOf (.legal i) (rowWritten s),
      (exec_eRow he).trans (eRow_ends _ s heq ((rowAddr_mono s (by omega)).trans hr) hs), ?_, ?_,
      fun hlt => by omega, fun _ hi => ?_, fun _ hi => ?_⟩
    · rw [passEndOf_imem]; exact hbytes
    · rw [passEndOf_imem]; exact hframe
    · rcases passEndOf_cases (.legal i) (rowWritten s) with ⟨-, e⟩ | ⟨hc, -⟩
      · rw [e]; rfl
      · exact absurd (Decoded.legal.inj hc) hi
    · subst hi; rfl

/-! ## A whole pass (R160, R164) -/

/-- In a pass that the engine runs alone only IMEM, the cache, the draws, `ROW_CURSOR` and `ENG_STATE` change. -/
theorem passState_eq (s : State) (k : Nat) : passState s k = { s with
    imem := (passState s k).imem, cache := (passState s k).cache, draws := (passState s k).draws
    rowCursor := (passState s k).rowCursor, engState := .eRow } := by
  induction k with
  | zero => rw [passState, initDone_eq]
  | succ k ih =>
    rw [passState, rowAdvanced_eq, ih]

/-- The `E_ROW` of row `k + 1` writes that row of the pass (R163, R145). -/
theorem windowRow_passState (h : Inv s) (he : s.engState = .eInit) (hi : s.inputs = []) {k : Nat} (hk : k + 3 ≤ s.height) :
    windowRow (passState s k) = (erodePass s.passMask (passImage s)).getD (k + 1) [] := by
  obtain ⟨-, hrow⟩ := run_passState h he hi hk
  have hmask : (passState s k).passMask = s.passMask := by rw [passState_eq]
  have hcur : (passRow s (k + 1)).length = (passState s k).stride := by
    rw [hrow.stride]; exact length_passRow h he hi (by omega)
  rw [erodePass_interior _ _ _ (by omega) (by rw [length_passImage]; omega), Nat.add_sub_cancel,
    getD_passImage s (by omega), getD_passImage s (by omega), getD_passImage s (by omega), ← hmask]
  exact windowRow_eq_erodeRow hcur (windowBuf_passState s k 0) (windowBuf_passState s k 1) (windowBuf_passState s k 2)

/-- The `E_ROW` of row `k + 1` writes the bytes of that row. -/
theorem BeginsRow.get?_rowWritten_in {k n : Nat} (h : BeginsRow s k t) (hn : n < s.stride) :
    (rowWritten t).imem.get? (s.rowAddr (k + 1) + n) = some ((windowRow t).getD n 0) := by
  obtain ⟨-, hs, -⟩ := h.inv.passRange (.inr h.engState)
  rw [← h.rowCursor, ← h.rowAddr]
  exact Machine.get?_rowWritten_in t _ h.inv.bufferLength hs n (by rwa [h.stride])

/-- The `E_ROW` of row `k + 1` leaves every other row. -/
theorem BeginsRow.get?_rowWritten_out {k a : Nat} (h : BeginsRow s k t) (ha : a < s.rowAddr (k + 1) ∨ s.rowAddr (k + 2) ≤ a) :
    (rowWritten t).imem.get? a = t.imem.get? a := by
  obtain ⟨-, hs, -⟩ := h.inv.passRange (.inr h.engState)
  refine Machine.get?_rowWritten_out t _ h.inv.bufferLength hs a ?_
  rwa [h.rowCursor, h.rowAddr, h.stride, ← rowAddr_succ]

/-- When the `E_ROW` of row `k + 1` has written its row, every byte outside rows 1 to `k + 1` is as the pass found it. -/
theorem get?_rowWritten_passState_out (h : Inv s) (he : s.engState = .eInit) (hi : s.inputs = []) {k a : Nat}
    (hk : k + 3 ≤ s.height) (ha : a < s.rowAddr 1 ∨ s.rowAddr (k + 2) ≤ a) :
    (rowWritten (passState s k)).imem.get? a = s.imem.get? a := by
  induction k with
  | zero => rw [(run_passState h he hi hk).2.get?_rowWritten_out ha, passState, initDone_imem]
  | succ k ih =>
    have hlow : s.rowAddr 1 ≤ s.rowAddr (k + 1 + 1) := rowAddr_mono s (by omega)
    have hhigh : s.rowAddr (k + 2) ≤ s.rowAddr (k + 1 + 2) := rowAddr_mono s (by omega)
    rw [(run_passState h he hi hk).2.get?_rowWritten_out (by omega), passState, rowAdvanced_imem]
    exact ih (by omega) (by omega)

/-- When the `E_ROW` of row `k + 1` has written its row, rows 1 to `k + 1` are those of the pass: a later `E_ROW` leaves them. -/
theorem get?_rowWritten_passState_row (h : Inv s) (he : s.engState = .eInit) (hi : s.inputs = []) {k y n : Nat}
    (hk : k + 3 ≤ s.height) (h1 : 1 ≤ y) (hy : y ≤ k + 1) (hn : n < s.stride) :
    (rowWritten (passState s k)).imem.get? (s.rowAddr y + n) =
      some (((erodePass s.passMask (passImage s)).getD y []).getD n 0) := by
  induction k with
  | zero =>
    obtain rfl : y = 0 + 1 := by omega
    rw [(run_passState h he hi hk).2.get?_rowWritten_in hn, windowRow_passState h he hi hk]
  | succ k ih =>
    obtain ⟨-, hrow⟩ := run_passState h he hi hk
    rcases Nat.lt_or_eq_of_le hy with hlt | rfl
    · have habove : s.rowAddr y + n < s.rowAddr (k + 1 + 1) := by
        have hnext : s.rowAddr (y + 1) ≤ s.rowAddr (k + 1 + 1) := rowAddr_mono s hlt
        rw [rowAddr_succ] at hnext
        omega
      rw [hrow.get?_rowWritten_out (.inl habove), passState, rowAdvanced_imem]
      exact ih (by omega) (by omega)
    · rw [hrow.get?_rowWritten_in hn, windowRow_passState h he hi hk]

/-- The state in which a pass that the engine runs alone from `E_INIT` has written its last row. -/
def passDone (s : State) : State := rowWritten (passState s (s.height - 3))

/-- A pass changes only IMEM, the cache, the draws, `ROW_CURSOR` and `ENG_STATE`. -/
theorem passDone_eq (s : State) : passDone s = { s with
    imem := (passDone s).imem, cache := (passDone s).cache, draws := (passDone s).draws
    rowCursor := (passDone s).rowCursor, engState := .eRow } := by
  rw [passDone, rowWritten_eq, passState_eq]

section
variable (h : Inv s) (he : s.engState = .eInit) (hi : s.inputs = [])
include h he hi

/-- The `E_ROW` of the last interior row. -/
theorem beginsRow_last : ∃ k, s.height = k + 3 ∧ passDone s = rowWritten (passState s k) ∧
    run (k + 1) s = .next (passState s k) ∧ BeginsRow s k (passState s k) := by
  obtain ⟨hh, -, -⟩ := h.passRange (.inl he)
  obtain ⟨k, hk⟩ := Nat.exists_eq_add_of_le' hh
  exact ⟨k, hk, by rw [passDone, hk, Nat.add_sub_cancel], run_passState h he hi hk.ge⟩

/-- A pass takes one micro-step for `E_INIT` and one for each interior row, and ends as its command says (R101). -/
theorem run_pass : run (s.height - 1) s = .next (passEndOf s.command (passDone s)) := by
  obtain ⟨k, hk, hdone, hrun, hrow⟩ := beginsRow_last h he hi
  obtain ⟨-, hs, hr⟩ := hrow.inv.passRange (.inr hrow.engState)
  have hend : (passState s k).rowCursor.toNat + 2 = (passState s k).height := by rw [hrow.rowCursor, hrow.height, hk]
  have hstep : step (passState s k) = .next (passEndOf (passState s k).command (rowWritten (passState s k))) :=
    step_eRow_ends hrow.engState hrow.inputs hend ((rowAddr_mono _ (by omega)).trans hr) hs
  have hcmd : (passState s k).command = s.command := by rw [passState_eq]; rfl
  have hsteps : s.height - 1 = k + 1 + 1 := by omega
  rw [hsteps, run_add hrun, run_succ_of_step hstep, hcmd, hdone]
  rfl

/-- After a pass `ROW_CURSOR` stands at the last interior row (R38). -/
theorem rowCursor_passDone : (passDone s).rowCursor.toNat = s.height - 2 := by
  obtain ⟨k, hk, hdone, -, hrow⟩ := beginsRow_last h he hi
  have hcursor := hrow.rowCursor
  rw [hdone, rowWritten_eq]
  show (passState s k).rowCursor.toNat = s.height - 2
  omega

/-- A pass leaves the interior rows of `ErodePass` (R160, R169). -/
theorem get?_passDone_row {y n : Nat} (h1 : 1 ≤ y) (h2 : y + 1 < s.height) (hn : n < s.stride) :
    (passDone s).imem.get? (s.rowAddr y + n) = some (((erodePass s.passMask (passImage s)).getD y []).getD n 0) := by
  obtain ⟨k, hk, hdone, -, -⟩ := beginsRow_last h he hi
  rw [hdone]
  exact get?_rowWritten_passState_row h he hi hk.ge h1 (by omega) hn

/-- A pass leaves every byte outside the interior rows (R161). -/
theorem get?_passDone_out {a : Nat} (ha : a < s.rowAddr 1 ∨ s.rowAddr (s.height - 1) ≤ a) :
    (passDone s).imem.get? a = s.imem.get? a := by
  obtain ⟨k, hk, hdone, -, -⟩ := beginsRow_last h he hi
  rw [hdone]
  exact get?_rowWritten_passState_out h he hi hk.ge (by rwa [hk] at ha)

end

/-! ## A whole command (R169) -/

/-- The state in which the pass of a valid single-pass command begins. -/
def passBegun (s : State) : State := { s with passMask := expectedMask s, engState := .eInit }

/-- `VALIDATE` of a valid single-pass command begins its pass (R166 to R168). -/
theorem step_passBegun (hc : i = .erode4 ∨ i = .erode8 ∨ i = .erodem) (he : s.engState = .validate)
    (hcmd : s.command = .legal i) (hv : validate s.command s = .ok) (hh : 3 ≤ s.height) (hi : s.inputs = []) :
    step s = .next (passBegun s) := by
  refine ((stepRunsDecodedCommand s i hcmd).1 hi).trans ?_
  refine (passBeginsWithTheCommandsElement i (expectedMask s) s ?_ he (hcmd ▸ hv)).1 hh
  rcases hc with rfl | rfl | rfl
  · exact .inl ⟨rfl, by rw [expectedMask, hcmd]; rfl⟩
  · exact .inr (.inl ⟨rfl, by rw [expectedMask, hcmd]; rfl⟩)
  · exact .inr (.inr ⟨rfl, by rw [expectedMask, hcmd]⟩)

/-- Settles O35: `VALIDATE` begins the pass with the command's element, and the pass ends with completion. -/
theorem erodeCommandLeavesErodePass : Obligations.ErodeCommandLeavesErodePass := by
  intro i s hc h he hcmd hv hh hi
  have hstep := step_passBegun hc he hcmd hv hh hi
  have hu : Inv (passBegun s) := h.step hstep
  have hinit : (passBegun s).engState = .eInit := rfl
  have hsingle : s.command ≠ .legal .erodeIso := by rcases hc with rfl | rfl | rfl <;> simp [hcmd]
  have hend : passEndOf s.command (passDone (passBegun s)) = complete .ok (passDone (passBegun s)) :=
    (passEndOf_cases s.command _).elim And.right fun hiso => absurd hiso.1 hsingle
  have hrun : run s.height s = .next (complete .ok (passDone (passBegun s))) := by
    have hsteps : s.height = (passBegun s).height - 1 + 1 := (Nat.sub_add_cancel (by omega)).symm
    rw [hsteps, run_succ_of_step hstep, run_pass hu hinit hi]
    exact congrArg _ hend
  refine ⟨_, passImage (passBegun s), hrun, length_passImage _, fun y hy => ?_, fun y hy n hn b hb => ?_,
    fun y h1 h2 n hn => get?_passDone_row hu hinit hi h1 h2 hn, fun a ha => get?_passDone_out hu hinit hi ha,
    rfl, ?_, rowCursor_passDone hu hinit hi, ?_, ?_⟩
  · rw [getD_passImage (passBegun s) hy]; exact length_passRow hu hinit hi hy
  · rw [getD_passImage (passBegun s) hy]; exact getD_passRow hu hinit hi hy hn hb
  · rw [passDone_eq]; rfl
  · rw [passDone_eq]; rfl
  · rw [passDone_eq]; rfl

end Sys2Proof.Machine
end

section
/-! PROOFS. The isotropic stepper (R181 to R186): the choice, the `I_SELECT` micro-step, and the closed form of the schedule. -/

namespace Sys2Proof.Machine

variable {s t : State}

/-! ## The choice (R182, R184) -/

/-- Settles O41: squared, the distances differ by `4 * (d + 1 - i)`, which is negative exactly when `d + 2 <= i`. -/
theorem choiceIsTheGreedyComparison : Obligations.ChoiceIsTheGreedyComparison := by
  intro p
  have hsq (d i : Int) : (d + 2 - i) ^ 2 = (d - i) ^ 2 + 4 * (d + 1 - i) := by ring
  rw [sel8_iff, ← sq_lt_sq, hsq]
  omega

/-! ## The micro-steps of `ERODE_ISO` (R101, R183) -/

theorem exec_iSelect {i : Instr} (he : s.engState = .iSelect) : exec i s = .next (iSelect s) := by
  rw [exec_eq_microStep]
  simp only [microStep, he]

/-- `ISO_SEQ` takes a choice in at bit 0 (R37). -/
theorem shiftLeft_or_choice (q : Word) (b : Bool) : (q <<< 1) ||| (BitVec.ofBool b).setWidth 32 = q.shiftConcat b := by
  refine BitVec.eq_of_getLsbD_eq fun k hk => ?_
  cases k with
  | zero => simp
  | succ k => simp [hk]

/-- The number in `ISO_SEQ` after a choice: doubled, plus 1 for an 8-connected step. -/
theorem toNat_chosenSeq (p : Stepper) : ((p.seq <<< 1) ||| (BitVec.ofBool (sel8 p)).setWidth 32).toNat =
    (p.seq.toNat * 2 + if p.diag.toNat + 2 ≤ p.index.toNat then 1 else 0) % 2 ^ 32 := by
  have hbit : (sel8 p).toNat = if p.diag.toNat + 2 ≤ p.index.toNat then 1 else 0 :=
    Bool.cond_decide _ 1 0
  rw [shiftLeft_or_choice, BitVec.toNat_shiftConcat, Nat.shiftLeft_eq, Nat.pow_one, hbit]

/-- An 8-connected step adds the credit without wrapping: `ISO_DIAG` stays at most `ISO_INDEX` (R184). -/
theorem chosen_of_le {p : Stepper} (h : p.diag.toNat + 2 ≤ p.index.toNat) :
    (chosenDiag (sel8 p) p.diag).toNat = p.diag.toNat + 2 ∧ chosenMask (sel8 p) = 0x1FF#9 := by
  have hi := p.index.isLt
  rw [(sel8_iff p).2 h]
  refine ⟨?_, rfl⟩
  exact (BitVec.toNat_add _ _).trans (Nat.mod_eq_of_lt (show p.diag.toNat + 2 < 2 ^ 32 by omega))

theorem chosen_of_lt {p : Stepper} (h : p.index.toNat < p.diag.toNat + 2) :
    chosenDiag (sel8 p) p.diag = p.diag ∧ chosenMask (sel8 p) = 0x0BA#9 := by
  rw [Bool.eq_false_iff.2 fun hb => Nat.not_le.2 h ((sel8_iff p).1 hb)]
  exact ⟨rfl, rfl⟩

/-- `E_INIT` does not read the stepper's registers, and leaves them (R183). -/
theorem exec_eInit_withIso {i : Instr} (p : Stepper) (he : s.engState = .eInit) (h : exec i s = .next t) :
    exec i { s with iso := p } = .next { t with iso := p } := by
  obtain ⟨hr, hl, rfl⟩ := eInit_next ((exec_eInit he).symm.trans h)
  exact (exec_eInit (s := { s with iso := p }) he).trans (eInit_answers { s with iso := p } hr hl)

/-- `E_ROW` of `ERODE_ISO` does not read them either; the last one of a pass counts `ISO_INDEX`. -/
theorem exec_eRow_withIso (p : Stepper) (he : s.engState = .eRow) (h : exec .erodeIso s = .next t) :
    ∃ q, exec .erodeIso { s with iso := p } = .next { t with iso := q } := by
  have hrow : exec .erodeIso { s with iso := p } = eRow endIsoPass { s with iso := p } := exec_eRow he
  rw [hrow]
  obtain ⟨hl, ⟨hy, hr, rfl⟩ | ⟨hy, hr, rfl⟩⟩ := eRow_next ((exec_eRow he).symm.trans h)
  · exact ⟨p, eRow_advances _ { s with iso := p } hy hr hl⟩
  · exact ⟨{ p with index := p.index + 1 }, eRow_ends _ { s with iso := p } hy hr hl⟩

/-- Settles O40: the `VALIDATE` row, the three cases of `I_SELECT`, and the two micro-steps of a pass. -/
theorem selectChoosesTheElement : Obligations.SelectChoosesTheElement := by
  refine ⟨fun s he hv => exec_validate_ok he hv, fun s he => ?_, fun s t p he h => ?_⟩
  · rw [exec_iSelect he]
    rcases iSelect_cases s with ⟨heq, e⟩ | ⟨hne, hh, e⟩ | ⟨hne, hh, e⟩ <;> rw [e]
    · exact ⟨fun _ => rfl, fun hne => absurd heq hne⟩
    · exact ⟨fun heq => absurd heq hne, fun _ => ⟨_, rfl, toNat_chosenSeq s.iso, chosen_of_le, chosen_of_lt,
        fun _ => ⟨rfl, rfl⟩, fun hh' => by omega, rfl⟩⟩
    · exact ⟨fun heq => absurd heq hne, fun _ => ⟨_, rfl, toNat_chosenSeq s.iso, chosen_of_le, chosen_of_lt,
        fun hh' => by omega, fun _ => ⟨rfl, rfl⟩, rfl⟩⟩
  · rcases he with he | he
    · exact ⟨p, exec_eInit_withIso p he h⟩
    · exact exec_eRow_withIso p he h

/-! ## The closed form (R185) -/

/-- Bit `k` of `ISO_SEQ` after `n` steps is the choice of step `n - 1 - k` (R37). -/
theorem getLsbD_isoSeqAt (n : Nat) {k : Nat} (hk : k < 32) :
    (isoSeqAt n).getLsbD k = (decide (k < n) && choice8 (n - 1 - k)) := by
  induction n generalizing k with
  | zero => simp [isoSeqAt]
  | succ n ih =>
    rw [isoSeqAt, shiftLeft_or_choice, BitVec.getLsbD_shiftConcat]
    cases k with
    | zero => simp
    | succ k =>
      have hsub : n - (k + 1) = n - 1 - k := by omega
      simp [hk, ih (Nat.lt_of_succ_lt hk), hsub]

/-- The number of 8-connected steps among the first `n`. -/
theorem length_filter_choice8 (n : Nat) : ((List.range n).filter choice8).length = (n - 1) / 2 := by
  induction n with
  | zero => rfl
  | succ n ih =>
    rw [List.range_succ, List.filter_append, List.length_append, ih, List.filter_singleton]
    cases hb : choice8 n with
    | false =>
      have hn : ¬ (2 ≤ n ∧ n % 2 = 0) := fun h => Bool.eq_false_iff.1 hb ((choice8_iff n).2 h)
      show (n - 1) / 2 + 0 = n / 2
      omega
    | true =>
      obtain ⟨h2, heven⟩ := (choice8_iff n).1 hb
      show (n - 1) / 2 + 1 = n / 2
      omega

/-- Settles O42: the invariant holds the registers to R185, and an even `ISO_DIAG` is below `2^32 - 1`. -/
theorem scheduleClosedForm : Obligations.ScheduleClosedForm := by
  refine ⟨fun s h he => ?_, fun n _ => length_filter_choice8 n, fun s h => ?_⟩
  · obtain ⟨-, -, -, hd, hq⟩ := h.engine.select he
    exact ⟨by rw [sel8_eq_choice8 hd, choice8_iff], hd, fun k hk => by rw [hq, getLsbD_isoSeqAt _ hk]⟩
  · have heven := h.diagEven
    have hlt := s.iso.diag.isLt
    omega

end Sys2Proof.Machine
end

section
/-! PROOFS. A whole `ERODE_ISO` (R180): a pass over a written image as a function on its rows, the states at `I_SELECT` after each
number of steps, and what follows for all steps, for none and for seven (R185 to R187). -/

namespace Sys2Proof.Machine

variable {s t : State}

/-! ## A pass over a written image (R160) -/

theorem length_of_mem_image {row : Row} (h : row ∈ s.image) : row.length = s.stride := by
  obtain ⟨y, -, rfl⟩ := List.mem_map.1 h
  exact Memory.length_rowOf _ _ _

/-- A byte of a written image. -/
theorem get?_of_imageWritten (hw : s.imageWritten) {y n : Nat} (hy : y < s.height) (hn : n < s.stride) :
    s.imem.get? (s.rowAddr y + n) = some ((s.image.getD y []).getD n 0) := by
  obtain ⟨b, hb⟩ := Option.isSome_iff_exists.1 ((imageWritten_iff_rows s).1 hw y hy n hn)
  rw [getD_image s y hy, Memory.getD_rowOf _ _ _ _ hn, hb]
  rfl

/-- An image whose bytes are those of `rows` is written, and is `rows`. -/
theorem image_of_get? {rows : List Row} (hl : rows.length = s.height) (hrow : ∀ y < s.height, (rows.getD y []).length = s.stride)
    (h : ∀ y < s.height, ∀ n < s.stride, s.imem.get? (s.rowAddr y + n) = some ((rows.getD y []).getD n 0)) :
    s.imageWritten ∧ s.image = rows := by
  refine ⟨(imageWritten_iff_rows s).2 fun y hy n hn => by rw [h y hy n hn]; rfl, ?_⟩
  refine List.ext_getElem (by rw [length_image, hl]) fun y h1 h2 => ?_
  have hy : y < s.height := hl ▸ h2
  rw [← List.getD_eq_getElem _ [] h1, ← List.getD_eq_getElem _ [] h2, getD_image s y hy]
  exact Memory.rowOf_of_get? (hrow y hy) (h y hy)

/-- With fewer than three rows a pass changes nothing (R164). -/
theorem erodePass_of_lt_three (m : Mask) {rows : List Row} (h : rows.length < 3) : erodePass m rows = rows := by
  refine List.ext_getElem (length_erodePass m rows) fun y h1 h2 => ?_
  rw [← List.getD_eq_getElem _ [] h1, ← List.getD_eq_getElem _ [] h2]
  exact erodePass_edge m rows y (by omega)

section
variable (h : Inv s) (he : s.engState = .eInit) (hi : s.inputs = [])
include h he hi

/-- A pass over a written image reads that image. -/
theorem passImage_eq_image (hw : s.imageWritten) : passImage s = s.image := by
  refine List.map_congr_left fun y hy => ?_
  have hy : y < s.height := List.mem_range.1 hy
  refine (Memory.rowOf_of_get? (length_passRow h he hi hy) fun n hn => ?_).symm
  have hb := get?_of_imageWritten hw hy hn
  rw [hb, getD_passRow h he hi hy hn hb]

/-- A pass over a written image leaves `ErodePass` of it (R160, R161). -/
theorem image_passDone (hw : s.imageWritten) :
    (passDone s).imageWritten ∧ (passDone s).image = erodePass s.passMask s.image := by
  have hops : (passDone s).ops = s.ops := by rw [passDone_eq]
  have hheight : (passDone s).height = s.height := by rw [State.height, hops, State.height]
  have hstride : (passDone s).stride = s.stride := by rw [State.stride, hops, State.stride]
  have haddr (y : Nat) : (passDone s).rowAddr y = s.rowAddr y := by rw [State.rowAddr, hops, hstride, State.rowAddr]
  refine image_of_get? (by simp [hheight]) (fun y hy => ?_) (fun y hy n hn => ?_)
  · rw [hstride]
    rw [hheight] at hy
    exact length_getD_erodePass _ (fun _ => length_of_mem_image) (by rwa [length_image])
  · rw [hheight] at hy
    rw [hstride] at hn
    rw [haddr]
    by_cases hint : 1 ≤ y ∧ y + 1 < s.height
    · rw [get?_passDone_row h he hi hint.1 hint.2 hn, passImage_eq_image h he hi hw]
    · have hout : s.rowAddr y + n < s.rowAddr 1 ∨ s.rowAddr (s.height - 1) ≤ s.rowAddr y + n := by
        rcases Nat.eq_zero_or_pos y with rfl | hpos
        · have hrow1 : s.rowAddr 1 = s.rowAddr 0 + s.stride := rowAddr_succ s 0
          omega
        · exact .inr ((rowAddr_mono s (by omega)).trans (Nat.le_add_right _ _))
      rw [get?_passDone_out h he hi hout, erodePass_edge _ _ _ (by rwa [length_image])]
      exact get?_of_imageWritten hw hy hn

/-- The end of a pass of `ERODE_ISO` meets the invariant again. -/
theorem inv_isoPassEnd (hc : s.command = .legal .erodeIso) : Inv (endIsoPass (passDone s)) := by
  obtain ⟨k, -, hdone, -, hrow⟩ := beginsRow_last h he hi
  have hend : passEndOf (passDone s).command (passDone s) = endIsoPass (passDone s) := by
    have hcmd : (passDone s).command = s.command := by rw [passDone_eq]; rfl
    rw [hcmd, hc]; rfl
  rw [← hend, hdone]
  exact (hrow.inv.rowWritten hrow.engState).passEnd hrow.engState

end

/-! ## The states between two steps (R180, R185) -/

/-- What holds of the state `t` that stands in `e`, `I_SELECT` or `E_INIT`, when the passes of `n` steps are done of the
`ERODE_ISO` accepted at `s`: the invariant, with R185 in it, that a written image is then that of `n` passes of the schedule, and
that every byte outside the interior rows is as it was. -/
structure IsoAfter (s : State) (n : Nat) (e : EngState) (t : State) : Prop where
  inv : Inv t
  engState : t.engState = e
  command : t.command = .legal .erodeIso
  inputs : t.inputs = []
  ops : t.ops = s.ops
  status : t.status = s.status
  index : t.iso.index.toNat = n
  image : s.imageWritten → t.imageWritten ∧ t.image = isoImage n s.image
  outside : ∀ a, a < s.rowAddr 1 ∨ s.rowAddr (s.height - 1) ≤ a → t.imem.get? a = s.imem.get? a

section
variable {n : Nat} {e : EngState}

theorem IsoAfter.height (h : IsoAfter s n e t) : t.height = s.height := by simp [State.height, h.ops]

theorem IsoAfter.rowAddr (h : IsoAfter s n e t) (y : Nat) : t.rowAddr y = s.rowAddr y := by
  simp [State.rowAddr, State.stride, h.ops]

theorem IsoAfter.index_ne (h : IsoAfter s n e t) (hn : n < s.ops.isoSteps.toNat) : t.iso.index ≠ t.ops.isoSteps := by
  intro heq
  have hindex := h.index
  rw [heq, h.ops] at hindex
  omega

/-- `I_SELECT` without an interior row is a whole step, whose pass changes nothing (R164). -/
theorem IsoAfter.select_of_lt_three (h : IsoAfter s n .iSelect t) (hn : n < s.ops.isoSteps.toNat) (hh : s.height < 3) :
    step t = .next (iSelect t) ∧ IsoAfter s (n + 1) .iSelect (iSelect t) := by
  have hstep := step_iSelect h.engState h.inputs
  have hinv : Inv (iSelect t) := h.inv.step hstep
  refine ⟨hstep, ?_⟩
  rcases iSelect_cases t with ⟨heq, -⟩ | ⟨-, -, e⟩ | ⟨-, hh', -⟩
  · exact absurd heq (h.index_ne hn)
  · rw [e] at hinv ⊢
    refine ⟨hinv, rfl, h.command, h.inputs, h.ops, h.status, ?_, fun hw => ?_, h.outside⟩
    · exact (isoIndex_succ (h.index.trans_lt hn)).trans (congrArg (· + 1) h.index)
    · obtain ⟨hw', himage⟩ := h.image hw
      refine ⟨hw', himage.trans (erodePass_of_lt_three _ ?_).symm⟩
      rwa [length_isoImage, length_image]
  · rw [h.height] at hh'; omega

/-- `I_SELECT` with an interior row goes on to the pass. -/
theorem IsoAfter.select_of_three_le (h : IsoAfter s n .iSelect t) (hn : n < s.ops.isoSteps.toNat) (hh : 3 ≤ s.height) :
    step t = .next (iSelect t) ∧ IsoAfter s n .eInit (iSelect t) := by
  have hstep := step_iSelect h.engState h.inputs
  have hinv : Inv (iSelect t) := h.inv.step hstep
  refine ⟨hstep, ?_⟩
  rcases iSelect_cases t with ⟨heq, -⟩ | ⟨-, hh', -⟩ | ⟨-, -, e⟩
  · exact absurd heq (h.index_ne hn)
  · rw [h.height] at hh'; omega
  · rw [e] at hinv ⊢
    exact ⟨hinv, rfl, h.command, h.inputs, h.ops, h.status, h.index, h.image, h.outside⟩

/-- The pass of a step runs with the element of the schedule (R180). -/
theorem IsoAfter.pass (h : IsoAfter s n .eInit t) :
    run (s.height - 1) t = .next (endIsoPass (passDone t)) ∧ IsoAfter s (n + 1) .iSelect (endIsoPass (passDone t)) := by
  have hrun := run_pass h.inv h.engState h.inputs
  rw [h.command, h.height] at hrun
  refine ⟨hrun, inv_isoPassEnd h.inv h.engState h.inputs h.command, rfl, ?_, ?_, ?_, ?_, ?_, fun hw => ?_, fun a ha => ?_⟩
  · rw [passDone_eq]; exact h.command
  · rw [passDone_eq]; exact h.inputs
  · rw [passDone_eq]; exact h.ops
  · rw [passDone_eq]; exact h.status
  · obtain ⟨hlt, -⟩ := h.inv.engine.stepping (.inl h.engState) h.command
    rw [passDone_eq]
    exact (isoIndex_succ hlt).trans (congrArg (· + 1) h.index)
  · obtain ⟨hw', himage⟩ := h.image hw
    obtain ⟨-, -, -, hmask⟩ := h.inv.engine.pass (.inl h.engState)
    obtain ⟨hwritten, hpass⟩ := image_passDone h.inv h.engState h.inputs hw'
    rw [hmask, expectedMask_erodeIso h.command, h.index, himage] at hpass
    exact ⟨hwritten, hpass⟩
  · rw [← h.outside a ha]
    exact get?_passDone_out h.inv h.engState h.inputs (by rwa [h.rowAddr, h.rowAddr, h.height])

/-- Every step takes its micro-steps and brings the next (R102). -/
theorem IsoAfter.next (h : IsoAfter s n .iSelect t) (hn : n < s.ops.isoSteps.toNat) :
    ∃ u, run (isoStepLength s) t = .next u ∧ IsoAfter s (n + 1) .iSelect u := by
  by_cases hh : s.height < 3
  · obtain ⟨hstep, hnext⟩ := h.select_of_lt_three hn hh
    exact ⟨_, by rw [isoStepLength, if_pos hh, run_succ_of_step hstep]; rfl, hnext⟩
  · obtain ⟨hstep, hsel⟩ := h.select_of_three_le hn (Nat.le_of_not_lt hh)
    obtain ⟨hrun, hnext⟩ := hsel.pass
    have hlen : isoStepLength s = s.height - 1 + 1 := by rw [isoStepLength, if_neg hh]; omega
    exact ⟨_, by rw [hlen, run_succ_of_step hstep, hrun], hnext⟩

end

/-! ## The whole command (R180) -/

/-- `VALIDATE` of a valid `ERODE_ISO` goes on to its first selection (R101). -/
theorem step_beginIso (he : s.engState = .validate) (hc : s.command = .legal .erodeIso) (hv : validateImage s = .ok)
    (hi : s.inputs = []) : step s = .next (beginIso s) := by
  rw [step_validate_ok he hi (by rw [hc]; exact hv), hc]
  rfl

/-- The first selection begins before any step. -/
theorem isoAfter_beginIso (h : Inv s) (he : s.engState = .validate) (hc : s.command = .legal .erodeIso)
    (hv : validateImage s = .ok) (hi : s.inputs = []) :
    IsoAfter s 0 .iSelect (beginIso s) :=
  ⟨h.step (step_beginIso he hc hv hi), rfl, hc, hi, rfl, rfl, rfl, fun hw => ⟨hw, rfl⟩, fun _ _ => rfl⟩

section
variable (h : Inv s) (he : s.engState = .validate) (hc : s.command = .legal .erodeIso) (hv : validateImage s = .ok)
  (hi : s.inputs = [])
include h he hc hv hi

/-- The engine alone brings the selection after any number of the steps, each in its own micro-steps (R102). -/
theorem run_isoAfter {n : Nat} (hn : n ≤ s.ops.isoSteps.toNat) :
    ∃ t, run (1 + n * isoStepLength s) s = .next t ∧ IsoAfter s n .iSelect t := by
  induction n with
  | zero =>
    refine ⟨_, ?_, isoAfter_beginIso h he hc hv hi⟩
    rw [Nat.zero_mul, run_succ_of_step (step_beginIso he hc hv hi)]
    rfl
  | succ n ih =>
    obtain ⟨t, hrun, ht⟩ := ih (by omega)
    obtain ⟨u, hstep, hu⟩ := ht.next hn
    exact ⟨u, by rw [Nat.succ_mul, ← Nat.add_assoc, run_add hrun, hstep], hu⟩

/-- After all its steps the command completes at `I_SELECT`, with the registers as R185 gives them. -/
theorem run_erodeIso : ∃ t, run (microSteps s) s = .next (complete .ok t) ∧
    IsoAfter s s.ops.isoSteps.toNat .iSelect t ∧ t.iso.index = s.ops.isoSteps ∧
    t.iso.diag.toNat = isoDiagAt s.ops.isoSteps.toNat ∧ t.iso.seq = isoSeqAt s.ops.isoSteps.toNat := by
  obtain ⟨t, hrun, ht⟩ := run_isoAfter h he hc hv hi le_rfl
  have hindex : t.iso.index = s.ops.isoSteps := BitVec.eq_of_toNat_eq ht.index
  have hlast : iSelect t = complete .ok t := if_pos (hindex.trans (congrArg Operands.isoSteps ht.ops).symm)
  have hsteps : microSteps s = 1 + s.ops.isoSteps.toNat * isoStepLength s + 1 := by
    have hleft : stepsLeft (beginIso s) = s.ops.isoSteps.toNat * isoStepLength s + 1 := rfl
    rw [microSteps_eq (by rw [hc]; exact hv), hc]
    show stepsLeft (beginIso s) + 1 = _
    omega
  obtain ⟨-, -, -, hd, hq⟩ := ht.inv.engine.select ht.engState
  rw [ht.index] at hd hq
  refine ⟨t, ?_, ht, hindex, hd, hq⟩
  rw [hsteps, run_add hrun, run_succ_of_step (step_iSelect ht.engState ht.inputs), hlast]
  rfl

end

/-- Settles O43: the steps of the schedule one after the other, and the completion. -/
theorem erodeIsoRunsTheSchedule : Obligations.ErodeIsoRunsTheSchedule := by
  intro s h he hc hv hi hw
  obtain ⟨t, hrun, ht, hindex, hd, hq⟩ := run_erodeIso h he hc hv hi
  obtain ⟨hwritten, himage⟩ := ht.image hw
  have hstatus : (complete .ok t).status = { s.status with done := true } := congrArg (Status.completed · .ok) ht.status
  exact ⟨_, hrun, rfl, hstatus, ht.ops, hwritten, himage, ht.outside, hindex, hd, hq⟩

/-- Settles O44: with no steps the first `I_SELECT` completes, and every pass keeps the all-background image. -/
theorem zeroStepsAndZeroImage : Obligations.ZeroStepsAndZeroImage := by
  refine ⟨fun s he hc hv hi h0 => ?_, fun s h he hc hv hi hw hzero => ?_⟩
  · have hend : iSelect (beginIso s) = complete .ok (beginIso s) := if_pos h0.symm
    have hlast : step (beginIso s) = .next (complete .ok (beginIso s)) := hend ▸ step_iSelect rfl hi
    exact (run_succ_of_step (step_beginIso he hc hv hi) 1).trans (run_succ_of_step hlast 0)
  · obtain ⟨t, hrun, hidle, -, -, hwritten, himage, -⟩ := erodeIsoRunsTheSchedule s h he hc hv hi hw
    exact ⟨t, hrun, hidle, hwritten, himage.trans (isoImage_of_zero hzero _)⟩

theorem Stepper.eq_of_fields {p q : Stepper} (hi : p.index = q.index) (hd : p.diag = q.diag) (hq : p.seq = q.seq) : p = q := by
  cases p; cases q
  cases hi; cases hd; cases hq
  rfl

/-- Settles O45: the schedule's first seven choices, and the registers of R185 after seven steps. -/
theorem sevenStepsGiveTheLiteralSequence : Obligations.SevenStepsGiveTheLiteralSequence := by
  refine ⟨by decide, fun s h he hc hv hi h7 => ?_⟩
  obtain ⟨t, hrun, -, hindex, hd, hq⟩ := run_erodeIso h he hc hv hi
  rw [h7] at hindex hd hq
  exact ⟨_, hrun, rfl, Stepper.eq_of_fields hindex (BitVec.eq_of_toNat_eq hd) hq⟩

end Sys2Proof.Machine
end

section
/-! PROOFS. Errors and the interrupt output: host protocol errors (R203), command errors (R201), and `IRQ` (R204). -/

namespace Sys2Proof.Machine

variable {s t : State}

/-! ## Host protocol errors (R203) -/

/-- Only the register that starts at an offset is selected by it. -/
theorem Reg.offset_of_ofOffset {off : BitVec 8} {r : Reg} (h : Reg.ofOffset off = some r) : r.offset = off :=
  beq_iff_eq.1 (List.find?_some (p := fun r : Reg => r.offset == off) h)

theorem Reg.offset_inj {r r' : Reg} (h : r.offset = r'.offset) : r = r' :=
  Option.some.inj ((Reg.ofOffset_offset r).symm.trans (h ▸ Reg.ofOffset_offset r'))

/-- A register write has a wrong width or offset, goes to a register, or is ignored (R41, R42). -/
theorem regWrite_cases (off : BitVec 8) (bits : Nat) (v : Word) (s : State) :
    (bits ≠ 32 ∨ off.toNat % 4 ≠ 0) ∨ (∃ r : Reg, off = r.offset ∧ bits = 32) ∨
    ((∀ r : Reg, off ≠ r.offset) ∧ hostTransaction (.regWrite off bits v) s = s) := by
  by_cases hok : bits = 32 ∧ off.toNat % 4 = 0
  · cases hr : Reg.ofOffset off with
    | some r => exact .inr (.inl ⟨r, (Reg.offset_of_ofOffset hr).symm, hok.1⟩)
    | none =>
      refine .inr (.inr ⟨fun r he => by simp [he, Reg.ofOffset_offset] at hr, ?_⟩)
      simp [hostTransaction, hostRegWrite, (regAccessOk_iff off bits).2 hok, hr]
  · exact .inl (by tauto)

/-- A write to `CMD` or an operand register while a command runs is a protocol error (R43, R100). -/
theorem Reg.write_refused (hb : s.busy = true) {r : Reg} (hr : r ∈ Reg.cmd :: operandRegs) (v : Word) :
    r.write v s = hostError s := by
  rcases List.mem_cons.1 hr with rfl | hr
  · exact if_pos hb
  · rw [Reg.write_operand hr, writeOperand_busy hb]

/-- A write that is not refused changes `HERR` only where it is a `STATUS` write (R24). -/
theorem Reg.write_herr {r : Reg} (hs : r ≠ .status) (hr : ¬ (s.busy = true ∧ r ∈ Reg.cmd :: operandRegs)) (v : Word) :
    (r.write v s).status.herr = s.status.herr := by
  by_cases ho : r ∈ Reg.cmd :: operandRegs
  · have hb : s.busy = false := by simpa [ho] using hr
    rcases List.mem_cons.1 ho with rfl | ho
    · simp [Reg.write, hb, Status.accepted]
    · rw [Reg.write_operand ho, writeOperand_idle hb]
  · cases r
    case status => exact absurd rfl hs
    all_goals first
      | rfl
      | exact absurd (by decide) ho

theorem imemAccessOk_false {a : Nat} (h : s.busy = true ∨ s.cfg.imemBytes ≤ a) : ¬ imemAccessOk s a = true := by
  rw [imemAccessOk_iff, ← Bool.not_eq_true, ← Nat.not_le]
  tauto

/-- A transaction of R203's table sets `HERR`; one that reads returns 0. -/
theorem hostTransaction_of_protocolError {x : HostTx} (h : protocolError x s) :
    hostTransaction x s = { hostError s with rdata := if x.isRead then 0 else s.rdata } := by
  cases x with
  | regWrite off bits v =>
    by_cases hbad : bits ≠ 32 ∨ off.toNat % 4 ≠ 0
    · exact (hostTransaction_badAccess hbad v s).1
    · obtain ⟨hb, r, hr, rfl⟩ : s.busy = true ∧ ∃ r ∈ Reg.cmd :: operandRegs, r.offset = off :=
        (or_assoc.2 h).resolve_left hbad
      obtain rfl : bits = 32 := by tauto
      exact (hostTransaction_regWrite r v s).trans (Reg.write_refused hb hr v)
  | regRead off bits => exact (hostTransaction_badAccess h 0 s).2
  | imemWrite a v => exact (hostTransaction_badImemAccess (imemAccessOk_false h) v).1
  | imemRead a => exact (hostTransaction_badImemAccess (imemAccessOk_false h) 0).2

/-- After a register write that is no protocol error, `HERR` stands where it stood and the write did not clear it (R24). -/
theorem regWrite_herr_iff {off : BitVec 8} {bits : Nat} {v : Word} (h : ¬ protocolError (.regWrite off bits v) s) :
    (hostTransaction (.regWrite off bits v) s).status.herr = true ↔
      s.status.herr = true ∧ (off = 0x08#8 → v.getLsbD 3 = false) := by
  rcases regWrite_cases off bits v s with hbad | ⟨r, rfl, rfl⟩ | ⟨hoff, he⟩
  · exact absurd (or_assoc.1 (.inl hbad)) h
  · rw [hostTransaction_regWrite]
    by_cases hs : r = .status
    · subst hs
      simp [Reg.write, Status.clearedBy, Reg.offset]
    · have hne : r.offset ≠ 0x08#8 := fun he => hs (Reg.offset_inj (r' := .status) he)
      have hr : ¬ (s.busy = true ∧ r ∈ Reg.cmd :: operandRegs) := fun ⟨hb, hr⟩ => h (.inr (.inr ⟨hb, r, hr, rfl⟩))
      simp [Reg.write_herr hs hr, hne]
  · have hne : off ≠ 0x08#8 := hoff .status
    simp [he, hne]

/-- When `HERR` is set after a host transaction: a protocol error, or set before and not cleared by a `STATUS` write (R203). -/
theorem hostTransaction_herr_iff (x : HostTx) (s : State) :
    (hostTransaction x s).status.herr = true ↔ protocolError x s ∨
      (s.status.herr = true ∧ ∀ v : Word, x = .regWrite 0x08#8 32 v → v.getLsbD 3 = false) := by
  by_cases hp : protocolError x s
  · simp [hostTransaction_of_protocolError hp, hp]
  · rw [or_iff_right hp]
    cases x with
    | regWrite off bits v =>
      obtain rfl : bits = 32 := not_not.1 fun hb => hp (.inl hb)
      rw [regWrite_herr_iff hp]
      simp only [HostTx.regWrite.injEq, true_and, and_imp]
      exact and_congr_right fun _ => ⟨fun h _ ho hv => hv ▸ h ho, fun h ho => h v ho rfl⟩
    | regRead off bits =>
      obtain ⟨rfl, h4⟩ : bits = 32 ∧ off.toNat % 4 = 0 := by
        simpa [protocolError] using hp
      rw [hostTransaction_regRead_rdata h4]
      simp
    | imemWrite a v =>
      have hok : imemAccessOk s a = true := by simpa [protocolError, imemAccessOk_iff] using hp
      simp [hostTransaction_imemWrite hok]
    | imemRead a =>
      have hok : imemAccessOk s a = true := by simpa [protocolError, imemAccessOk_iff] using hp
      simp [hostTransaction_imemRead hok]

theorem engineTurn_herr (h : engineTurn s = .next t) : t.status.herr = s.status.herr := by
  obtain ⟨-, -, -, -, hherr, -⟩ := engineTurn_frame h
  exact hherr

/-- `HERR` stays set through every step but a `STATUS` write that clears it and a reset (R203). -/
theorem step_keeps_herr (hs : s.status.herr = true) (h : step s = .next t)
    (hclear : ∀ v : Word, s.inputs.head? = some (.host (.regWrite 0x08#8 32 v)) → v.getLsbD 3 = false)
    (hreset : s.inputs.head? ≠ some .reset) : t.status.herr = true := by
  rcases step_next h with ⟨-, h⟩ | ⟨rest, -, h⟩ | ⟨x, rest, hi, rfl⟩ | ⟨rest, hi, -⟩
  · exact (engineTurn_herr h).trans hs
  · exact (engineTurn_herr h).trans hs
  · exact (hostTransaction_herr_iff x _).2 (.inr ⟨hs, fun v hx => hclear v (by rw [hi, hx]; rfl)⟩)
  · simp [hi] at hreset

/-- The engine's turn neither depends on `HERR` nor changes it (R203). -/
theorem engineTurn_withHerr (e : Bool) (h : engineTurn s = .next t) :
    engineTurn { s with status := { s.status with herr := e } } =
      .next { t with status := { t.status with herr := e } } := by
  rw [engineTurn_eq_turnOf] at h ⊢
  have hherr : { t with status := { t.status with herr := e } } = t.withHostSide s.ctrl e s.rdata s.inputs := by
    rw [turnOf_hostSide h]; rfl
  rw [hherr]
  exact turnOf_withHostSide s.ctrl e s.rdata s.inputs h

/-- Settles O15: `HERR` after a transaction is `hostTransaction_herr_iff`, and `HERR` is part of the host's side, which the engine's
turn neither reads nor changes. -/
theorem protocolErrorsAreStickyAndHarmless : Obligations.ProtocolErrorsAreStickyAndHarmless := by
  refine ⟨fun x s h => hostTransaction_of_protocolError h, fun x s h hherr => ?_,
    fun s t hs h hclear hreset => step_keeps_herr hs h hclear hreset, fun e s t h => engineTurn_withHerr e h⟩
  exact (((hostTransaction_herr_iff x s).1 hherr).resolve_left h).1

/-! ## Command errors (R201) -/

/-- What `VALIDATE` does once the checks pass completes without error, or leaves `STATUS`. -/
theorem beginOf_status (hv : validate s.command s = .ok) :
    (beginOf s.command s).status = s.status ∨ (beginOf s.command s).status = { s.status with done := true } := by
  rcases beginOf_cases s.command s with ⟨code, e, hcode⟩ | ⟨-, -, e⟩ | ⟨i, -, -, ⟨-, e⟩ | ⟨-, e⟩⟩ | ⟨-, e⟩ <;> rw [e]
  · have hok : code = .ok := by
      rcases hcode with ⟨-, hok⟩ | ⟨-, hok, -⟩ | ⟨⟨why, hc⟩, -⟩
      · exact hok
      · exact hok
      · rw [hc] at hv; cases hv
    subst hok; exact .inr rfl
  · exact .inl rfl
  · exact .inr rfl
  · exact .inl rfl
  · exact .inl rfl

/-- A micro-step of a command that passes or has passed the checks leaves `STATUS`, or sets `DONE` and nothing else of it. -/
theorem engineTurn_status_of_valid (hv : s.engState = .validate → validate s.command s = .ok)
    (h : engineTurn s = .next t) : t.status = s.status ∨ t.status = { s.status with done := true } := by
  rcases engineTurn_next h with ⟨-, rfl⟩ | ⟨he, hne, -⟩ | ⟨-, hok, rfl⟩ | ⟨-, -, h⟩ | ⟨-, -, h⟩ | ⟨-, h⟩ | ⟨-, h⟩ | ⟨-, rfl⟩
  · exact .inl rfl
  · exact absurd (hv he) hne
  · exact beginOf_status hok
  · obtain ⟨-, -, -, rfl⟩ := shiftRow_next h; exact .inr rfl
  · obtain ⟨-, -, -, rfl⟩ := shiftRow_next h; exact .inr rfl
  · obtain ⟨-, -, rfl⟩ := eInit_next h; exact .inl (by rw [initDone_eq])
  · obtain ⟨-, ⟨-, -, rfl⟩ | ⟨-, -, rfl⟩⟩ := eRow_next h
    · exact .inl (by rw [rowAdvanced_eq])
    · rcases passEndOf_cases s.command (rowWritten s) with ⟨-, e⟩ | ⟨-, e⟩ <;> rw [e]
      · exact .inr rfl
      · exact .inl rfl
  · rcases iSelect_cases s with ⟨-, e⟩ | ⟨-, -, e⟩ | ⟨-, -, e⟩ <;> rw [e]
    · exact .inr rfl
    · exact .inl rfl
    · exact .inl rfl

/-- Settles O28: a failing check completes with its code; under the invariant the engine answers, and then at most `DONE` is set. -/
theorem failedValidationIsPrecise : Obligations.FailedValidationIsPrecise := by
  refine ⟨fun s he hi hv => ?_, fun s hs _ hi hv => ?_⟩
  · rw [step_validate_error he hi hv, complete_error hv]
  · obtain ⟨t, h⟩ := hs.engineTurn_answers
    refine ⟨t, (step_of_no_inputs hi).trans h, ?_⟩
    rcases engineTurn_status_of_valid hv h with hst | hst <;> simp [hst]

/-! ## The interrupt output (R204) -/

/-- The two enable bits of `CTRL` (R23). -/
theorem getLsbD_ctrlWord (c : Ctrl) : (ctrlWord c).getLsbD 0 = c.ieDone ∧ (ctrlWord c).getLsbD 1 = c.ieHerr := by
  simp only [ctrlWord, BitVec.getLsbD_append]
  simp

theorem irq_iff (s : State) :
    s.irq = true ↔ (s.ctrl.ieDone = true ∧ s.status.done = true) ∨ (s.ctrl.ieHerr = true ∧ s.status.herr = true) := by
  simp [State.irq]

/-- Settles O13: the bits read are the fields of `irq_iff`; each write clears one factor of both products, a completion sets
`DONE`. -/
theorem interruptFollowsEnablesAndStatus : Obligations.InterruptFollowsEnablesAndStatus := by
  refine ⟨fun s => ?_, fun s => ⟨?_, ?_⟩, fun s code h => (irq_iff _).2 (.inl ⟨h, completed_done _ _⟩)⟩
  · obtain ⟨hieDone, hieHerr⟩ := getLsbD_ctrlWord s.ctrl
    obtain ⟨-, hdone, -, hherr⟩ := getLsbD_statusWord s
    rw [irq_iff, Reg.read, Reg.read, hieDone, hieHerr, hdone, hherr]
  · have hw : hostTransaction (.regWrite 0x08#8 32 0xA#32) s = { s with status := s.status.clearedBy 0xA#32 } :=
      hostTransaction_regWrite .status _ s
    simp [hw, State.irq, Status.clearedBy]
  · have hw : hostTransaction (.regWrite 0x04#8 32 0#32) s = { s with ctrl := ctrlOfWord 0#32 } :=
      hostTransaction_regWrite .ctrl _ s
    simp [hw, State.irq, ctrlOfWord]

end Sys2Proof.Machine
end

section
/-! PROOFS. Power-up, the reset input, and bytes that hold no value: what every register is reset to (R231), which bytes an
abandoned command loses (R230, R232), and that every read of such a byte draws a free value (R234). -/

namespace Sys2Proof.Machine

variable {s : State} {rest : List Event} {a : Nat}

/-! ## The reset input -/

/-- A pending reset is taken at once, whatever the engine is doing (R230). -/
theorem step_of_reset (h : s.inputs = .reset :: rest) : step s = .next (resetInput { s with inputs := rest }) := by
  simp only [step, h]

/-- Every register but the two that show parameters reads as after power-up (R230, R231). -/
theorem Reg.read_resetInput (s : State) {r : Reg} (hstride : r ≠ .cfgMaxstride) (hbytes : r ≠ .cfgImembytes) :
    r.read (resetInput s) = r.read State.reset := by
  cases r
  case cfgMaxstride => exact absurd rfl hstride
  case cfgImembytes => exact absurd rfl hbytes
  all_goals rfl

/-- An idle engine has no command to abandon. -/
theorem abandonedRange_of_idle (h : s.busy = false) : abandonedRange s = (0, 0) := by simp [abandonedRange, h]

/-- A reset while idle keeps every byte (R231). -/
theorem resetInput_imem_of_idle (h : s.busy = false) : (resetInput s).imem = s.imem := by
  rw [resetInput_imem, abandonedRange_of_idle h, Memory.erase_zero]

/-- A reset takes the value of exactly the bytes of the abandoned range (R232). -/
theorem get?_resetInput (s : State) (a : Nat) :
    (resetInput s).imem.get? a =
      if (abandonedRange s).1 ≤ a ∧ a < (abandonedRange s).1 + (abandonedRange s).2 then none else s.imem.get? a := by
  rw [resetInput_imem, Memory.get?_erase]

/-- Settles O47: the registers are those of `Reg.read_resetInput`, and the bytes that lose their value are the abandoned range,
which `mem_abandonedRange` writes out. -/
theorem resetInputAbandonsTheCommand : Obligations.ResetInputAbandonsTheCommand := by
  intro s rest hi
  refine ⟨_, step_of_reset hi, fun r hstride hbytes => Reg.read_resetInput _ hstride hbytes, rfl, rfl, rfl, rfl, rfl, rfl, rfl,
    fun hidle => resetInput_imem_of_idle hidle, fun a => ?_⟩
  have hrange := mem_abandonedRange { s with inputs := rest } a
  have hget := get?_resetInput { s with inputs := rest } a
  exact ⟨fun h => hget.trans (if_pos (hrange.2 h)), fun h => hget.trans (if_neg (mt hrange.1 h))⟩

/-! ## Power-up -/

/-- Every register but `ID` and the two that show parameters reads 0 after power-up (R231). -/
theorem Reg.read_reset {r : Reg} (hid : r ≠ .id) (hstride : r ≠ .cfgMaxstride) (hbytes : r ≠ .cfgImembytes) :
    r.read State.reset = 0 := by
  cases r
  case id => exact absurd rfl hid
  case cfgMaxstride => exact absurd rfl hstride
  case cfgImembytes => exact absurd rfl hbytes
  all_goals rfl

/-- The parameters of `State.reset` are within R8 (assumption 1). -/
theorem reset_cfg_wellFormed : State.reset.cfg.wellFormed := by decide

/-- Settles O46: each register by `Reg.read_reset`; IMEM lists no byte. -/
theorem powerUpState : Obligations.PowerUpState :=
  ⟨fun _ hid hstride hbytes => Reg.read_reset hid hstride hbytes, rfl, rfl, rfl, rfl, rfl, rfl, fun _ => rfl,
    reset_cfg_wellFormed⟩

theorem inv_reset : Inv State.reset where
  cfg := reset_cfg_wellFormed
  imemCanonical := reset_imem_wf
  imemInRange c hc := absurd hc List.not_mem_nil
  bufferLength k := by simp [State.reset, Cache.buf]
  errorCode := Status.inStep_accepted State.reset.status
  busyFlags hb := absurd hb (by decide)
  diagEven := rfl
  engine := engineFits_of_resting (.inl rfl)

/-- Settles O50: the engine is idle, so that nothing is asked of it or of the window. -/
theorem powerUpMeetsInvariants : Obligations.PowerUpMeetsInvariants := ⟨inv_reset, window_of_engState (by decide)⟩

/-! ## Bytes that hold no value -/

/-- A read of a byte that holds no value gives the free value that comes next (R234). -/
theorem Memory.readByte_of_none {m : Memory} (h : m.get? a = none) (d : Nat) : m.readByte a d = Config.freeByte d := by
  rw [Memory.readByte, h, Option.getD_none]

/-- The host's read of a byte that holds no value draws one free value (R234, assumption 4). -/
theorem hostTransaction_imemRead_of_none (hok : imemAccessOk s a = true) (h : s.imem.get? a = none) :
    hostTransaction (.imemRead a) s =
      { s with rdata := (Config.freeByte s.draws).setWidth 32, draws := s.draws + 1 } := by
  rw [hostTransaction_imemRead hok, Memory.readByte_of_none h]

/-- In an engine read, byte `k` is number `k` of the draws where it holds no value (R234, assumption 4). -/
theorem getD_memRead_of_none {n k : Nat} (hk : k < n) (h : s.imem.get? (a + k) = none) :
    (memRead s a n).getD k 0 = Config.freeByte (s.draws + k) := by
  rw [memRead, Memory.getD_readRow _ _ _ _ _ hk, Memory.readByte_of_none h]

/-- A shift draws for each byte of its source. -/
theorem shiftRow_draws {f : Row → Row} {k : Fin 9} {t : State} (h : shiftRow f k s = .next t) :
    t.draws = s.draws + s.shiftLen := by
  obtain ⟨-, -, -, rfl⟩ := shiftRow_next h
  simp

/-- Settles O57: one draw for each byte that the host's read, a row load and a shift read, and no read writes IMEM. -/
theorem unwrittenBytesAreDrawnAtEveryRead : Obligations.UnwrittenBytesAreDrawnAtEveryRead :=
  ⟨fun s a hidle ha h => hostTransaction_imemRead_of_none ((imemAccessOk_iff s a).2 ⟨hidle, ha⟩) h,
    fun _ _ _ _ hk h => getD_memRead_of_none hk h,
    fun g y s => ⟨loadGroup_draws s g y, loadGroup_imem s g y⟩,
    fun _ _ _ _ h => shiftRow_draws h⟩

end Sys2Proof.Machine
end
